-- ==== Sys2Proof/Word.lean ====
section
/-! DEFINITION. The machine's word and byte (00_scope.md R5 XLEN and WORD, R8, R9). -/
namespace Sys2Proof

/-- A register value: XLEN = 32 bits, unsigned (00_scope.md R5, R8). -/
abbrev Word := BitVec 32

/-- A memory cell, "address-indexed byte" of 8 bits (20_memory.md R50). -/
abbrev Byte := BitVec 8

/-- `trunc32(v)`: `v mod 2^32` for any integer `v`, negative included (00_scope.md R9). -/
def trunc32 (v : Int) : Word := BitVec.ofInt 32 v

end Sys2Proof
end

