-- ==== Sys2Proof/Config.lean ====
section
/-! DEFINITION. What an implementation fixes (00_scope.md R5) and the free values the spec leaves open. -/
namespace Sys2Proof

/-- A register index: 0..254, NREGS = 255 (10_state.md R21, D4). -/
abbrev RegIdx := Fin 255

namespace Config

/-- REG_ACC, the accumulator (00_scope.md R5). -/
def regAcc : RegIdx := 0

/-- WORD: instruction length, PC increment, stack word and interrupt slot stride in bytes (00_scope.md R5). -/
def wordSize : Nat := 4

/-- FREE VALUE: the byte that the device bound to a special address answers, given how many device
calls were made before it and the physical address. No body: "a model treats a device read as a draw
(any byte)" (20_memory.md R59, 93_implementation_defined.md U2). Log entry 3. -/
opaque deviceByte : Nat → Nat → Byte

end Config

/-- OPCODE MAP, the byte of each mnemonic in the order of R108's table: "a model takes the map as configuration"
(30_encoding.md R108, 93_implementation_defined.md U3, D1). `OpcodeMap.byte` reads it. Log entry 10. -/
abbrev OpcodeMap := Vector Byte 46

/-- The parameters a machine is built with: those that 00_scope.md R5 marks OPEN ("the model takes it as
an argument"), the three reserved register indices, LINK_OFFSET, the opcode map, and the platform's set of
special addresses (20_memory.md R58). No step changes them. Log entries 1, 2, 10, 11 and 12. -/
structure Params where
  /-- MEM_SIZE: physical addresses 0..memSize-1 exist (R5, R50). -/
  memSize : Nat
  /-- IV_SLOTS: legal interrupt numbers are 0..ivSlots-1 (R5, R33). -/
  ivSlots : Nat
  /-- STACK_BOUND: none, or (STACK_BASE, STACK_SIZE) (R5, R263). -/
  stackBound : Option (Nat × Nat)
  /-- RESET_PC (R5, R322). -/
  resetPc : Word
  /-- LINK_OFFSET, what BSR and BSRi add to the advanced PC (R5, R228). -/
  linkOffset : Nat
  /-- REG_PC, the program counter's index (R5, 10_state.md R23, D3). -/
  regPc : RegIdx
  /-- REG_SP, the stack pointer's index (R5, 10_state.md R23, D3). -/
  regSp : RegIdx
  /-- REG_RET, the return register's index (R5, 10_state.md R23, D3). -/
  regRet : RegIdx
  /-- OPCODE MAP (R5, 30_encoding.md R108). -/
  opcodes : OpcodeMap
  /-- The special addresses, each bound to a device (R58). -/
  special : List Nat
deriving DecidableEq, Repr, Inhabited

/-- REG_PC, REG_SP and REG_RET are "distinct, nonzero configuration constants in 1..254" (10_state.md R23,
93_implementation_defined.md U17). -/
abbrev Params.RegsDistinct (p : Params) : Prop :=
  p.regPc ≠ 0 ∧ p.regSp ≠ 0 ∧ p.regRet ≠ 0 ∧ p.regPc ≠ p.regSp ∧ p.regPc ≠ p.regRet ∧ p.regSp ≠ p.regRet

/-- The constraints on the parameters (R5, R23, R108, 93_implementation_defined.md U3, U7, U17); the opcode map is
injective when its 46 bytes are different. -/
abbrev Params.Wf (p : Params) : Prop :=
  (1 ≤ p.memSize ∧ p.memSize ≤ 2 ^ 32) ∧ 1 ≤ p.ivSlots ∧ (p.linkOffset = 4 ∨ p.linkOffset = 0) ∧ p.RegsDistinct ∧
    p.opcodes.toList.Nodup

end Sys2Proof
end

