-- ==== Sys2Proof/Syntax.lean ====
section
/-! DEFINITION. The instructions: one constructor per row of spec/opcode_table.json (30_encoding.md R108). -/
namespace Sys2Proof

/-- A register operand: `none` is "register absent" (selector byte 0), `some r` names register `r`
(selector byte `r+1`) (30_encoding.md R103). -/
abbrev Sel := Option RegIdx

/-- The 46 mnemonics of 30_encoding.md R108, in its table's order, which the opcode map sends to bytes. -/
inductive Mnemonic where
  | stop | iret
  | load8i | load16i | loadi | store8i | store16i | storei
  | load8 | load16 | load | store8 | store16 | store
  | mov | movi | swap
  | add | sub | mul | div | mod
  | shl | shr | and | or | xor | not
  | bi | b | bzi | bnzi | bz | bnz | beq | bne | brz | bsri | bsr | rts
  | intvec | seti | clri
  | mmucfg
  | push | pop
deriving DecidableEq, Repr

/-- An instruction with its operands. `imm24` is the raw operand field of format I (R102); `rx`, `ry`, `ib`
are the packed triple of format R (R103). A field that the instruction ignores (R104, R112) is no operand.
The immediates are natural numbers; `Instr.WellFormed` holds them to their field widths (R121). -/
inductive Instr where
  | stop
  | iret
  | load8i (imm24 : Nat)
  | load16i (imm24 : Nat)
  | loadi (imm24 : Nat)
  | store8i (imm24 : Nat)
  | store16i (imm24 : Nat)
  | storei (imm24 : Nat)
  | load8 (rx ry : Sel) (ib : Nat)
  | load16 (rx ry : Sel) (ib : Nat)
  | load (rx ry : Sel) (ib : Nat)
  | store8 (rx ry : Sel) (ib : Nat)
  | store16 (rx ry : Sel) (ib : Nat)
  | store (rx ry : Sel) (ib : Nat)
  | mov (rx ry : Sel) (ib : Nat)
  | movi (imm24 : Nat)
  | swap (rx ry : Sel) (ib : Nat)
  | add (rx ry : Sel) (ib : Nat)
  | sub (rx ry : Sel) (ib : Nat)
  | mul (rx ry : Sel) (ib : Nat)
  | div (rx ry : Sel) (ib : Nat)
  | mod (rx ry : Sel) (ib : Nat)
  | shl (rx ry : Sel) (ib : Nat)
  | shr (rx ry : Sel) (ib : Nat)
  | and (rx ry : Sel) (ib : Nat)
  | or (rx ry : Sel) (ib : Nat)
  | xor (rx ry : Sel) (ib : Nat)
  | not (rx : Sel)
  | bi (imm24 : Nat)
  | b (rx : Sel)
  | bzi (imm24 : Nat)
  | bnzi (imm24 : Nat)
  | bz (rx ry : Sel)
  | bnz (rx ry : Sel)
  | beq (rx ry : Sel) (ib : Nat)
  | bne (rx ry : Sel) (ib : Nat)
  | brz (rx ry : Sel) (ib : Nat)
  | bsri (imm24 : Nat)
  | bsr (rx : Sel)
  | rts
  | intvec (rx ry : Sel) (ib : Nat)
  | seti
  | clri
  | mmucfg (rx ry : Sel) (ib : Nat)
  | push (rx ry : Sel)
  | pop (rx ry : Sel)
deriving DecidableEq, Repr

end Sys2Proof
end

