-- ==== Sys2Proof/WellFormed.lean ====
section
/-! DEFINITION. The check on an instruction's operands: an immediate fits its field (30_encoding.md R102,
R103, R121). A register operand needs none: `Sel` holds no index beyond 254 (R114). -/
namespace Sys2Proof

/-- "A format I operand must be 0..0xFFFFFF" (30_encoding.md R121). -/
abbrev imm24Fits (imm : Nat) : Prop := imm < 2 ^ 24

/-- A format R immediate is 0..255 (30_encoding.md R121). -/
abbrev imm8Fits (ib : Nat) : Prop := ib < 2 ^ 8

/-- Every immediate of the instruction fits its field, so that it has an encoding (30_encoding.md R106,
R121): what the assembler would refuse with TruncatedImmediateError is not well formed. -/
def Instr.WellFormed : Instr → Prop
  | .stop | .iret | .rts | .seti | .clri => True
  | .load8i imm | .load16i imm | .loadi imm | .store8i imm | .store16i imm | .storei imm => imm24Fits imm
  | .movi imm | .bi imm | .bzi imm | .bnzi imm | .bsri imm => imm24Fits imm
  | .load8 _ _ ib | .load16 _ _ ib | .load _ _ ib | .store8 _ _ ib | .store16 _ _ ib | .store _ _ ib => imm8Fits ib
  | .mov _ _ ib | .swap _ _ ib => imm8Fits ib
  | .add _ _ ib | .sub _ _ ib | .mul _ _ ib | .div _ _ ib | .mod _ _ ib => imm8Fits ib
  | .shl _ _ ib | .shr _ _ ib | .and _ _ ib | .or _ _ ib | .xor _ _ ib => imm8Fits ib
  | .beq _ _ ib | .bne _ _ ib | .brz _ _ ib => imm8Fits ib
  | .intvec _ _ ib | .mmucfg _ _ ib => imm8Fits ib
  | .not _ | .b _ | .bsr _ | .bz _ _ | .bnz _ _ | .push _ _ | .pop _ _ => True

end Sys2Proof
end

