-- ==== Sys2Proof/Decode.lean ====
section
/-! DEFINITION. Decoding a word, total on any bytes and rejecting by name; then the encoder
(30_encoding.md R100 to R114). -/
namespace Sys2Proof

/-- Why bytes are no instruction. -/
inductive DecodeError where
  /-- The opcode byte is one of the 210 that no mnemonic has (30_encoding.md R110). -/
  | illegalOpcode (opcode : Byte)
  /-- Fewer than four bytes were given: every instruction is one 32-bit word (30_encoding.md R100). -/
  | truncated
deriving DecidableEq, Repr

/-- The default opcode map, the values of 30_encoding.md R108 (D1). Log entry 10. -/
def opcode : Mnemonic → Byte
  | .stop => 0x01 | .iret => 0x02
  | .load8i => 0x10 | .load16i => 0x11 | .loadi => 0x12
  | .store8i => 0x13 | .store16i => 0x14 | .storei => 0x15
  | .load8 => 0x16 | .load16 => 0x17 | .load => 0x18
  | .store8 => 0x19 | .store16 => 0x1A | .store => 0x1B
  | .mov => 0x20 | .movi => 0x21 | .swap => 0x22
  | .add => 0x30 | .sub => 0x31 | .mul => 0x32 | .div => 0x33 | .mod => 0x34
  | .shl => 0x40 | .shr => 0x41 | .and => 0x42 | .or => 0x43 | .xor => 0x44 | .not => 0x45
  | .bi => 0x50 | .b => 0x51 | .bzi => 0x52 | .bnzi => 0x53 | .bz => 0x54 | .bnz => 0x55
  | .beq => 0x56 | .bne => 0x57 | .brz => 0x58 | .bsri => 0x59 | .bsr => 0x5A | .rts => 0x5B
  | .intvec => 0x60 | .seti => 0x61 | .clri => 0x62
  | .mmucfg => 0x70
  | .push => 0x80 | .pop => 0x81

/-- All mnemonics, in the table's order. -/
def allMnemonics : List Mnemonic :=
  [.stop, .iret, .load8i, .load16i, .loadi, .store8i, .store16i, .storei, .load8, .load16, .load, .store8,
   .store16, .store, .mov, .movi, .swap, .add, .sub, .mul, .div, .mod, .shl, .shr, .and, .or, .xor, .not, .bi,
   .b, .bzi, .bnzi, .bz, .bnz, .beq, .bne, .brz, .bsri, .bsr, .rts, .intvec, .seti, .clri, .mmucfg, .push, .pop]

/-- R108's map as the value a machine is built with (00_scope.md R5). -/
def defaultOpcodes : OpcodeMap := ⟨(allMnemonics.map opcode).toArray, rfl⟩

/-- A mnemonic's row in the table of 30_encoding.md R108. -/
def Mnemonic.index (m : Mnemonic) : Fin 46 := ⟨m.ctorIdx, by cases m <;> decide⟩

/-- The opcode byte that the map gives a mnemonic (30_encoding.md R108). -/
def OpcodeMap.byte (map : OpcodeMap) (m : Mnemonic) : Byte := map[m.index.val]

/-- "An injective function from these 46 mnemonics to bytes" (30_encoding.md R108). -/
def OpcodeMap.Injective (map : OpcodeMap) : Prop := ∀ m m' : Mnemonic, map.byte m = map.byte m' → m = m'

/-- The mnemonic an opcode byte selects: "selected by `w[7:0]` alone" (30_encoding.md R108, R109). -/
def mnemonicOf (map : OpcodeMap) (op : Byte) : Option Mnemonic := allMnemonics.find? (fun m => map.byte m == op)

/-- `w[7:0]` (30_encoding.md R101). -/
def opcodeField (w : Word) : Byte := w.extractLsb' 0 8

/-- `rawOperand = w[31:8]` (30_encoding.md R101). -/
def operandField (w : Word) : BitVec 24 := w.extractLsb' 8 24

/-- `imm24`, zero-extended, never scaled (30_encoding.md R102). -/
def imm24Field (w : Word) : Nat := (operandField w).toNat

/-- A selector byte: 0 is "absent", N > 0 is register N-1 (30_encoding.md R103). -/
def selOfByte (b : Byte) : Sel :=
  if h : b.toNat = 0 then none else some ⟨b.toNat - 1, by have := b.isLt; omega⟩

/-- `sx = w[15:8]` (30_encoding.md R103). -/
def rxField (w : Word) : Sel := selOfByte (w.extractLsb' 8 8)

/-- `sy = w[23:16]` (30_encoding.md R103). -/
def ryField (w : Word) : Sel := selOfByte (w.extractLsb' 16 8)

/-- `ib = w[31:24]`, unsigned (30_encoding.md R103). -/
def ibField (w : Word) : Nat := (w.extractLsb' 24 8).toNat

/-- The instruction of a mnemonic whose operands stand in the word, by its format (30_encoding.md R107, R108,
R112). -/
def instrOf (m : Mnemonic) (w : Word) : Instr :=
  match m with
  | .stop => .stop
  | .iret => .iret
  | .load8i => .load8i (imm24Field w)
  | .load16i => .load16i (imm24Field w)
  | .loadi => .loadi (imm24Field w)
  | .store8i => .store8i (imm24Field w)
  | .store16i => .store16i (imm24Field w)
  | .storei => .storei (imm24Field w)
  | .load8 => .load8 (rxField w) (ryField w) (ibField w)
  | .load16 => .load16 (rxField w) (ryField w) (ibField w)
  | .load => .load (rxField w) (ryField w) (ibField w)
  | .store8 => .store8 (rxField w) (ryField w) (ibField w)
  | .store16 => .store16 (rxField w) (ryField w) (ibField w)
  | .store => .store (rxField w) (ryField w) (ibField w)
  | .mov => .mov (rxField w) (ryField w) (ibField w)
  | .movi => .movi (imm24Field w)
  | .swap => .swap (rxField w) (ryField w) (ibField w)
  | .add => .add (rxField w) (ryField w) (ibField w)
  | .sub => .sub (rxField w) (ryField w) (ibField w)
  | .mul => .mul (rxField w) (ryField w) (ibField w)
  | .div => .div (rxField w) (ryField w) (ibField w)
  | .mod => .mod (rxField w) (ryField w) (ibField w)
  | .shl => .shl (rxField w) (ryField w) (ibField w)
  | .shr => .shr (rxField w) (ryField w) (ibField w)
  | .and => .and (rxField w) (ryField w) (ibField w)
  | .or => .or (rxField w) (ryField w) (ibField w)
  | .xor => .xor (rxField w) (ryField w) (ibField w)
  | .not => .not (rxField w)
  | .bi => .bi (imm24Field w)
  | .b => .b (rxField w)
  | .bzi => .bzi (imm24Field w)
  | .bnzi => .bnzi (imm24Field w)
  | .bz => .bz (rxField w) (ryField w)
  | .bnz => .bnz (rxField w) (ryField w)
  | .beq => .beq (rxField w) (ryField w) (ibField w)
  | .bne => .bne (rxField w) (ryField w) (ibField w)
  | .brz => .brz (rxField w) (ryField w) (ibField w)
  | .bsri => .bsri (imm24Field w)
  | .bsr => .bsr (rxField w)
  | .rts => .rts
  | .intvec => .intvec (rxField w) (ryField w) (ibField w)
  | .seti => .seti
  | .clri => .clri
  | .mmucfg => .mmucfg (rxField w) (ryField w) (ibField w)
  | .push => .push (rxField w) (ryField w)
  | .pop => .pop (rxField w) (ryField w)

/-- Decoding a word under an opcode map: pure, total, rejecting only an unclaimed opcode byte (40_fetch_dispatch.md R133,
30_encoding.md R109, R110). -/
def decodeWord (map : OpcodeMap) (w : Word) : Except DecodeError Instr :=
  match mnemonicOf map (opcodeField w) with
  | some m => .ok (instrOf m w)
  | none => .error (.illegalOpcode (opcodeField w))

/-- Composing bytes little-endian, the first at the lowest address (20_memory.md R55, R60). -/
def wordOfBytes : List Byte → Word
  | [] => 0
  | b :: bs => b.setWidth 32 ||| (wordOfBytes bs <<< 8)

/-- Decomposing a word into its `n` low bytes, little-endian (20_memory.md R55, R61). -/
def bytesOfWord : Nat → Word → List Byte
  | 0, _ => []
  | n + 1, v => v.setWidth 8 :: bytesOfWord n (v >>> 8)

/-- The instruction at the front of a byte list, and the rest (30_encoding.md R100). -/
def decodeBytes (map : OpcodeMap) : List Byte → Except DecodeError (Instr × List Byte)
  | b0 :: b1 :: b2 :: b3 :: rest =>
    match decodeWord map (wordOfBytes [b0, b1, b2, b3]) with
    | .ok i => .ok (i, rest)
    | .error e => .error e
  | _ => .error .truncated

/-- The instruction this decoder, under the default map, reads from an instruction of `nbits` bits `w` (bits above are
zero), laid out little-endian as the hardware stores it. -/
def decodeTableWord (nbits w : Nat) : Option Instr :=
  match decodeBytes defaultOpcodes (bytesOfWord Config.wordSize (BitVec.ofNat 32 (w % 2 ^ nbits))) with
  | .ok (i, _) => some i
  | .error _ => none

/-! The encoder. -/

/-- `encode(opcode, operandBits)`: "opcode clipped to 8 bits, operand clipped to 24 bits" (30_encoding.md R106). -/
def packWord (op operandBits : Nat) : Word := BitVec.ofNat 32 (op % 2 ^ 8 + operandBits % 2 ^ 24 * 2 ^ 8)

/-- The selector byte of a register operand (30_encoding.md R103). -/
def selByte : Sel → Nat
  | none => 0
  | some r => r.val + 1

/-- Format N; the assembler emits 0 in the operand field (30_encoding.md R104). -/
def encodeN (map : OpcodeMap) (m : Mnemonic) : Word := packWord (map.byte m).toNat 0

/-- Format I (30_encoding.md R102). -/
def encodeI (map : OpcodeMap) (m : Mnemonic) (imm24 : Nat) : Word := packWord (map.byte m).toNat imm24

/-- Format R: `operandBits = sx | (sy << 8) | (ib << 16)` (30_encoding.md R103, R106). -/
def encodeR (map : OpcodeMap) (m : Mnemonic) (rx ry : Sel) (ib : Nat) : Word :=
  packWord (map.byte m).toNat (selByte rx ||| (selByte ry <<< 8) ||| (ib <<< 16))

/-- The word of an instruction under an opcode map; a field it ignores is emitted as 0 (30_encoding.md R106, R108, D7). -/
def encode (map : OpcodeMap) : Instr → Word
  | .stop => encodeN map .stop
  | .iret => encodeN map .iret
  | .load8i imm => encodeI map .load8i imm
  | .load16i imm => encodeI map .load16i imm
  | .loadi imm => encodeI map .loadi imm
  | .store8i imm => encodeI map .store8i imm
  | .store16i imm => encodeI map .store16i imm
  | .storei imm => encodeI map .storei imm
  | .load8 rx ry ib => encodeR map .load8 rx ry ib
  | .load16 rx ry ib => encodeR map .load16 rx ry ib
  | .load rx ry ib => encodeR map .load rx ry ib
  | .store8 rx ry ib => encodeR map .store8 rx ry ib
  | .store16 rx ry ib => encodeR map .store16 rx ry ib
  | .store rx ry ib => encodeR map .store rx ry ib
  | .mov rx ry ib => encodeR map .mov rx ry ib
  | .movi imm => encodeI map .movi imm
  | .swap rx ry ib => encodeR map .swap rx ry ib
  | .add rx ry ib => encodeR map .add rx ry ib
  | .sub rx ry ib => encodeR map .sub rx ry ib
  | .mul rx ry ib => encodeR map .mul rx ry ib
  | .div rx ry ib => encodeR map .div rx ry ib
  | .mod rx ry ib => encodeR map .mod rx ry ib
  | .shl rx ry ib => encodeR map .shl rx ry ib
  | .shr rx ry ib => encodeR map .shr rx ry ib
  | .and rx ry ib => encodeR map .and rx ry ib
  | .or rx ry ib => encodeR map .or rx ry ib
  | .xor rx ry ib => encodeR map .xor rx ry ib
  | .not rx => encodeR map .not rx none 0
  | .bi imm => encodeI map .bi imm
  | .b rx => encodeR map .b rx none 0
  | .bzi imm => encodeI map .bzi imm
  | .bnzi imm => encodeI map .bnzi imm
  | .bz rx ry => encodeR map .bz rx ry 0
  | .bnz rx ry => encodeR map .bnz rx ry 0
  | .beq rx ry ib => encodeR map .beq rx ry ib
  | .bne rx ry ib => encodeR map .bne rx ry ib
  | .brz rx ry ib => encodeR map .brz rx ry ib
  | .bsri imm => encodeI map .bsri imm
  | .bsr rx => encodeR map .bsr rx none 0
  | .rts => encodeN map .rts
  | .intvec rx ry ib => encodeR map .intvec rx ry ib
  | .seti => encodeN map .seti
  | .clri => encodeN map .clri
  | .mmucfg rx ry ib => encodeR map .mmucfg rx ry ib
  | .push rx ry => encodeR map .push rx ry 0
  | .pop rx ry => encodeR map .pop rx ry 0

/-- The bytes of an instruction as memory holds them (30_encoding.md R100). -/
def encodeBytes (map : OpcodeMap) (i : Instr) : List Byte := bytesOfWord Config.wordSize (encode map i)

end Sys2Proof
end

