-- ==== Sys2Proof/Machine/Params.lean ====
section
/-! DEFINITION. The default values of the parameters (00_scope.md R5). -/
namespace Sys2Proof

/-- The default values of R5: the reserved indices of 10_state.md R23 and the opcode map of 30_encoding.md R108 among
them. R5 gives IV_SLOTS no default (8 is what 95_test_vectors.md uses) and leaves the special addresses to the platform:
both are DESIGN CHOICES (log entry 2), and no statement rests on them. -/
def Params.default : Params :=
  { memSize := 2 ^ 32, ivSlots := 8, stackBound := none, resetPc := 0, linkOffset := 4,
    regPc := 254, regSp := 253, regRet := 252, opcodes := defaultOpcodes, special := [] }

end Sys2Proof
end

