-- ==== Sys2Proof/Machine/State.lean ====
section
/-! DEFINITION. The machine's state as plain data (10_state.md R20 to R36), the reasons a step stops, and
the state after reset (70_reset_and_hazards.md R320). -/
namespace Sys2Proof.Machine

/-- Why the machine stops with a fault: the errors of 60_exceptions.md R270 that the core raises, each with the
info R270 records, and one stuck state. Each stop is SAFE: the model goes no further where the spec says the
hardware goes no further. -/
inductive Fault where
  /-- AddressError, code 1: a physical byte address at or beyond MEM_SIZE in a fetch, load, store, push, pop or
  table read. Raised by `State.physRead8`, `State.physWrite8` and the table walk of MMUCFG (R273), and by
  `State.fetchPastTop` for the byte address 2^32 of a fetch that begins above 0xFFFFFFFC (10_state.md R26, log entry 22).
  Safe: R271. -/
  | addressError (pa : Nat)
  /-- StackOverflow, code 3: raised by PUSH when the bound is set and exceeded (R263, R277). Safe: R271. -/
  | stackOverflow
  /-- StackUnderflow, code 4: raised by POP when the bound is set and the pointer is at or past the base (R263,
  R277). Safe: R271. -/
  | stackUnderflow
  /-- UnmappedPageError, code 5: raised by `State.translate` when paging is on and no mapping covers the virtual
  address (R274). Safe: R271. -/
  | unmappedPage (va : Nat)
  /-- IllegalInstructionError, code 6: raised by `decodeExecute` for an opcode byte no mnemonic has (R275). Safe: R271. -/
  | illegalInstruction (opcode : Byte)
  /-- DivisionByZero, code 8: raised by DIV and MOD with a zero divisor (R276). Safe: R271. -/
  | divisionByZero
  /-- BadInterruptNumber, code 9: raised by `State.drain` for a number at or beyond IV_SLOTS (R285). Safe: R271. -/
  | badInterruptNumber (n : Nat)
  /-- STUCK, not an error of R270: MMUCFG was given a page table that reaches itself, `MMUInit` never finishes and
  the core makes no further progress (20_memory.md R72, 47_mmu_config.md R251(f), 93_implementation_defined.md U9).
  Raised by `expandTable`. Safe: no later step happens on the hardware either. Log entry 7. -/
  | tableNeverEnds
deriving DecidableEq, Repr, Inhabited

/-- The numeric code of an error (60_exceptions.md R270); the stuck state has none. -/
def Fault.code : Fault → Option Nat
  | .addressError _ => some 1
  | .stackOverflow => some 3
  | .stackUnderflow => some 4
  | .unmappedPage _ => some 5
  | .illegalInstruction _ => some 6
  | .divisionByZero => some 8
  | .badInterruptNumber _ => some 9
  | .tableNeverEnds => none

/-- Why the model gives no meaning. -/
inductive Refusal where
  /-- An arm of `exec` whose instruction has no meaning yet. No arm says so: every instruction is modelled. Safe. -/
  | notModelled (mnemonic : String)
deriving DecidableEq, Repr

/-- `run` (10_state.md R34): running, halted by STOP, or faulted with the error and its recorded info. -/
inductive RunStatus where
  | running
  | halted
  | faulted (f : Fault)
deriving DecidableEq, Repr, Inhabited

/-- One element of `MMU.table` (10_state.md R28): the virtual base, the entry's bits 8:0, the size in bytes and
the assigned physical base, an unbounded natural number. -/
structure Mapping where
  vaddr : Word
  flags : BitVec 9
  size : Nat
  pbase : Nat
deriving DecidableEq, Repr, Inhabited

/-- One call of the device interface (20_memory.md R58): `get(pa)` or `set(pa, b)`. -/
inductive DeviceCall where
  | get (pa : Nat)
  | set (pa : Nat) (b : Byte)
deriving DecidableEq, Repr, Inhabited

/-- Physical memory as the bytes that differ from what an unlisted address reads as, addresses rising
(20_memory.md R50; `Memory.wf`). -/
abbrev Memory := List Host.Cell

/-- The whole state: the tuple of 10_state.md R20, and two fields of the model's own (`params`, `devLog`). -/
structure State where
  /-- MODEL's own: the parameters of the step relation (00_scope.md R5); no step changes them. Log entry 1. -/
  params : Params
  /-- `x[0..254]`, the program counter, stack pointer and return register among them (R21, R23). -/
  regs : Vector Word 255
  /-- `MMU.enabled` (R27). -/
  mmuEnabled : Bool
  /-- `MMU.table` (R28). -/
  mmuTable : List Mapping
  /-- `IV.base` (R30). -/
  ivBase : Word
  /-- `IV.enabled` (R31). -/
  ivEnabled : Bool
  /-- `IV.queue`, front first (R32). -/
  ivQueue : List Nat
  /-- `run` (R34). -/
  run : RunStatus
  /-- `Mem` (R36, 20_memory.md R50). -/
  mem : Memory
  /-- MODEL's own: the device calls made so far, oldest first (20_memory.md R58, R82, 93 U2). Log entry 4. -/
  devLog : List DeviceCall
deriving DecidableEq, Repr, Inhabited

/-- The register file right after reset: all zero except `x[REG_PC]` = RESET_PC (70_reset_and_hazards.md R320). -/
def resetRegs (p : Params) : Vector Word 255 :=
  (Vector.replicate 255 0).set p.regPc.val p.resetPc p.regPc.isLt

/-- A machine with the given parameters right after its first reset, its memory never written and no image
loaded (10_state.md section 10, 70_reset_and_hazards.md R320, R323). -/
def State.resetWith (p : Params) : State :=
  { params := p, regs := resetRegs p, mmuEnabled := false, mmuTable := [], ivBase := 0, ivEnabled := false,
    ivQueue := [], run := .running, mem := [], devLog := [] }

/-- The machine right after reset, with the default parameters (log entry 2). -/
def State.reset : State := State.resetWith Params.default

/-- What a step or an instruction answers. -/
abbrev Result := Host.Outcome State Fault Refusal

end Sys2Proof.Machine
end

