-- ==== Sys2Proof/Machine/Alu.lean ====
section
/-! DEFINITION. The integer ALU: stateless operations on mathematical integers, truncated to 32 bits when written
(43_arithmetic.md R180 to R185, 44_bitwise.md R202 to R207). -/
namespace Sys2Proof.Machine

/-- `add(a, b, c) = a + b + c` (43_arithmetic.md R182). -/
def aluAdd (a b c : Nat) : Int := (a : Int) + b + c

/-- `sub(a, b, c) = (a - b) - c`; a negative difference wraps when truncated (43_arithmetic.md R183). -/
def aluSub (a b c : Nat) : Int := ((a : Int) - b) - c

/-- `mul(a, b, c) = (a * b) * c` (43_arithmetic.md R184). -/
def aluMul (a b c : Nat) : Int := ((a : Int) * b) * c

/-- `div(a, b, c)`: truncating division by `b`, then by `c`; either divisor zero faults (43_arithmetic.md R185, D13). -/
def aluDiv (a b c : Nat) : Except Fault Int :=
  if b = 0 then .error .divisionByZero
  else if c = 0 then .error .divisionByZero
  else .ok ((a / b / c : Nat) : Int)

/-- `mod(a, b, c)`: the remainder by `b`, then by `c`; either divisor zero faults (43_arithmetic.md R185, D13). -/
def aluMod (a b c : Nat) : Except Fault Int :=
  if b = 0 then .error .divisionByZero
  else if c = 0 then .error .divisionByZero
  else .ok ((a % b % c : Nat) : Int)

/-- `a * 2^b` truncated: the count is not reduced, 32 or more gives 0 (44_bitwise.md R202, D16). -/
def aluShl (a : Word) (b : Nat) : Word := a <<< b

/-- `floor(a / 2^b)`: a logical right shift, 32 or more gives 0 (44_bitwise.md R203, D16). -/
def aluShr (a : Word) (b : Nat) : Word := a >>> b

/-- `a & b` (44_bitwise.md R204). -/
def aluAnd (a : Word) (b : Nat) : Word := a &&& BitVec.ofNat 32 b

/-- `a | b` (44_bitwise.md R205). -/
def aluOr (a : Word) (b : Nat) : Word := a ||| BitVec.ofNat 32 b

/-- `a ^ b` (44_bitwise.md R206). -/
def aluXor (a : Word) (b : Nat) : Word := a ^^^ BitVec.ofNat 32 b

/-- `trunc32(~a)` (44_bitwise.md R207). -/
def aluNot (a : Word) : Word := ~~~a

end Sys2Proof.Machine
end

