-- ==== Sys2Proof/Machine/Memory.lean ====
section
/-! DEFINITION. The backing storage: reading and writing one byte of `Mem`, and its canonical form (20_memory.md R50). -/
namespace Sys2Proof.Machine

/-- What an address that is not listed reads as: "a byte never written ... reads as 0" (20_memory.md R50). -/
def unwrittenByte : Byte := 0

/-- The canonical form: addresses strictly rising, no listed byte equal to `unwrittenByte`. -/
abbrev Memory.wf (m : Memory) : Prop :=
  m.Pairwise (fun c d => c.1 < d.1) ∧ ∀ c ∈ m, c.2 ≠ unwrittenByte

/-- `Mem[a]` (20_memory.md R50). -/
def Memory.read : Memory → Nat → Byte
  | [], _ => unwrittenByte
  | (a, b) :: m, k => if a = k then b else Memory.read m k

/-- The memory without any cell at address `k`. -/
def Memory.unlist (m : Memory) (k : Nat) : Memory := m.filter (fun c => c.1 ≠ k)

/-- A cell put before the first one at a higher address. -/
def Memory.insertCell : Memory → Nat → Byte → Memory
  | [], k, b => [(k, b)]
  | (a, c) :: m, k, b => if k < a then (k, b) :: (a, c) :: m else (a, c) :: Memory.insertCell m k b

/-- `Mem[k] <- b` (20_memory.md R53), keeping the canonical form: a byte equal to what an unlisted address reads as
is not listed. -/
def Memory.write (m : Memory) (k : Nat) (b : Byte) : Memory :=
  if b = unwrittenByte then m.unlist k else (m.unlist k).insertCell k b

/-- Bytes stored at consecutive addresses from `a`: how the host places an image (70_reset_and_hazards.md R323). -/
def Memory.load : Memory → Nat → List Byte → Memory
  | m, _, [] => m
  | m, a, b :: bs => Memory.load (m.write a b) (a + 1) bs

end Sys2Proof.Machine
end

