-- ==== Sys2Proof/Machine/Ops.lean ====
section
/-! DEFINITION. The named operations over registers, memory and interrupts that every meaning is written with
(00_scope.md R9, 20_memory.md R50 to R64 and R75, 60_exceptions.md R282 to R287). -/
namespace Sys2Proof.Machine

/-! ### Registers -/

/-- `x[i]` (00_scope.md R9). No register is hardwired (10_state.md R22). -/
def State.reg (s : State) (r : RegIdx) : Word := s.regs[r.val]

/-- `x[i] <- v` (00_scope.md R9). -/
def State.setReg (s : State) (r : RegIdx) (v : Word) : State :=
  { s with regs := s.regs.set r.val v r.isLt }

/-- `pc`, shorthand for `x[REG_PC]` (00_scope.md R9, 10_state.md R25). -/
def State.pc (s : State) : Word := s.reg s.params.regPc

/-- `pc <- t` (00_scope.md R9). -/
def State.setPc (s : State) (t : Word) : State := s.setReg s.params.regPc t

/-- The accumulator `x[0]` (10_state.md R22). -/
def State.accumulator (s : State) : Word := s.reg Config.regAcc

/-- Writing the accumulator. -/
def State.setAccumulator (s : State) (v : Word) : State := s.setReg Config.regAcc v

/-- The return register `x[REG_RET]` (10_state.md R23). -/
def State.ret (s : State) : Word := s.reg s.params.regRet

/-- Writing the return register. -/
def State.setRet (s : State) (v : Word) : State := s.setReg s.params.regRet v

/-! ### Physical memory and devices -/

/-- The physical address is bound to a device (20_memory.md R58). -/
def State.isSpecial (s : State) (pa : Nat) : Bool := s.params.special.contains pa

/-- More device calls made, behind those made before (20_memory.md R58, R82). -/
def State.logCalls (s : State) (calls : List DeviceCall) : State := { s with devLog := s.devLog ++ calls }

/-- Another content of the backing storage. -/
def State.setMem (s : State) (m : Memory) : State := { s with mem := m }

/-- The byte a device read draws now: a free value (20_memory.md R59). Log entry 3. -/
def State.drawnByte (s : State) (pa : Nat) : Byte := Config.deviceByte s.devLog.length pa

/-- `PhysRead8(pa)` (20_memory.md R52). -/
def State.physRead8 (s : State) (pa : Nat) : Except Fault (Byte × State) :=
  if s.params.memSize ≤ pa then .error (.addressError pa)
  else if s.isSpecial pa then .ok (s.drawnByte pa, s.logCalls [.get pa])
  else .ok (s.mem.read pa, s)

/-- `PhysWrite8(pa, b)` (20_memory.md R53). -/
def State.physWrite8 (s : State) (pa : Nat) (b : Byte) : Except Fault State :=
  if s.params.memSize ≤ pa then .error (.addressError pa)
  else if s.isSpecial pa then .ok (s.logCalls [.set pa b])
  else .ok (s.setMem (s.mem.write pa b))

/-! ### Translation and sized access -/

/-- The half-open virtual range of a mapping contains the address; nothing wraps (20_memory.md R75). -/
def Mapping.covers (m : Mapping) (va : Nat) : Bool := m.vaddr.toNat ≤ va && va < m.vaddr.toNat + m.size

/-- The first mapping, in list order, whose range contains the address (20_memory.md R75). The flags take no
part: there is no protection (R77). -/
def lookupMapping : List Mapping → Nat → Option Nat
  | [], _ => none
  | m :: ms, va => if m.covers va then some (m.pbase + (va - m.vaddr.toNat)) else lookupMapping ms va

/-- `Translate(va)` (20_memory.md R75). -/
def State.translate (s : State) (va : Nat) : Except Fault Nat :=
  if s.mmuEnabled then
    match lookupMapping s.mmuTable va with
    | some pa => .ok pa
    | none => .error (.unmappedPage va)
  else .ok va

/-- One byte at a virtual address: translation before range (20_memory.md R60, 60_exceptions.md R290). -/
def State.readByte (s : State) (va : Nat) : Except Fault (Byte × State) :=
  match s.translate va with
  | .error f => .error f
  | .ok pa => s.physRead8 pa

/-- One byte stored at a virtual address (20_memory.md R61). -/
def State.writeByte (s : State) (va : Nat) (b : Byte) : Except Fault State :=
  match s.translate va with
  | .error f => .error f
  | .ok pa => s.physWrite8 pa b

/-- `n` bytes at ascending virtual addresses, each translated on its own (20_memory.md R60). -/
def readBytes : Nat → Nat → State → Except Fault (List Byte × State)
  | 0, _, s => .ok ([], s)
  | n + 1, va, s =>
    match s.readByte va with
    | .error f => .error f
    | .ok (b, s1) =>
      match readBytes n (va + 1) s1 with
      | .error f => .error f
      | .ok (bs, s2) => .ok (b :: bs, s2)

/-- Bytes stored at ascending virtual addresses, each translated on its own (20_memory.md R61). -/
def writeBytes : List Byte → Nat → State → Except Fault State
  | [], _, s => .ok s
  | b :: bs, va, s =>
    match s.writeByte va b with
    | .error f => .error f
    | .ok s1 => writeBytes bs (va + 1) s1

/-- `MemRead(va, n)`, little-endian, zero-extended (20_memory.md R55, R60, 41_load_store.md R164). -/
def State.memRead (s : State) (va n : Nat) : Except Fault (Word × State) :=
  match readBytes n va s with
  | .error f => .error f
  | .ok (bs, s') => .ok (wordOfBytes bs, s')

/-- `MemWrite(va, n, v)`: the low `n` bytes of `v`, little-endian (20_memory.md R61). -/
def State.memWrite (s : State) (va n : Nat) (v : Word) : Except Fault State :=
  writeBytes (bytesOfWord n v) va s

/-- An outcome from a result that may have raised a fault: the fault ends the step (60_exceptions.md R271). -/
def finish : Except Fault State → Result
  | .ok s => .next s
  | .error f => .fault f

/-! ### Fetch -/

/-- The PC advanced by WORD, wrapping as any register write (10_state.md R25, R26). -/
def State.advancePc (s : State) : State := s.setPc (s.pc + BitVec.ofNat 32 Config.wordSize)

/-- The byte addresses end here: "the bytes at 2^32 and above do not exist" for a fetch (10_state.md R26, D38). -/
def addressLimit : Nat := 2 ^ 32

/-- The fault of a fetch that reaches the byte address 2^32: what that address's translation raises, and AddressError
where a mapping covers it (10_state.md R26, D38). Log entry 22. -/
def State.fetchPastTop (s : State) : Fault :=
  match s.translate addressLimit with
  | .error f => f
  | .ok _ => .addressError addressLimit

/-- The instruction word at `pc`: `MemRead(pc, 4)` where its four byte addresses exist (20_memory.md R64). Above
0xFFFFFFFC the bytes below 2^32 are read and may fault, and then the fetch faults (10_state.md R26). -/
def State.fetchWord (s : State) : Except Fault (Word × State) :=
  if s.pc.toNat + Config.wordSize ≤ addressLimit then s.memRead s.pc.toNat Config.wordSize
  else
    match s.memRead s.pc.toNat (addressLimit - s.pc.toNat) with
    | .error f => .error f
    | .ok (_, s') => .error s'.fetchPastTop

/-- Loop phase 2: the word at `pc`, then `pc <- pc + WORD`; when the fetch faults `pc` is not advanced
(40_fetch_dispatch.md R132, 20_memory.md R64). -/
def State.fetch (s : State) : Except Fault (Word × State) :=
  match s.fetchWord with
  | .error f => .error f
  | .ok (w, s') => .ok (w, s'.advancePc)

/-! ### Interrupts: raise, entry, return -/

/-- `raiseInterrupt(n)`, the external agent's one action, between two core steps: ignored while disabled, else it
disables further raises and queues the number (60_exceptions.md R282). Log entry 9. -/
def State.raiseInterrupt (s : State) (n : Nat) : State :=
  if s.ivEnabled then { s with ivEnabled := false, ivQueue := s.ivQueue ++ [n] } else s

/-- The address of slot `n`: `IV.base + n * WORD` mod 2^32, computed, not read from memory (60_exceptions.md
R284, 46_interrupt_config.md R245). -/
def State.handlerAddress (s : State) (n : Nat) : Word := s.ivBase + BitVec.ofNat 32 (n * Config.wordSize)

/-- TAKING AN INTERRUPT: the return register saves `pc`, `pc` becomes the slot's address, and nothing else
changes; `IV.enabled` was cleared by the raise already (60_exceptions.md R285). -/
def State.enterInterrupt (s : State) (n : Nat) : State := (s.setRet s.pc).setPc (s.handlerAddress n)

/-- RETURNING: `pc <- x[REG_RET]`, `IV.enabled <- 1`, nothing else restored (60_exceptions.md R287,
46_interrupt_config.md R243). -/
def State.returnFromInterrupt (s : State) : State := { s.setPc s.ret with ivEnabled := true }

/-- Loop phase 1, `Drain()`: the front of the queue, if there is one, is taken, whatever `IV.enabled` is; a number
at or beyond IV_SLOTS faults (60_exceptions.md R285, 40_fetch_dispatch.md R131). -/
def State.drain (s : State) : Except Fault State :=
  match s.ivQueue with
  | [] => .ok s
  | n :: rest =>
    if s.params.ivSlots ≤ n then .error (.badInterruptNumber n)
    else .ok ({ s with ivQueue := rest }.enterInterrupt n)

end Sys2Proof.Machine
end

