-- ==== Sys2Proof/Machine/Operands.lean ====
section
/-! DEFINITION. Resolving the operands of an instruction against the register file (30_encoding.md R105,
41_load_store.md R163, 43_arithmetic.md R180, 44_bitwise.md R200, 48_stack.md R260). -/
namespace Sys2Proof.Machine

/-- `val(s)`: the named register, or 0 when absent (30_encoding.md R105). -/
def State.val (s : State) : Sel → Word
  | none => 0
  | some r => s.reg r

/-- `acc(s)`: the named register, or the accumulator when absent (30_encoding.md R105). -/
def State.acc (s : State) : Sel → Word
  | none => s.accumulator
  | some r => s.reg r

/-- `tgt(s)`: the named register, or the accumulator's index when absent (30_encoding.md R105, D5). -/
def tgt : Sel → RegIdx
  | none => Config.regAcc
  | some r => r

/-- The immediate byte as a word: `zext_32` (00_scope.md R9). Also the 24-bit immediate (30_encoding.md R102). -/
def immWord (imm : Nat) : Word := BitVec.ofNat 32 imm

/-- Absolute addressing: `ea = imm24` (41_load_store.md R163). -/
def absoluteEa (imm24 : Nat) : Nat := imm24

/-- Indexed addressing: `ea = val(sx) + ib`, a natural number, not wrapped (41_load_store.md R163, 20_memory.md R62). -/
def State.indexedEa (s : State) (rx : Sel) (ib : Nat) : Nat := (s.val rx).toNat + ib

/-- The second operand of SHL, SHR, AND, OR, XOR: the immediate byte; `ry` is only a destination (44_bitwise.md
R200, D14). Log entry 13. -/
def bitwiseOperand (ib : Nat) : Nat := ib

/-- The destination of the two-operand bitwise instructions: "target is ry if present else rx" (44_bitwise.md R201). -/
def bitwiseTgt (rx : Sel) : Sel → RegIdx
  | none => tgt rx
  | some r => r

/-- The pointer register of PUSH and POP: `rx`, or REG_SP when absent (48_stack.md R260). -/
def State.stackPtr (s : State) : Sel → RegIdx
  | none => s.params.regSp
  | some r => r

end Sys2Proof.Machine
end

