-- ==== Sys2Proof/Machine/Arith.lean ====
section
/-! DEFINITION. The arithmetic instructions (43_arithmetic.md R180, R186 to R190). -/
namespace Sys2Proof.Machine

/-- `x[tgt(sx)] <- trunc32(op(val(sx), val(sy), ib))`, the three sources read first (43_arithmetic.md R180, R181,
D45). A faulting operation does not write the destination. Log entry 13. -/
def State.arithInto (s : State) (op : Nat → Nat → Nat → Except Fault Int) (rx ry : Sel) (ib : Nat) :
    Except Fault State :=
  match op (s.val rx).toNat (s.val ry).toNat ib with
  | .error f => .error f
  | .ok v => .ok (s.setReg (tgt rx) (trunc32 v))

/-- ADD (43_arithmetic.md R186). -/
def execAdd (rx ry : Sel) (ib : Nat) (s : State) : Result :=
  finish (s.arithInto (fun a b c => .ok (aluAdd a b c)) rx ry ib)

/-- SUB (43_arithmetic.md R187). -/
def execSub (rx ry : Sel) (ib : Nat) (s : State) : Result :=
  finish (s.arithInto (fun a b c => .ok (aluSub a b c)) rx ry ib)

/-- MUL (43_arithmetic.md R188). -/
def execMul (rx ry : Sel) (ib : Nat) (s : State) : Result :=
  finish (s.arithInto (fun a b c => .ok (aluMul a b c)) rx ry ib)

/-- DIV (43_arithmetic.md R189). -/
def execDiv (rx ry : Sel) (ib : Nat) (s : State) : Result := finish (s.arithInto aluDiv rx ry ib)

/-- MOD (43_arithmetic.md R190). -/
def execMod (rx ry : Sel) (ib : Nat) (s : State) : Result := finish (s.arithInto aluMod rx ry ib)

end Sys2Proof.Machine
end

