-- ==== Sys2Proof/Machine/Bitwise.lean ====
section
/-! DEFINITION. Bitwise and shift instructions (44_bitwise.md R200 to R208). -/
namespace Sys2Proof.Machine

/-- `x[d] <- trunc32(op(val(sx), b))`, `d` being `ry` if present else `rx`; `val(sy)` is never read (44_bitwise.md R201). -/
def State.bitwiseInto (s : State) (op : Word → Nat → Word) (rx ry : Sel) (ib : Nat) : State :=
  s.setReg (bitwiseTgt rx ry) (op (s.val rx) (bitwiseOperand ib))

/-- SHL (44_bitwise.md R202). -/
def execShl (rx ry : Sel) (ib : Nat) (s : State) : Result := .next (s.bitwiseInto aluShl rx ry ib)

/-- SHR (44_bitwise.md R203). -/
def execShr (rx ry : Sel) (ib : Nat) (s : State) : Result := .next (s.bitwiseInto aluShr rx ry ib)

/-- AND (44_bitwise.md R204). -/
def execAnd (rx ry : Sel) (ib : Nat) (s : State) : Result := .next (s.bitwiseInto aluAnd rx ry ib)

/-- OR (44_bitwise.md R205). -/
def execOr (rx ry : Sel) (ib : Nat) (s : State) : Result := .next (s.bitwiseInto aluOr rx ry ib)

/-- XOR (44_bitwise.md R206). -/
def execXor (rx ry : Sel) (ib : Nat) (s : State) : Result := .next (s.bitwiseInto aluXor rx ry ib)

/-- NOT: reads and writes `rx` alone (44_bitwise.md R207, D15). -/
def execNot (rx : Sel) (s : State) : Result := .next (s.setReg (tgt rx) (aluNot (s.val rx)))

end Sys2Proof.Machine
end

