-- ==== Sys2Proof/Machine/Flags.lean ====
section
/-! DEFINITION. The ISA has no status flags (10_state.md section 4); these are the tests that stand in their
place: branch conditions on register values (45_branch.md R215) and the bits an immediate or operand is
inspected for (46_interrupt_config.md R240, 47_mmu_config.md R250). -/
namespace Sys2Proof.Machine

/-- A tested register value against zero (45_branch.md R218 to R221, R224). -/
def isZero (v : Word) : Bool := v == 0

/-- Equality of two register values (45_branch.md R222, R223, R232). -/
def sameValue (v w : Word) : Bool := v == w

/-- INTVEC's flag bits `f = val(sy) | ib`; bit 0 controls enabled, bits 31:1 are ignored (46_interrupt_config.md R240). -/
def intvecEnables (flags : Word) (ib : Nat) : Bool := (flags ||| immWord ib).getLsbD 0

/-- MMUCFG "imm bit0 enables" (47_mmu_config.md R250). -/
def enablesPaging (ib : Nat) : Bool := ib.testBit 0

/-- MMUCFG "bit1 disables paging" (47_mmu_config.md R250). -/
def disablesPaging (ib : Nat) : Bool := ib.testBit 1

end Sys2Proof.Machine
end

