-- ==== Sys2Proof/Machine/Branch.lean ====
section
/-! DEFINITION. Branches, subroutine call and return (45_branch.md R215 to R228). `pc` already holds the
advanced PC when a meaning runs (R215). -/
namespace Sys2Proof.Machine

/-- A branch writes `pc` when its condition holds, else leaves the advanced PC (45_branch.md R215). -/
def State.branchIf (s : State) (c : Bool) (target : Word) : State := if c then s.setPc target else s

/-- The link value `pc + LINK_OFFSET`, from the advanced PC (45_branch.md R228, D18). Log entry 12. -/
def State.linkValue (s : State) : Word := s.pc + BitVec.ofNat 32 s.params.linkOffset

/-- A subroutine call: the link is written, then `pc` (45_branch.md R225, R226). -/
def State.callTo (s : State) (target : Word) : State := (s.setRet s.linkValue).setPc target

/-- Bi (45_branch.md R216). -/
def execBi (imm24 : Nat) (s : State) : Result := .next (s.setPc (immWord imm24))

/-- B (45_branch.md R217). -/
def execB (rx : Sel) (s : State) : Result := .next (s.setPc (s.val rx))

/-- BZi (45_branch.md R218). -/
def execBzi (imm24 : Nat) (s : State) : Result := .next (s.branchIf (isZero s.accumulator) (immWord imm24))

/-- BNZi (45_branch.md R219). -/
def execBnzi (imm24 : Nat) (s : State) : Result := .next (s.branchIf (!isZero s.accumulator) (immWord imm24))

/-- BZ: tests `ry` or the accumulator (45_branch.md R220). -/
def execBz (rx ry : Sel) (s : State) : Result := .next (s.branchIf (isZero (s.acc ry)) (s.val rx))

/-- BNZ: tests `ry` or the accumulator (45_branch.md R221). -/
def execBnz (rx ry : Sel) (s : State) : Result := .next (s.branchIf (!isZero (s.acc ry)) (s.val rx))

/-- BEQ: relative to the advanced PC (45_branch.md R222, D43). -/
def execBeq (rx ry : Sel) (ib : Nat) (s : State) : Result :=
  .next (s.branchIf (sameValue (s.val rx) (s.val ry)) (s.pc + immWord ib))

/-- BNE: relative to the advanced PC (45_branch.md R223). -/
def execBne (rx ry : Sel) (ib : Nat) (s : State) : Result :=
  .next (s.branchIf (!sameValue (s.val rx) (s.val ry)) (s.pc + immWord ib))

/-- BRZ: an absent `ry` reads 0, so the branch is then always taken (45_branch.md R224, D6). -/
def execBrz (rx ry : Sel) (ib : Nat) (s : State) : Result :=
  .next (s.branchIf (isZero (s.val ry)) (s.val rx + immWord ib))

/-- BSRi (45_branch.md R225). -/
def execBsri (imm24 : Nat) (s : State) : Result := .next (s.callTo (immWord imm24))

/-- BSR: the target is read before the link is written (45_branch.md R226). -/
def execBsr (rx : Sel) (s : State) : Result := .next (s.callTo (s.val rx))

/-- RTS: `pc <- x[REG_RET]` (45_branch.md R227). -/
def execRts (s : State) : Result := .next (s.setPc s.ret)

end Sys2Proof.Machine
end

