-- ==== Sys2Proof/Machine/Control.lean ====
section
/-! DEFINITION. The instructions of loop phase 4: STOP (40_fetch_dispatch.md R138) and IRET (46_interrupt_config.md R243). -/
namespace Sys2Proof.Machine

/-- STOP: `run <- halted`; pending interrupts stay queued (40_fetch_dispatch.md R138, D42). -/
def execStop (s : State) : Result := .next { s with run := .halted }

/-- IRET: `pc <- x[REG_RET]`, `IV.enabled <- 1` (46_interrupt_config.md R243). -/
def execIret (s : State) : Result := .next s.returnFromInterrupt

end Sys2Proof.Machine
end

