-- ==== Sys2Proof/Machine/Interrupt.lean ====
section
/-! DEFINITION. Interrupt-vector configuration (46_interrupt_config.md R240 to R242). -/
namespace Sys2Proof.Machine

/-- INTVEC: base from `rx`, enabled from bit 0 of `val(sy) | ib`; the queue is not changed (46_interrupt_config.md R240, D20). -/
def execIntvec (rx ry : Sel) (ib : Nat) (s : State) : Result :=
  .next { s with ivBase := s.val rx, ivEnabled := intvecEnables (s.val ry) ib }

/-- SETI (46_interrupt_config.md R241). -/
def execSeti (s : State) : Result := .next { s with ivEnabled := true }

/-- CLRI (46_interrupt_config.md R242). -/
def execClri (s : State) : Result := .next { s with ivEnabled := false }

end Sys2Proof.Machine
end

