-- ==== Sys2Proof/Machine/LoadStore.lean ====
section
/-! DEFINITION. The twelve load and store instructions (41_load_store.md R150 to R164). -/
namespace Sys2Proof.Machine

/-- `x[d] <- MemRead(ea, n)`; a faulting load does not write its register (41_load_store.md R164). -/
def State.loadInto (s : State) (d : RegIdx) (ea n : Nat) : Except Fault State :=
  match s.memRead ea n with
  | .error f => .error f
  | .ok (v, s') => .ok (s'.setReg d v)

/-- LOAD8i (41_load_store.md R151). -/
def execLoad8i (imm24 : Nat) (s : State) : Result := finish (s.loadInto Config.regAcc (absoluteEa imm24) 1)

/-- LOAD16i (41_load_store.md R152). -/
def execLoad16i (imm24 : Nat) (s : State) : Result := finish (s.loadInto Config.regAcc (absoluteEa imm24) 2)

/-- LOADi (41_load_store.md R153). -/
def execLoadi (imm24 : Nat) (s : State) : Result := finish (s.loadInto Config.regAcc (absoluteEa imm24) 4)

/-- STORE8i (41_load_store.md R154). -/
def execStore8i (imm24 : Nat) (s : State) : Result := finish (s.memWrite (absoluteEa imm24) 1 s.accumulator)

/-- STORE16i (41_load_store.md R155). -/
def execStore16i (imm24 : Nat) (s : State) : Result := finish (s.memWrite (absoluteEa imm24) 2 s.accumulator)

/-- STOREi (41_load_store.md R156). -/
def execStorei (imm24 : Nat) (s : State) : Result := finish (s.memWrite (absoluteEa imm24) 4 s.accumulator)

/-- LOAD8 (41_load_store.md R157). -/
def execLoad8 (rx ry : Sel) (ib : Nat) (s : State) : Result := finish (s.loadInto (tgt ry) (s.indexedEa rx ib) 1)

/-- LOAD16 (41_load_store.md R158). -/
def execLoad16 (rx ry : Sel) (ib : Nat) (s : State) : Result := finish (s.loadInto (tgt ry) (s.indexedEa rx ib) 2)

/-- LOAD (41_load_store.md R159). -/
def execLoad (rx ry : Sel) (ib : Nat) (s : State) : Result := finish (s.loadInto (tgt ry) (s.indexedEa rx ib) 4)

/-- STORE8 (41_load_store.md R160). -/
def execStore8 (rx ry : Sel) (ib : Nat) (s : State) : Result := finish (s.memWrite (s.indexedEa rx ib) 1 (s.acc ry))

/-- STORE16 (41_load_store.md R161). -/
def execStore16 (rx ry : Sel) (ib : Nat) (s : State) : Result := finish (s.memWrite (s.indexedEa rx ib) 2 (s.acc ry))

/-- STORE (41_load_store.md R162). -/
def execStore (rx ry : Sel) (ib : Nat) (s : State) : Result := finish (s.memWrite (s.indexedEa rx ib) 4 (s.acc ry))

end Sys2Proof.Machine
end

