-- ==== Sys2Proof/Machine/Mmu.lean ====
section
/-! DEFINITION. The page table: its entries and how MMUCFG flattens it into `MMU.table` (20_memory.md R70 to R74). -/
namespace Sys2Proof.Machine

/-- Bit 0, SUB: the entry points to a nested table (20_memory.md R70). -/
def isSubtable (e : Word) : Bool := e.getLsbD 0

/-- Bit 8, P: the entry is present (20_memory.md R70). -/
def isPresent (e : Word) : Bool := e.getLsbD 8

/-- Bits 5:4, SC: the size class (20_memory.md R70). -/
def sizeClass (e : Word) : BitVec 2 := e.extractLsb' 4 2

/-- ADDR: `e & 0xFFFFF000` (20_memory.md R70, D26). -/
def entryAddr (e : Word) : Word := e &&& 0xFFFFF000

/-- `leafsize(SC)`: 4 KB, 64 KB, 1 MB, 64 MB (20_memory.md R71, D27). -/
def leafSize (sc : BitVec 2) : Nat :=
  match sc.toNat with
  | 0 => 4096
  | 1 => 65536
  | 2 => 1048576
  | _ => 67108864

/-- `subsize(SC) = leafsize(SC) * 1024` (20_memory.md R71). -/
def subSize (sc : BitVec 2) : Nat := leafSize sc * 1024

/-- How many entries a nested table has: `subsize(SC) / 4` (20_memory.md R72, D28). Log entry 13. -/
def subCount (sc : BitVec 2) : Nat := subSize sc / 4

/-- The 32-bit little-endian word of backing storage at a physical address: no translation, no device (20_memory.md R74). -/
def tableWord (m : Memory) (pa : Nat) : Word :=
  wordOfBytes [m.read pa, m.read (pa + 1), m.read (pa + 2), m.read (pa + 3)]

/-- `TableRead32(pa)` (20_memory.md R74). -/
def tableRead32 (memSize : Nat) (m : Memory) (pa : Nat) : Except Fault Word :=
  if memSize ≤ pa + 3 then .error (.addressError pa) else .ok (tableWord m pa)

/-- What the walk has built so far: the list and the running sum of leaf sizes (20_memory.md R72, R73). -/
structure Walk where
  table : List Mapping
  sum : Nat
deriving DecidableEq, Repr, Inhabited

/-- Appending a present leaf: its physical base is the running sum, which then grows by its size (20_memory.md R72, R73). -/
def Walk.addLeaf (w : Walk) (e : Word) : Walk :=
  { table := w.table ++ [{ vaddr := entryAddr e, flags := e.setWidth 9, size := leafSize (sizeClass e), pbase := w.sum }]
    sum := w.sum + leafSize (sizeClass e) }

/-- RULE R72 WORD FOR WORD, for a table whose expansion ends without a fault: `Expands memSize m pos count w w'` says that
`Expand(pos, count)` takes the walk from `w` to `w'`. The function `expandTable` below is what MMUCFG runs. -/
inductive Expands (memSize : Nat) (m : Memory) : Nat → Nat → Walk → Walk → Prop where
  /-- No entry left. -/
  | done (pos : Nat) (w : Walk) : Expands memSize m pos 0 w w
  /-- `e[8] = 0`: not present, dropped. -/
  | absent (pos count : Nat) (e : Word) (w w' : Walk) : tableRead32 memSize m pos = .ok e → isPresent e = false →
      Expands memSize m (pos + 4) count w w' → Expands memSize m pos (count + 1) w w'
  /-- A present leaf: appended. -/
  | leaf (pos count : Nat) (e : Word) (w w' : Walk) : tableRead32 memSize m pos = .ok e → isPresent e = true →
      isSubtable e = false → Expands memSize m (pos + 4) count (w.addLeaf e) w' → Expands memSize m pos (count + 1) w w'
  /-- A present subtable: expanded in place, depth first. -/
  | subtable (pos count : Nat) (e : Word) (w w1 w' : Walk) : tableRead32 memSize m pos = .ok e → isPresent e = true →
      isSubtable e = true → Expands memSize m (entryAddr e).toNat (subCount (sizeClass e)) w w1 →
      Expands memSize m (pos + 4) count w1 w' → Expands memSize m pos (count + 1) w w'

/-- The present entries of the `n`-entry table at `pos`, ascending. An entry's present bit is bit 0 of its second
byte, and only a listed cell can be other than zero, so the listed cells are scanned instead of all `n` entries. On a
memory in canonical form this is the loop of R72 (log entry 8). -/
def presentEntries (m : Memory) (pos n : Nat) : List Word :=
  m.filterMap fun c =>
    if pos < c.1 ∧ c.1 < pos + 4 * n ∧ (c.1 - pos) % 4 = 1 ∧ c.2.getLsbD 0 = true then some (tableWord m (c.1 - 1))
    else none

/-- How many entries of the table lie wholly inside memory before the first that does not (20_memory.md R74). -/
def readableEntries (memSize pos count : Nat) : Nat := min count ((memSize - pos) / 4)

/-- A nested table is determined by its entry's page number and size class (20_memory.md R70, R72). -/
abbrev TableKey := BitVec 20 × BitVec 2

/-- The nested table a subtable entry names. -/
def tableKey (e : Word) : TableKey := (e.extractLsb' 12 20, sizeClass e)

/-- Present entries in order: a leaf is appended, a subtable is expanded in place by `sub` (20_memory.md R72). -/
def walkEntries (sub : Word → Walk → Except Fault Walk) : List Word → Walk → Except Fault Walk
  | [], w => .ok w
  | e :: es, w =>
    if isSubtable e then
      match sub e w with
      | .error f => .error f
      | .ok w' => walkEntries sub es w'
    else walkEntries sub es (w.addLeaf e)

/-- `Expand(pos, count)` (20_memory.md R72). `path` holds the nested tables being expanded now: one of them met again
never finishes (R72, D40), since the walk depends on memory alone. `fuel` bounds the nesting depth for Lean; there
are 2^22 keys, so `tableDepth` is never used up before a key repeats. After the entries inside memory, the first
entry beyond it raises AddressError (R74). -/
def expandTable (memSize : Nat) (m : Memory) : Nat → List TableKey → Nat → Nat → Walk → Except Fault Walk
  | 0, _, _, _, _ => .error .tableNeverEnds
  | fuel + 1, path, pos, count, w =>
    let n := readableEntries memSize pos count
    let expandSub := fun (e : Word) (v : Walk) =>
      if path.contains (tableKey e) then .error .tableNeverEnds
      else expandTable memSize m fuel (tableKey e :: path) (entryAddr e).toNat (subCount (sizeClass e)) v
    match walkEntries expandSub (presentEntries m pos n) w with
    | .error f => .error f
    | .ok w' => if n < count then .error (.addressError (pos + 4 * n)) else .ok w'

/-- One more than the number of nested tables there can be. -/
def tableDepth : Nat := 2 ^ 22 + 1

/-- `MMUInit(tablePos, tableCount)`: the old table is discarded, the running sum restarts at 0 (20_memory.md R72, R73). -/
def State.mmuInit (s : State) (tablePos tableCount : Nat) : Except Fault State :=
  match expandTable s.params.memSize s.mem tableDepth [] tablePos tableCount { table := [], sum := 0 } with
  | .error f => .error f
  | .ok w => .ok { s with mmuTable := w.table }

end Sys2Proof.Machine
end

