-- ==== Sys2Proof/Machine/MmuConfig.lean ====
section
/-! DEFINITION. MMUCFG (47_mmu_config.md R250, R251). -/
namespace Sys2Proof.Machine

/-- The initialize, performed exactly when `rx` is present: table address `val(sx)`, count `val(sy)` (47_mmu_config.md R250, D25). -/
def State.initializeMmu (s : State) (rx ry : Sel) : Except Fault State :=
  match rx with
  | none => .ok s
  | some _ => s.mmuInit (s.val rx).toNat (s.val ry).toNat

/-- The enable, and after it the disable (47_mmu_config.md R250, R251(a)). -/
def State.switchPaging (s : State) (ib : Nat) : State :=
  let enabled := if enablesPaging ib then true else s.mmuEnabled
  { s with mmuEnabled := if disablesPaging ib then false else enabled }

/-- MMUCFG: initialize, then enable, then disable (47_mmu_config.md R250). -/
def execMmucfg (rx ry : Sel) (ib : Nat) (s : State) : Result :=
  match s.initializeMmu rx ry with
  | .error f => .fault f
  | .ok s' => .next (s'.switchPaging ib)

end Sys2Proof.Machine
end

