-- ==== Sys2Proof/Machine/Move.lean ====
section
/-! DEFINITION. Move and swap (42_move_swap.md R170 to R174). -/
namespace Sys2Proof.Machine

/-- MOV: `x[tgt(sx)] <- val(sy) + ib` (42_move_swap.md R171). -/
def execMov (rx ry : Sel) (ib : Nat) (s : State) : Result := .next (s.setReg (tgt rx) (s.val ry + immWord ib))

/-- MOVi: `x[0] <- imm24` (42_move_swap.md R172). -/
def execMovi (imm24 : Nat) (s : State) : Result := .next (s.setAccumulator (immWord imm24))

/-- SWAP: both sources read first, `rx` written, then `ry` (42_move_swap.md R173, D17). -/
def execSwap (rx ry : Sel) (ib : Nat) (s : State) : Result :=
  .next ((s.setReg (tgt rx) (s.val ry + immWord ib)).setReg (tgt ry) (s.val rx + immWord ib))

end Sys2Proof.Machine
end

