-- ==== Sys2Proof/Machine/Stack.lean ====
section
/-! DEFINITION. PUSH and POP, a full-descending stack (48_stack.md R260 to R263). -/
namespace Sys2Proof.Machine

/-- WORD as a word. -/
def wordStep : Word := BitVec.ofNat 32 Config.wordSize

/-- The push check on mathematical integers: `x[p] - WORD < STACK_BASE - STACK_SIZE` overflows (48_stack.md R263). -/
def pushOverflows (bound : Option (Nat × Nat)) (pointer : Word) : Bool :=
  match bound with
  | none => false
  | some (base, size) => (pointer.toNat : Int) - Config.wordSize < (base : Int) - size

/-- The pop check: `x[p] >= STACK_BASE` underflows (48_stack.md R263). -/
def popUnderflows (bound : Option (Nat × Nat)) (pointer : Word) : Bool :=
  match bound with
  | none => false
  | some (base, _) => base ≤ pointer.toNat

/-- The pointer register after a push's decrement, mod 2^32 (48_stack.md R261). -/
def State.decrementPtr (s : State) (p : RegIdx) : State := s.setReg p (s.reg p - wordStep)

/-- `push(v)` on pointer register `p`: check, decrement, store at the new pointer (48_stack.md R261). -/
def State.pushWord (s : State) (p : RegIdx) (v : Word) : Except Fault State :=
  if pushOverflows s.params.stackBound (s.reg p) then .error .stackOverflow
  else (s.decrementPtr p).memWrite ((s.decrementPtr p).reg p).toNat Config.wordSize v

/-- `pop()` on pointer register `p` into register `d`: check, load, increment, and last the value (48_stack.md R262). -/
def State.popWord (s : State) (p d : RegIdx) : Except Fault State :=
  if popUnderflows s.params.stackBound (s.reg p) then .error .stackUnderflow
  else
    match s.memRead (s.reg p).toNat Config.wordSize with
    | .error f => .error f
    | .ok (v, s') => .ok ((s'.setReg p (s.reg p + wordStep)).setReg d v)

/-- PUSH: the value is read before the pointer moves (48_stack.md R261, D31). -/
def execPush (rx ry : Sel) (s : State) : Result := finish (s.pushWord (s.stackPtr rx) (s.acc ry))

/-- POP (48_stack.md R262, D31). -/
def execPop (rx ry : Sel) (s : State) : Result := finish (s.popWord (s.stackPtr rx) (tgt ry))

end Sys2Proof.Machine
end

