-- ==== Sys2Proof/Machine/Dispatch.lean ====
section
/-! DEFINITION. One instruction: one arm per constructor of Instr, each a direct call of its meaning
(40_fetch_dispatch.md R130 phases 4 and 5, R135; 30_encoding.md R109). -/
namespace Sys2Proof.Machine

/-- Executing one decoded instruction; `pc` already holds the advanced PC (40_fetch_dispatch.md R132, R135). -/
def exec (i : Instr) (s : State) : Host.Outcome State Fault Refusal :=
  match i with
  | .stop => Sys2Proof.Machine.execStop s
  | .iret => Sys2Proof.Machine.execIret s
  | .load8i imm24 => Sys2Proof.Machine.execLoad8i imm24 s
  | .load16i imm24 => Sys2Proof.Machine.execLoad16i imm24 s
  | .loadi imm24 => Sys2Proof.Machine.execLoadi imm24 s
  | .store8i imm24 => Sys2Proof.Machine.execStore8i imm24 s
  | .store16i imm24 => Sys2Proof.Machine.execStore16i imm24 s
  | .storei imm24 => Sys2Proof.Machine.execStorei imm24 s
  | .load8 rx ry ib => Sys2Proof.Machine.execLoad8 rx ry ib s
  | .load16 rx ry ib => Sys2Proof.Machine.execLoad16 rx ry ib s
  | .load rx ry ib => Sys2Proof.Machine.execLoad rx ry ib s
  | .store8 rx ry ib => Sys2Proof.Machine.execStore8 rx ry ib s
  | .store16 rx ry ib => Sys2Proof.Machine.execStore16 rx ry ib s
  | .store rx ry ib => Sys2Proof.Machine.execStore rx ry ib s
  | .mov rx ry ib => Sys2Proof.Machine.execMov rx ry ib s
  | .movi imm24 => Sys2Proof.Machine.execMovi imm24 s
  | .swap rx ry ib => Sys2Proof.Machine.execSwap rx ry ib s
  | .add rx ry ib => Sys2Proof.Machine.execAdd rx ry ib s
  | .sub rx ry ib => Sys2Proof.Machine.execSub rx ry ib s
  | .mul rx ry ib => Sys2Proof.Machine.execMul rx ry ib s
  | .div rx ry ib => Sys2Proof.Machine.execDiv rx ry ib s
  | .mod rx ry ib => Sys2Proof.Machine.execMod rx ry ib s
  | .shl rx ry ib => Sys2Proof.Machine.execShl rx ry ib s
  | .shr rx ry ib => Sys2Proof.Machine.execShr rx ry ib s
  | .and rx ry ib => Sys2Proof.Machine.execAnd rx ry ib s
  | .or rx ry ib => Sys2Proof.Machine.execOr rx ry ib s
  | .xor rx ry ib => Sys2Proof.Machine.execXor rx ry ib s
  | .not rx => Sys2Proof.Machine.execNot rx s
  | .bi imm24 => Sys2Proof.Machine.execBi imm24 s
  | .b rx => Sys2Proof.Machine.execB rx s
  | .bzi imm24 => Sys2Proof.Machine.execBzi imm24 s
  | .bnzi imm24 => Sys2Proof.Machine.execBnzi imm24 s
  | .bz rx ry => Sys2Proof.Machine.execBz rx ry s
  | .bnz rx ry => Sys2Proof.Machine.execBnz rx ry s
  | .beq rx ry ib => Sys2Proof.Machine.execBeq rx ry ib s
  | .bne rx ry ib => Sys2Proof.Machine.execBne rx ry ib s
  | .brz rx ry ib => Sys2Proof.Machine.execBrz rx ry ib s
  | .bsri imm24 => Sys2Proof.Machine.execBsri imm24 s
  | .bsr rx => Sys2Proof.Machine.execBsr rx s
  | .rts => Sys2Proof.Machine.execRts s
  | .intvec rx ry ib => Sys2Proof.Machine.execIntvec rx ry ib s
  | .seti => Sys2Proof.Machine.execSeti s
  | .clri => Sys2Proof.Machine.execClri s
  | .mmucfg rx ry ib => Sys2Proof.Machine.execMmucfg rx ry ib s
  | .push rx ry => Sys2Proof.Machine.execPush rx ry s
  | .pop rx ry => Sys2Proof.Machine.execPop rx ry s

end Sys2Proof.Machine
end

