-- ==== Sys2Proof/Machine/Cycle.lean ====
section
/-! DEFINITION. One iteration of the main loop, and placing an instruction where it fetches (40_fetch_dispatch.md R130
to R137; log entries 6 and 14). -/
namespace Sys2Proof.Machine

/-- Loop phases 3 to 6: the fetched word is decoded under the machine's opcode map and executed, an unclaimed
opcode byte faults
(40_fetch_dispatch.md R130, R133 to R135, 30_encoding.md R110). -/
def decodeExecute (w : Word) (s : State) : Result :=
  match decodeWord s.params.opcodes w with
  | .ok i => exec i s
  | .error _ => .fault (.illegalInstruction (opcodeField w))

/-- Loop phases 2 to 6 (40_fetch_dispatch.md R130). -/
def fetchDecodeExecute (s : State) : Result :=
  match s.fetch with
  | .error f => .fault f
  | .ok (w, s') => decodeExecute w s'

/-- One iteration, taken while `run` is running (40_fetch_dispatch.md R130): drain, fetch, decode, execute. `halted` and
`faulted` are absorbing (10_state.md R34): a halted machine stays as it is, a faulted one still reports its fault
(log entry 6). -/
def cycle (s : State) : Result :=
  match s.run with
  | .halted => .next s
  | .faulted f => .fault f
  | .running =>
    match s.drain with
    | .error f => .fault f
    | .ok s1 => fetchDecodeExecute s1

/-- The address at which the next iteration fetches: `pc`, or the handler's address when an interrupt is drained first
(40_fetch_dispatch.md R130, R131). -/
def State.fetchAddress (s : State) : Nat :=
  match s.drain with
  | .ok s1 => s1.pc.toNat
  | .error _ => s.pc.toNat

/-- A byte placed in backing storage where the virtual address leads; nothing where no storage stands there. -/
def State.placeByte (s : State) (va : Nat) (b : Byte) : State :=
  match s.translate va with
  | .error _ => s
  | .ok pa => if s.params.memSize ≤ pa then s else if s.isSpecial pa then s else s.setMem (s.mem.write pa b)

/-- Bytes placed at ascending addresses. -/
def placeBytes : List Byte → Nat → State → State
  | [], _, s => s
  | b :: bs, va, s => placeBytes bs (va + 1) (s.placeByte va b)

/-- `s`, running, with the instruction of `nbits` bits `w` placed where the next iteration fetches (log entry 14). -/
def State.placeInstruction (s : State) (nbits w : Nat) : State :=
  placeBytes (bytesOfWord Config.wordSize (BitVec.ofNat 32 (w % 2 ^ nbits))) s.fetchAddress { s with run := .running }

end Sys2Proof.Machine
end

