-- ==== Sys2Proof/Machine/Step.lean ====
section
/-! DEFINITION. One step of the core: one iteration of the main loop (40_fetch_dispatch.md R130). -/
namespace Sys2Proof.Machine

/-- One step of the core (40_fetch_dispatch.md R130). -/
def step (s : State) : Host.Outcome State Fault Refusal := cycle s

/-- `s` with an instruction of `nbits` bits `w` stored where `step` fetches its next instruction, and running
(log entry 14). -/
def State.withFetchWord (s : State) (nbits w : Nat) : State := s.placeInstruction nbits w

end Sys2Proof.Machine
end

