-- ==== Sys2Proof/Machine/Agents.lean ====
section
/-! DEFINITION. The agents around the core step: what a fault leaves, the interrupt source between steps, the host's
reset and its view of the registers (00_scope.md R6, R7, 60_exceptions.md R271, R282, 70_reset_and_hazards.md R320). -/
namespace Sys2Proof

/-- FREE VALUE: the state after a fault but for `run`: "a model must treat the post-fault state as unspecified"
(60_exceptions.md R272, 93_implementation_defined.md U1). No body. Log entry 5. -/
opaque Config.stateAfterFault : Machine.Fault → Machine.State → Machine.State

end Sys2Proof

namespace Sys2Proof.Machine

/-- `raise F(info)`: `run <- faulted(F)`; everything else is unspecified (60_exceptions.md R271, R272). The parameters
are no state (10_state.md R20) and stay. -/
def State.afterFault (s : State) (f : Fault) : State :=
  { Config.stateAfterFault f s with params := s.params, run := .faulted f }

/-- Reset, an operation of the host: every piece of core state at once, memory and devices untouched
(70_reset_and_hazards.md R320, R321, R323). -/
def State.hostReset (s : State) : State :=
  { s with regs := resetRegs s.params, mmuEnabled := false, mmuTable := [], ivBase := 0, ivEnabled := false,
           ivQueue := [], run := .running }

/-- What can happen to the machine (00_scope.md R7): a core step, a raise by the interrupt source between two
core steps, a reset by the host. -/
inductive Event where
  | coreStep
  | raise (n : Nat)
  | reset
deriving DecidableEq, Repr

/-- The state after a core step, as the host sees it. No step leaves `halted` or `faulted` (10_state.md R34). -/
def State.afterCoreStep (s : State) : State :=
  match s.run with
  | .running =>
    match step s with
    | .next t => t
    | .fault f => s.afterFault f
    | .refused _ => s
  | _ => s

/-- One event (00_scope.md R7, 60_exceptions.md R282). -/
def State.afterEvent (s : State) : Event → State
  | .coreStep => s.afterCoreStep
  | .raise n => s.raiseInterrupt n
  | .reset => s.hostReset

/-- Events one after another; a raise falls between core steps, never inside one (D23). -/
def runEvents (events : List Event) (s : State) : State := events.foldl State.afterEvent s

/-- The source's halt dump, an observation of the host: the registers that are not zero (40_fetch_dispatch.md R138, R139). -/
def State.registerDump (s : State) : List (Nat × Word) :=
  (List.finRange 255).filterMap fun r => if s.reg r = 0 then none else some (r.val, s.reg r)

end Sys2Proof.Machine
end

