-- ==== Sys2Proof/Machine/Boot.lean ====
section
/-! DEFINITION. What memory holds at start: the RE01 container (70_reset_and_hazards.md R323, R326). The loader is
out of scope (00_scope.md R4); this is the host's preparation before it releases the core. Log entry 19. -/
namespace Sys2Proof.Machine

/-- The parts of an executable container (70_reset_and_hazards.md R326). -/
structure Image where
  code : List Byte
  dataBase : Nat
  data : List Byte
deriving DecidableEq, Repr

/-- The magic "RE01": the bytes 52 45 30 31 (70_reset_and_hazards.md R326). -/
def imageMagic : List Byte := [0x52, 0x45, 0x30, 0x31]

/-- Reading the container: a 12-byte header, the code bytes up to `data_offset`, the data bytes (70_reset_and_hazards.md
R326). A file that is no container gives nothing. -/
def parseImage (file : List Byte) : Option Image :=
  let dataOffset := (wordOfBytes ((file.drop 4).take 4)).toNat
  let dataBase := (wordOfBytes ((file.drop 8).take 4)).toNat
  if file.take 4 = imageMagic ∧ 12 ≤ dataOffset ∧ dataOffset ≤ file.length then
    some { code := (file.drop 12).take (dataOffset - 12), dataBase := dataBase, data := file.drop dataOffset }
  else none

/-- "Every byte 0, then the image": code at RESET_PC, data at `data_base` (70_reset_and_hazards.md R323, R326, D36). -/
def Image.memory (im : Image) (p : Params) : Memory :=
  Memory.load (Memory.load [] p.resetPc.toNat im.code) im.dataBase im.data

/-- The image lies inside physical memory. -/
def Image.fits (im : Image) (p : Params) : Bool :=
  p.resetPc.toNat + im.code.length ≤ p.memSize && im.dataBase + im.data.length ≤ p.memSize

/-- The host prepares memory from a container and resets the core (70_reset_and_hazards.md R320, R323, R326). -/
def State.boot (s : State) (file : List Byte) : Option State :=
  match parseImage file with
  | none => none
  | some im => if im.fits s.params then some { s.hostReset with mem := im.memory s.params } else none

end Sys2Proof.Machine
end

