-- ==== Sys2Proof/Safety.lean ====
section
/-! DEFINITION. What a good state and a good run are, in the terms statements use (10_state.md R28, R34,
40_fetch_dispatch.md R139, 60_exceptions.md R271). -/
namespace Sys2Proof.Machine

/-- The outcome has not "gone wrong" (60_exceptions.md R271). -/
def Completes (r : Result) : Prop := ∃ t, r = .next t

/-- Every listed byte of memory stands at an address that exists (20_memory.md R50). -/
def MemInRange (s : State) : Prop := ∀ c ∈ s.mem, c.1 < s.params.memSize

/-- `MMU.table` is what some walk appended: each physical base is the sum of the sizes before it, each size is that of a
size class, each virtual base is page-aligned and each entry a present leaf (20_memory.md R70 to R73). -/
def LinearFrom : Nat → List Mapping → Prop
  | _, [] => True
  | sum, m :: ms =>
    m.pbase = sum ∧ m.size ∈ [4096, 65536, 1048576, 67108864] ∧ m.vaddr.toNat % 4096 = 0 ∧
      m.flags.getLsbD 0 = false ∧ m.flags.getLsbD 8 = true ∧ LinearFrom (sum + m.size) ms

/-- The invariant of the machine: memory in canonical form and inside MEM_SIZE, the flattened table as the linear
allocator builds it (20_memory.md R50, R72, R73). -/
structure State.Inv (s : State) : Prop where
  memWf : s.mem.wf
  memInRange : MemInRange s
  tableLinear : LinearFrom 0 s.mmuTable

/-- A run of `k` steps that does not go wrong (60_exceptions.md R271, 40_fetch_dispatch.md R139). -/
def RunsSafely (k : Nat) (s : State) : Prop := Completes (Host.Core.run Sys2Proof.core k s)

end Sys2Proof.Machine
end

