-- ==== Sys2Proof/Certificates/Slice0/Obligations.lean ====
section
/-! DEFINITION. The statements for the provers: what the numbered rules of spec/ say the instructions and the machine do. -/

namespace Sys2Proof.Spec
open Sys2Proof.Machine

/-- Byte `k` of a word, byte 0 the least significant (20_memory.md R55). -/
def byteOf (v : Word) (k : Nat) : Byte := v.extractLsb' (8 * k) 8

/-- Everything but registers, memory, device calls and the interrupt and MMU state is as before. -/
structure SystemSame (s t : State) : Prop where
  params : t.params = s.params
  run : t.run = s.run

/-- The control state of 10_state.md section 5 is as before. -/
structure ControlSame (s t : State) : Prop extends SystemSame s t where
  mmuEnabled : t.mmuEnabled = s.mmuEnabled
  mmuTable : t.mmuTable = s.mmuTable
  ivBase : t.ivBase = s.ivBase
  ivEnabled : t.ivEnabled = s.ivEnabled
  ivQueue : t.ivQueue = s.ivQueue

/-- Every byte of memory reads as before. -/
def MemSame (s t : State) : Prop := ∀ a, t.mem.read a = s.mem.read a

/-- Every register outside `ds` is as before. -/
def RegsSameBut (ds : List RegIdx) (s t : State) : Prop := ∀ r, r ∉ ds → t.reg r = s.reg r

/-- Nothing changes but the registers in `ds`: no other register, no control state, no byte of memory, no device. -/
structure OnlyRegs (ds : List RegIdx) (s t : State) : Prop where
  regs : RegsSameBut ds s t
  control : ControlSame s t
  mem : MemSame s t
  dev : t.devLog = s.devLog

/-- Every byte of an access translates and lies inside memory. -/
def Accessible (s : State) (va n : Nat) : Prop :=
  ∀ k, k < n → ∃ pa, s.translate (va + k) = .ok pa ∧ pa < s.params.memSize

/-- The fault of one byte access: its translation's, or AddressError when the physical address does not exist
(20_memory.md R52, R53, R60). -/
def ByteFaults (s : State) (va : Nat) (f : Fault) : Prop :=
  s.translate va = .error f ∨ ∃ pa, s.translate va = .ok pa ∧ s.params.memSize ≤ pa ∧ f = .addressError pa

/-- `f` is the fault of the lowest byte of the access that fails (20_memory.md R60). -/
def FirstFault (s : State) (va n : Nat) (f : Fault) : Prop :=
  ∃ k, k < n ∧ Accessible s va k ∧ ByteFaults s (va + k) f

/-- No byte of the access is at a special address. -/
def NoDevice (s : State) (va n : Nat) : Prop :=
  ∀ k, k < n → ∀ pa, s.translate (va + k) = .ok pa → s.isSpecial pa = false

/-- The bytes of the access go to different physical addresses. -/
def Distinct (s : State) (va n : Nat) : Prop :=
  ∀ j k, j < k → k < n → ∀ pa, s.translate (va + j) = .ok pa → s.translate (va + k) ≠ .ok pa

/-- The device calls of an `n`-byte read: a `get` for exactly the special bytes, ascending (20_memory.md R59). -/
def getCalls (s : State) (va n : Nat) : List DeviceCall :=
  (List.range n).filterMap fun k =>
    match s.translate (va + k) with
    | .ok pa => if s.isSpecial pa then some (.get pa) else none
    | .error _ => none

/-- The device calls of an `n`-byte write of `v`: a `set` for exactly the special bytes, ascending (20_memory.md R59). -/
def setCalls (s : State) (va n : Nat) (v : Word) : List DeviceCall :=
  (List.range n).filterMap fun k =>
    match s.translate (va + k) with
    | .ok pa => if s.isSpecial pa then some (.set pa (byteOf v k)) else none
    | .error _ => none

/-- `v` is what an `n`-byte little-endian read at `va` gives: byte `k` is the memory byte at the translated address (a
special byte is free), the bytes above are zero (20_memory.md R55, R60, 41_load_store.md R164). -/
def ReadsAs (s : State) (va n : Nat) (v : Word) : Prop :=
  (∀ k, k < n → ∀ pa, s.translate (va + k) = .ok pa → s.isSpecial pa = false → byteOf v k = s.mem.read pa) ∧
    v.toNat < 2 ^ (8 * n)

/-- The answer is a next state in which register `d` holds what an `n`-byte read at `ea` gives, and but for the calls of
the special bytes nothing else changed. -/
def LoadsInto (r : Result) (s : State) (d : RegIdx) (ea n : Nat) : Prop :=
  ∃ t, r = .next t ∧ ReadsAs s ea n (t.reg d) ∧ RegsSameBut [d] s t ∧ ControlSame s t ∧ MemSame s t ∧
    t.devLog = s.devLog ++ getCalls s ea n

/-- Memory of `t` is memory of `s` after the low `n` bytes of `v` were stored at `ea`: each byte at its translated address
unless a device stands there (of two bytes at one address the later stays), every byte at another address as before
(20_memory.md R53, R61). -/
def Stored (s t : State) (ea n : Nat) (v : Word) : Prop :=
  (∀ k, k < n → ∀ pa, s.translate (ea + k) = .ok pa → s.isSpecial pa = false →
      (∀ j, k < j → j < n → s.translate (ea + j) ≠ .ok pa) → t.mem.read pa = byteOf v k) ∧
    (∀ a, (∀ k, k < n → s.translate (ea + k) = .ok a → s.isSpecial a = true) → t.mem.read a = s.mem.read a) ∧
    t.devLog = s.devLog ++ setCalls s ea n v

/-- The answer is a next state in which the low `n` bytes of `v` stand at `ea` and nothing else changed. -/
def StoresAt (r : Result) (s : State) (ea n : Nat) (v : Word) : Prop :=
  ∃ t, r = .next t ∧ Stored s t ea n v ∧ RegsSameBut [] s t ∧ ControlSame s t

/-- The answer is a next state in which register `d` holds the number `n` and no other register, no control state, no memory
and no device changed. -/
def SetsReg (r : Result) (s : State) (d : RegIdx) (n : Nat) : Prop :=
  ∃ t, r = .next t ∧ (t.reg d).toNat = n ∧ OnlyRegs [d] s t

/-- The answer is a next state in which `pc` is `target` if the condition holds and as it was (the advanced PC) if not, and
nothing else changed (45_branch.md R215). -/
def JumpsIf (r : Result) (s : State) (c : Prop) (target : Nat) : Prop :=
  ∃ t, r = .next t ∧ (c → t.pc.toNat = target) ∧ (¬ c → t.pc = s.pc) ∧ OnlyRegs [s.params.regPc] s t

/-- The states differ at most in `IV.*`. -/
def SameButIv (s t : State) : Prop :=
  t = { s with ivBase := t.ivBase, ivEnabled := t.ivEnabled, ivQueue := t.ivQueue }

/-- The states differ at most in the flag bits of the mappings of `MMU.table`. -/
def SameButFlags (s t : State) : Prop :=
  t = { s with mmuTable := t.mmuTable } ∧
    t.mmuTable.map (fun m => (m.vaddr, m.size, m.pbase)) = s.mmuTable.map (fun m => (m.vaddr, m.size, m.pbase))

/-- The answers agree: next states related by `R`, or the same fault. -/
def AnswersAgree (R : State → State → Prop) : Result → Result → Prop
  | .next t, .next t' => R t t'
  | .fault f, .fault f' => f = f'
  | _, _ => False

/-- The fault of a fetch: that of the lowest of its byte addresses below 2^32 that fails; when `pc` is above 0xFFFFFFFC and
none of them fails, the byte address 2^32 fails, with its translation's fault or, where a mapping covers it, AddressError
(10_state.md R26, the latter the model's choice of log entry 22). -/
def FetchFault (s : State) (f : Fault) : Prop :=
  FirstFault s s.pc.toNat (min 4 (2 ^ 32 - s.pc.toNat)) f ∨
    (0xFFFFFFFC < s.pc.toNat ∧ Accessible s s.pc.toNat (2 ^ 32 - s.pc.toNat) ∧
      (s.translate (2 ^ 32) = .error f ∨ ((∃ pa, s.translate (2 ^ 32) = .ok pa) ∧ f = .addressError (2 ^ 32))))

/-- Fetch, decode and execute fault with `f`, and so does the step of a running core with no interrupt pending. -/
def FetchedFaults (s : State) (f : Fault) : Prop :=
  fetchDecodeExecute s = .fault f ∧ (s.run = .running → s.ivQueue = [] → step s = .fault f)

/-- STACK_BOUND, when set, admits a push (48_stack.md R263). -/
def PushAdmitted (s : State) (rx : Sel) : Prop :=
  ∀ base size, s.params.stackBound = some (base, size) →
    (base : Int) - size ≤ ((s.reg (s.stackPtr rx)).toNat : Int) - 4

/-- STACK_BOUND, when set, admits a pop (48_stack.md R263). -/
def PopAdmitted (s : State) (rx : Sel) : Prop :=
  ∀ base size, s.params.stackBound = some (base, size) → (s.reg (s.stackPtr rx)).toNat < base

/-- The opcode bytes that 30_encoding.md R110 lists as illegal, range by range. -/
def illegalBytes : List Nat :=
  [0x00] ++ List.range' 0x03 13 ++ List.range' 0x1C 4 ++ List.range' 0x23 13 ++ List.range' 0x35 11 ++
    List.range' 0x46 10 ++ List.range' 0x5C 4 ++ List.range' 0x63 13 ++ List.range' 0x71 15 ++ List.range' 0x82 126

/-- The instructions that store to memory. -/
def isStore : Instr → Bool
  | .store8i _ | .store16i _ | .storei _ | .store8 .. | .store16 .. | .store .. | .push .. => true
  | _ => false

/-- The registers an instruction may write on a machine with the parameters `p`: its destination selectors and the implicit
ones (10_state.md R24). -/
def destRegs (p : Params) : Instr → List RegIdx
  | .stop | .store8i _ | .store16i _ | .storei _ | .store8 .. | .store16 .. | .store .. | .intvec .. | .seti | .clri
  | .mmucfg .. => []
  | .load8i _ | .load16i _ | .loadi _ | .movi _ => [Config.regAcc]
  | .load8 _ ry _ | .load16 _ ry _ | .load _ ry _ => [tgt ry]
  | .mov rx _ _ | .add rx _ _ | .sub rx _ _ | .mul rx _ _ | .div rx _ _ | .mod rx _ _ | .not rx => [tgt rx]
  | .swap rx ry _ => [tgt rx, tgt ry]
  | .shl rx ry _ | .shr rx ry _ | .and rx ry _ | .or rx ry _ | .xor rx ry _ => [bitwiseTgt rx ry]
  | .iret | .rts | .bi _ | .b _ | .bzi _ | .bnzi _ | .bz .. | .bnz .. | .beq .. | .bne .. | .brz .. => [p.regPc]
  | .bsri _ | .bsr _ => [p.regPc, p.regRet]
  | .push rx _ => [rx.getD p.regSp]
  | .pop rx ry => [rx.getD p.regSp, tgt ry]

end Sys2Proof.Spec

open Sys2Proof Sys2Proof.Machine Sys2Proof.Spec

/-! ### Encoding -/

/-- Under every injective opcode map, decoding the encoding of a well-formed instruction gives it back, every operand at every
value. -/
def Obligations.DecodeOfEncodeIsTheInstruction : Prop :=
  ∀ map : OpcodeMap, map.Injective → ∀ i : Instr, i.WellFormed → decodeWord map (encode map i) = .ok i

/-- R106: the packing formula with its clipping, the format R operand bits, the round trip of every word, and that the core
never sees an immediate that does not fit (what decoding gives is well formed), under every opcode map. -/
def Obligations.PackingClipsAndRoundTrips : Prop :=
  (∀ op bits : Nat, packWord op bits = BitVec.ofNat 32 ((op &&& 0xFF) ||| ((bits &&& 0xFFFFFF) <<< 8))) ∧
    (∀ map m rx ry ib, encodeR map m rx ry ib =
      packWord (OpcodeMap.byte map m).toNat (selByte rx ||| (selByte ry <<< 8) ||| (ib <<< 16))) ∧
    (∀ w : Word, packWord (opcodeField w).toNat (operandField w).toNat = w) ∧
    (∀ map w i, decodeWord map w = .ok i → i.WellFormed)

/-- R110: the bytes that no mnemonic of R108 has are the 210 of the rule's list; a fetched word whose opcode byte the machine's
map gives no mnemonic faults with that byte, under the default map those of the list and the all-zero word. -/
def Obligations.UnclaimedOpcodesAreIllegal : Prop :=
  (∀ b : Byte, (∀ m, opcode m ≠ b) ↔ b.toNat ∈ illegalBytes) ∧ illegalBytes.Nodup ∧ illegalBytes.length = 210 ∧
    (∀ s s1 w, s.fetch = .ok (w, s1) → (∀ m, s.params.opcodes.byte m ≠ BitVec.ofNat 8 w.toNat) →
      FetchedFaults s (.illegalInstruction (BitVec.ofNat 8 w.toNat))) ∧
    (∀ s s1 w, s.params.opcodes = defaultOpcodes → s.fetch = .ok (w, s1) → w.toNat % 256 ∈ illegalBytes →
      FetchedFaults s (.illegalInstruction (BitVec.ofNat 8 w.toNat))) ∧
    (∀ s s1, s.params.opcodes = defaultOpcodes → s.fetch = .ok (0#32, s1) → FetchedFaults s (.illegalInstruction 0#8))

/-- R108: the default opcode map gives each mnemonic its row's byte, and different mnemonics different bytes. -/
def Obligations.OpcodeMapIsInjective : Prop :=
  (∀ m, defaultOpcodes.byte m = opcode m) ∧ ∀ m m' : Mnemonic, opcode m = opcode m' → m = m'

/-- R112: words that agree on the opcode byte and the fields an instruction uses decode alike; no selector or immediate
makes a claimed opcode illegal. For every injective opcode map. -/
def Obligations.UnusedFieldsAreIgnored : Prop :=
  ∀ map : OpcodeMap, map.Injective → ∀ (w w' : Word) (m : Mnemonic), opcodeField w = map.byte m → opcodeField w' = map.byte m →
    (m ∈ [.stop, .iret, .rts, .seti, .clri] → decodeWord map w = decodeWord map w') ∧
      (m ∈ [.b, .bsr, .not] → w.extractLsb' 8 8 = w'.extractLsb' 8 8 → decodeWord map w = decodeWord map w') ∧
      (m ∈ [.bz, .bnz, .push, .pop] → w.extractLsb' 8 16 = w'.extractLsb' 8 16 → decodeWord map w = decodeWord map w') ∧
      ∃ i, decodeWord map w = .ok i

/-- A few words written out from R101 to R104 and R108 decode, under the default map, to the instructions they stand for. -/
def Obligations.SpecWordsDecode : Prop :=
  decodeWord defaultOpcodes 0x00006412#32 = .ok (.loadi 100) ∧ decodeWord defaultOpcodes 0xFFFFFF21#32 = .ok (.movi 0xFFFFFF) ∧
    decodeWord defaultOpcodes 0x05010130#32 = .ok (.add (some 0) (some 0) 5) ∧
    decodeWord defaultOpcodes 0x0802FF20#32 = .ok (.mov (some 254) (some 1) 8) ∧
    decodeWord defaultOpcodes 0x00020081#32 = .ok (.pop none (some 1)) ∧ decodeWord defaultOpcodes 0xABCDEF01#32 = .ok .stop ∧
    decodeWord defaultOpcodes 0x01030270#32 = .ok (.mmucfg (some 1) (some 2) 1) ∧
    decodeWord defaultOpcodes 0x00000000#32 = .error (.illegalOpcode 0x00#8)

/-- R105: what an operand's selector stands for, absent or present. -/
def Obligations.SelectorsResolve : Prop :=
  ∀ (s : State) (r : RegIdx), s.val none = 0 ∧ s.val (some r) = s.reg r ∧ s.acc none = s.reg 0 ∧
    s.acc (some r) = s.reg r ∧ tgt none = 0 ∧ tgt (some r) = r

/-! ### The step -/

/-- Fetch, decode and execute take the four bytes at `pc`, none beyond address 0xFFFFFFFF, advance `pc` by 4 and are `exec` of the
instruction they decode to under the machine's opcode map; with no interrupt pending they are the step of a running core. The
fetch changes nothing but the device log, and that only at special addresses. -/
def Obligations.StepRunsTheDecodedInstruction : Prop :=
  ∀ (s s1 : State) (w : Word) (i : Instr), s.pc.toNat ≤ 0xFFFFFFFC → s.memRead s.pc.toNat 4 = .ok (w, s1) →
    decodeWord s.params.opcodes w = .ok i →
    fetchDecodeExecute s = exec i (s1.setReg s.params.regPc (s.pc + 4#32)) ∧
      (s.run = .running → s.ivQueue = [] → step s = exec i (s1.setReg s.params.regPc (s.pc + 4#32))) ∧
      s1 = { s with devLog := s.devLog ++ getCalls s s.pc.toNat 4 } ∧ (NoDevice s s.pc.toNat 4 → s1 = s)

/-- R285 with R131: the front of a non-empty queue is delivered first, whatever the enable bit is: the return register takes
`pc`, `pc` the slot's address, nothing else changes, one entry leaves the queue, and the same step goes on with the fetch. A
number at or beyond IV_SLOTS faults instead. With an empty queue the step begins with the fetch. (R23 makes REG_PC and REG_RET
different registers.) -/
def Obligations.PendingInterruptIsDeliveredFirst : Prop :=
  (∀ (s : State) (n : Nat) (rest : List Nat), s.run = .running → s.ivQueue = n :: rest → n < s.params.ivSlots →
    ∃ t, step s = fetchDecodeExecute t ∧ (s.params.regPc ≠ s.params.regRet → t.ret = s.pc) ∧
      t.pc.toNat = (s.ivBase.toNat + n * 4) % 2 ^ 32 ∧ t.ivQueue = rest ∧
      RegsSameBut [s.params.regPc, s.params.regRet] s t ∧ t.ivEnabled = s.ivEnabled ∧ t.ivBase = s.ivBase ∧
      t.mmuEnabled = s.mmuEnabled ∧ t.mmuTable = s.mmuTable ∧ SystemSame s t ∧ MemSame s t ∧ t.devLog = s.devLog) ∧
    (∀ (s : State) (n : Nat) (rest : List Nat), s.run = .running → s.ivQueue = n :: rest → s.params.ivSlots ≤ n →
      step s = .fault (.badInterruptNumber n)) ∧
    (∀ s : State, s.run = .running → s.ivQueue = [] → step s = fetchDecodeExecute s)

/-- R26, R64, R132: a fetch faults at the lowest of its four bytes that fails; its byte addresses do not wrap and those at 2^32
and above do not exist, so every fetch at a `pc` above 0xFFFFFFFC faults, with paging on as well. Which fault that is where a
mapping covers 2^32 is the model's choice (log entry 22). -/
def Obligations.FetchFaultsAtLowestByte : Prop :=
  ∀ s : State, (∀ f, FetchFault s f → FetchedFaults s f) ∧
    (0xFFFFFFFC < s.pc.toNat → ∃ f, FetchFault s f ∧ FetchedFaults s f)

/-- R34, R321: halted and faulted are absorbing: no core step and no raise leaves them, only reset does. A fault in a core step
leaves the machine faulted. What `step` itself answers outside running, where R130 takes no step, is the model's choice (log
entry 6): the same state when halted, the recorded fault when faulted. -/
def Obligations.HaltedAndFaultedAreAbsorbing : Prop :=
  (∀ (s : State) (f : Fault), s.run = .running → step s = .fault f → s.afterCoreStep.run = .faulted f) ∧
    (∀ s : State, s.run ≠ .running → s.afterCoreStep = s ∧ ∀ n, (s.raiseInterrupt n).run = s.run) ∧
    (∀ s : State, s.hostReset.run = .running) ∧
    (∀ (s : State) (events : List Event), s.run ≠ .running → Event.reset ∉ events → (runEvents events s).run = s.run) ∧
    (∀ s : State, s.run = .halted → step s = .next s) ∧
    (∀ (s : State) (f : Fault), s.run = .faulted f → step s = .fault f)

/-! ### Loop-level instructions -/

/-- R138: STOP halts; registers, control state (queue included), memory and devices stay. -/
def Obligations.StopHalts : Prop :=
  ∀ s : State, ∃ t, exec .stop s = .next t ∧ t.run = .halted ∧ RegsSameBut [] s t ∧ MemSame s t ∧ t.devLog = s.devLog ∧
    t.params = s.params ∧ t.mmuEnabled = s.mmuEnabled ∧ t.mmuTable = s.mmuTable ∧ t.ivBase = s.ivBase ∧
    t.ivEnabled = s.ivEnabled ∧ t.ivQueue = s.ivQueue

/-- R243: IRET restores `pc` from the return register, which (a register other than REG_PC by R23) is unchanged, and enables
interrupts; nothing else. -/
def Obligations.IretReturnsAndEnables : Prop :=
  ∀ s : State, ∃ t, exec .iret s = .next t ∧ t.pc = s.ret ∧ t.ivEnabled = true ∧
    (s.params.regPc ≠ s.params.regRet → t.ret = s.ret) ∧ RegsSameBut [s.params.regPc] s t ∧ SystemSame s t ∧
    MemSame s t ∧ t.devLog = s.devLog ∧
    t.mmuEnabled = s.mmuEnabled ∧ t.mmuTable = s.mmuTable ∧ t.ivBase = s.ivBase ∧ t.ivQueue = s.ivQueue

/-! ### Loads and stores -/

/-- R151 to R153: the immediate-address loads write the accumulator with the zero-extended little-endian value. -/
def Obligations.ImmediateLoads : Prop :=
  ∀ (s : State) (imm : Nat),
    (Accessible s imm 1 → LoadsInto (exec (.load8i imm) s) s Config.regAcc imm 1) ∧
      (Accessible s imm 2 → LoadsInto (exec (.load16i imm) s) s Config.regAcc imm 2) ∧
      (Accessible s imm 4 → LoadsInto (exec (.loadi imm) s) s Config.regAcc imm 4)

/-- R157 to R159: the indexed loads write `tgt(sy)` from `val(sx) + ib`, which is not wrapped. -/
def Obligations.IndexedLoads : Prop :=
  ∀ (s : State) (rx ry : Sel) (ib : Nat),
    (Accessible s ((s.val rx).toNat + ib) 1 →
        LoadsInto (exec (.load8 rx ry ib) s) s (tgt ry) ((s.val rx).toNat + ib) 1) ∧
      (Accessible s ((s.val rx).toNat + ib) 2 →
        LoadsInto (exec (.load16 rx ry ib) s) s (tgt ry) ((s.val rx).toNat + ib) 2) ∧
      (Accessible s ((s.val rx).toNat + ib) 4 →
        LoadsInto (exec (.load rx ry ib) s) s (tgt ry) ((s.val rx).toNat + ib) 4)

/-- R154 to R156: the immediate-address stores put the low bytes of the accumulator at imm24. -/
def Obligations.ImmediateStores : Prop :=
  ∀ (s : State) (imm : Nat),
    (Accessible s imm 1 → StoresAt (exec (.store8i imm) s) s imm 1 (s.reg 0)) ∧
      (Accessible s imm 2 → StoresAt (exec (.store16i imm) s) s imm 2 (s.reg 0)) ∧
      (Accessible s imm 4 → StoresAt (exec (.storei imm) s) s imm 4 (s.reg 0))

/-- R160 to R162: the indexed stores put the low bytes of `acc(sy)` at `val(sx) + ib`, which is not wrapped. -/
def Obligations.IndexedStores : Prop :=
  ∀ (s : State) (rx ry : Sel) (ib : Nat),
    (Accessible s (s.indexedEa rx ib) 1 → StoresAt (exec (.store8 rx ry ib) s) s (s.indexedEa rx ib) 1 (s.acc ry)) ∧
      (Accessible s (s.indexedEa rx ib) 2 → StoresAt (exec (.store16 rx ry ib) s) s (s.indexedEa rx ib) 2 (s.acc ry)) ∧
      (Accessible s (s.indexedEa rx ib) 4 → StoresAt (exec (.store rx ry ib) s) s (s.indexedEa rx ib) 4 (s.acc ry)) ∧
      s.indexedEa rx ib = (s.val rx).toNat + ib

/-- R164: a load or store faults with the fault of its lowest failing byte and so writes no register. -/
def Obligations.LoadsAndStoresFaultAtLowestByte : Prop :=
  ∀ (s : State) (rx ry : Sel) (imm ib : Nat) (f : Fault),
    (FirstFault s imm 1 f → exec (.load8i imm) s = .fault f ∧ exec (.store8i imm) s = .fault f) ∧
      (FirstFault s imm 2 f → exec (.load16i imm) s = .fault f ∧ exec (.store16i imm) s = .fault f) ∧
      (FirstFault s imm 4 f → exec (.loadi imm) s = .fault f ∧ exec (.storei imm) s = .fault f) ∧
      (FirstFault s (s.indexedEa rx ib) 1 f → exec (.load8 rx ry ib) s = .fault f ∧ exec (.store8 rx ry ib) s = .fault f) ∧
      (FirstFault s (s.indexedEa rx ib) 2 f →
        exec (.load16 rx ry ib) s = .fault f ∧ exec (.store16 rx ry ib) s = .fault f) ∧
      (FirstFault s (s.indexedEa rx ib) 4 f → exec (.load rx ry ib) s = .fault f ∧ exec (.store rx ry ib) s = .fault f)

/-- R55: after a store of 1, 2 or 4 bytes that no device sees, a load of that width gives the stored low bytes,
and a byte load inside it gives exactly that byte. -/
def Obligations.LoadAfterStoreSeesTheBytes : Prop :=
  ∀ (s t : State) (va n : Nat) (v : Word), n ≤ 4 → NoDevice s va n → Distinct s va n → s.memWrite va n v = .ok t →
    t.memRead va n = .ok (BitVec.ofNat 32 (v.toNat % 2 ^ (8 * n)), t) ∧
      ∀ k, k < n → t.memRead (va + k) 1 = .ok ((byteOf v k).setWidth 32, t)

/-- R84: a store to the address of the next instruction, its four bytes at addresses that exist, is seen by that next fetch. -/
def Obligations.StoreIsSeenByTheNextFetch : Prop :=
  ∀ (s t : State) (v : Word), s.pc.toNat ≤ 0xFFFFFFFC → NoDevice s s.pc.toNat 4 → Distinct s s.pc.toNat 4 →
    s.memWrite s.pc.toNat 4 v = .ok t → t.fetch = .ok (v, t.setReg s.params.regPc (s.pc + 4#32))

/-! ### Move and swap -/

/-- R171, R172: MOV and MOVi. -/
def Obligations.MoveResults : Prop :=
  ∀ (s : State) (rx ry : Sel) (ib imm : Nat),
    SetsReg (exec (.mov rx ry ib) s) s (tgt rx) (((s.val ry).toNat + ib) % 2 ^ 32) ∧
      SetsReg (exec (.movi imm) s) s 0 (imm % 2 ^ 32)

/-- R173: SWAP reads both, writes `rx`, then `ry`; of two writes to one register the one for `ry` stays. -/
def Obligations.SwapExchanges : Prop :=
  ∀ (s : State) (rx ry : Sel) (ib : Nat), ∃ t, exec (.swap rx ry ib) s = .next t ∧
    (t.reg (tgt ry)).toNat = ((s.val rx).toNat + ib) % 2 ^ 32 ∧
    (tgt rx ≠ tgt ry → (t.reg (tgt rx)).toNat = ((s.val ry).toNat + ib) % 2 ^ 32) ∧ OnlyRegs [tgt rx, tgt ry] s t

/-! ### Arithmetic -/

/-- R186 to R188: ADD, SUB and MUL over `(val(sx), val(sy), ib)`, truncated to 32 bits. -/
def Obligations.AddSubMulResults : Prop :=
  ∀ (s : State) (rx ry : Sel) (ib : Nat),
    SetsReg (exec (.add rx ry ib) s) s (tgt rx) (((s.val rx).toNat + (s.val ry).toNat + ib) % 2 ^ 32) ∧
      SetsReg (exec (.sub rx ry ib) s) s (tgt rx)
        ((((s.val rx).toNat : Int) - (s.val ry).toNat - ib) % 2 ^ 32).toNat ∧
      SetsReg (exec (.mul rx ry ib) s) s (tgt rx) (((s.val rx).toNat * (s.val ry).toNat * ib) % 2 ^ 32)

/-- R189, R190: with both divisors non-zero, DIV and MOD fold truncating division and remainder; with a zero divisor, register
or immediate, they fault. -/
def Obligations.DivModResults : Prop :=
  ∀ (s : State) (rx ry : Sel) (ib : Nat),
    (s.val ry ≠ 0 → ib ≠ 0 →
      SetsReg (exec (.div rx ry ib) s) s (tgt rx) ((s.val rx).toNat / (s.val ry).toNat / ib) ∧
        SetsReg (exec (.mod rx ry ib) s) s (tgt rx) ((s.val rx).toNat % (s.val ry).toNat % ib)) ∧
      (s.val ry = 0 ∨ ib = 0 →
        exec (.div rx ry ib) s = .fault .divisionByZero ∧ exec (.mod rx ry ib) s = .fault .divisionByZero)

/-- R276: an instruction that raises DivisionByZero is DIV or MOD, and it has a zero divisor. -/
def Obligations.OnlyDivAndModDivideByZero : Prop :=
  ∀ (s : State) (i : Instr), exec i s = .fault .divisionByZero →
    ∃ rx ry ib, (i = .div rx ry ib ∨ i = .mod rx ry ib) ∧ (s.val ry = 0 ∨ ib = 0)

/-! ### Bitwise -/

/-- R202, R203: SHL and SHR by the immediate byte, not reduced mod 32, into `ry` if present else `rx`. -/
def Obligations.ShiftResults : Prop :=
  ∀ (s : State) (rx ry : Sel) (ib : Nat),
    SetsReg (exec (.shl rx ry ib) s) s (if ry.isSome then tgt ry else tgt rx) (((s.val rx).toNat * 2 ^ ib) % 2 ^ 32) ∧
      SetsReg (exec (.shr rx ry ib) s) s (if ry.isSome then tgt ry else tgt rx) ((s.val rx).toNat / 2 ^ ib)

/-- R204 to R206: AND, OR and XOR with the immediate byte, into `ry` if present else `rx`. -/
def Obligations.AndOrXorResults : Prop :=
  ∀ (s : State) (rx ry : Sel) (ib : Nat), ib < 256 →
    SetsReg (exec (.and rx ry ib) s) s (if ry.isSome then tgt ry else tgt rx) ((s.val rx).toNat % 256 &&& ib) ∧
      SetsReg (exec (.or rx ry ib) s) s (if ry.isSome then tgt ry else tgt rx) ((s.val rx).toNat ||| ib) ∧
      SetsReg (exec (.xor rx ry ib) s) s (if ry.isSome then tgt ry else tgt rx) ((s.val rx).toNat ^^^ ib)

/-- R207: NOT writes the complement of `rx` to `rx`. -/
def Obligations.NotResult : Prop :=
  ∀ (s : State) (rx : Sel), SetsReg (exec (.not rx) s) s (tgt rx) (0xFFFFFFFF - (s.val rx).toNat)

/-! ### Branches -/

/-- R216, R217, R227: Bi, B and RTS. -/
def Obligations.UnconditionalJumps : Prop :=
  ∀ (s : State) (rx : Sel) (imm : Nat), imm < 2 ^ 24 →
    JumpsIf (exec (.bi imm) s) s True imm ∧ JumpsIf (exec (.b rx) s) s True (s.val rx).toNat ∧
      JumpsIf (exec .rts s) s True (s.reg s.params.regRet).toNat

/-- R218 to R221: the branches on zero and non-zero, of the accumulator or of `ry`. -/
def Obligations.ZeroBranches : Prop :=
  ∀ (s : State) (rx ry : Sel) (imm : Nat), imm < 2 ^ 24 →
    JumpsIf (exec (.bzi imm) s) s (s.reg 0 = 0) imm ∧ JumpsIf (exec (.bnzi imm) s) s (s.reg 0 ≠ 0) imm ∧
      JumpsIf (exec (.bz rx ry) s) s (s.acc ry = 0) (s.val rx).toNat ∧
      JumpsIf (exec (.bnz rx ry) s) s (s.acc ry ≠ 0) (s.val rx).toNat

/-- R222, R223: the relative branches, from the advanced PC, mod 2^32. -/
def Obligations.RelativeBranches : Prop :=
  ∀ (s : State) (rx ry : Sel) (ib : Nat),
    JumpsIf (exec (.beq rx ry ib) s) s (s.val rx = s.val ry) ((s.pc.toNat + ib) % 2 ^ 32) ∧
      JumpsIf (exec (.bne rx ry ib) s) s (s.val rx ≠ s.val ry) ((s.pc.toNat + ib) % 2 ^ 32)

/-- R224: BRZ; an absent `ry` reads 0 and always branches. -/
def Obligations.BranchIfRegisterZero : Prop :=
  ∀ (s : State) (rx ry : Sel) (ib : Nat),
    JumpsIf (exec (.brz rx ry ib) s) s (s.val ry = 0) (((s.val rx).toNat + ib) % 2 ^ 32) ∧ s.val none = 0

/-- R225, R226: the calls write the link, advanced PC plus LINK_OFFSET, and jump to a target read before. (R23 makes REG_PC
and REG_RET different registers.) -/
def Obligations.CallsLinkAndJump : Prop :=
  ∀ (s : State) (rx : Sel) (imm : Nat), imm < 2 ^ 24 →
    (∃ t, exec (.bsri imm) s = .next t ∧ t.pc.toNat = imm ∧
        (s.params.regPc ≠ s.params.regRet → t.ret.toNat = (s.pc.toNat + s.params.linkOffset) % 2 ^ 32) ∧
        OnlyRegs [s.params.regPc, s.params.regRet] s t) ∧
      (∃ t, exec (.bsr rx) s = .next t ∧ t.pc = s.val rx ∧
        (s.params.regPc ≠ s.params.regRet → t.ret.toNat = (s.pc.toNat + s.params.linkOffset) % 2 ^ 32) ∧
        OnlyRegs [s.params.regPc, s.params.regRet] s t)

/-! ### Interrupts -/

/-- R240 to R242: INTVEC, SETI and CLRI change `IV.base` and `IV.enabled` as stated, the queue never, nothing else. -/
def Obligations.InterruptConfiguration : Prop :=
  ∀ (s : State) (rx ry : Sel) (ib : Nat),
    exec (.intvec rx ry ib) s =
        .next { s with ivBase := s.val rx, ivEnabled := ((s.val ry).toNat ||| ib).testBit 0 } ∧
      exec .seti s = .next { s with ivEnabled := true } ∧ exec .clri s = .next { s with ivEnabled := false }

/-- R282: a raise is ignored while disabled; while enabled it disables further raises and queues the number. -/
def Obligations.RaiseIsMaskedAndQueued : Prop :=
  ∀ (s : State) (n : Nat),
    (s.ivEnabled = false → s.raiseInterrupt n = s) ∧
      (s.ivEnabled = true → s.raiseInterrupt n = { s with ivEnabled := false, ivQueue := s.ivQueue ++ [n] })

/-- R286: raise while enabled; later raises are ignored; the next step saves the pre-interrupt PC and goes to the
handler; an IRET from there restores the PC and re-enables. REG_PC and REG_RET are different registers (R23). -/
def Obligations.RaiseDeliverReturn : Prop :=
  ∀ (s : State) (n : Nat), s.params.regPc ≠ s.params.regRet → s.run = .running → s.ivEnabled = true → s.ivQueue = [] →
    n < s.params.ivSlots →
    (∀ later : List Nat, later.foldl State.raiseInterrupt (s.raiseInterrupt n) = s.raiseInterrupt n) ∧
      ∃ t, step (s.raiseInterrupt n) = fetchDecodeExecute t ∧ t.ret = s.pc ∧
        t.pc.toNat = (s.ivBase.toNat + n * 4) % 2 ^ 32 ∧ t.ivEnabled = false ∧ t.ivQueue = [] ∧
        ∃ u, exec .iret t = .next u ∧ u.pc = s.pc ∧ u.ivEnabled = true

/-! ### MMU -/

/-- R75: translation is the identity while paging is off; on, the first mapping in list order that contains the address
decides, and with none UnmappedPageError. -/
def Obligations.TranslationIsFirstMatch : Prop :=
  ∀ (s : State) (va : Nat),
    (s.mmuEnabled = false → s.translate va = .ok va) ∧
      (s.mmuEnabled = true → ∀ before m after, s.mmuTable = before ++ m :: after →
        (∀ b ∈ before, ¬ (b.vaddr.toNat ≤ va ∧ va < b.vaddr.toNat + b.size)) →
        m.vaddr.toNat ≤ va → va < m.vaddr.toNat + m.size → s.translate va = .ok (m.pbase + (va - m.vaddr.toNat))) ∧
      (s.mmuEnabled = true → (∀ m ∈ s.mmuTable, ¬ (m.vaddr.toNat ≤ va ∧ va < m.vaddr.toNat + m.size)) →
        s.translate va = .error (.unmappedPage va))

/-- R251(c): without `rx`, MMUCFG only switches paging: bit 0 enables, then bit 1 disables; the table stays. -/
def Obligations.MmucfgSwitchesPaging : Prop :=
  ∀ (s : State) (ry : Sel) (ib : Nat), exec (.mmucfg none ry ib) s =
    .next { s with mmuEnabled := if ib / 2 % 2 = 1 then false else if ib % 2 = 1 then true else s.mmuEnabled }

/-- R72 and R250: with `rx` present, on canonical memory MMUCFG completes exactly when the rule's `Expand` ends without
fault, and then installs the table it builds, switching paging as the immediate says, and changing nothing else. -/
def Obligations.MmucfgInstallsTheExpandedTable : Prop :=
  ∀ (s : State) (r : RegIdx) (ry : Sel) (ib : Nat), s.mem.wf →
    (∀ w, Expands s.params.memSize s.mem (s.reg r).toNat (s.val ry).toNat { table := [], sum := 0 } w →
      exec (.mmucfg (some r) ry ib) s =
        .next { s with
          mmuTable := w.table
          mmuEnabled := if ib / 2 % 2 = 1 then false else if ib % 2 = 1 then true else s.mmuEnabled }) ∧
      (Completes (exec (.mmucfg (some r) ry ib) s) →
        ∃ w, Expands s.params.memSize s.mem (s.reg r).toNat (s.val ry).toNat { table := [], sum := 0 } w)

/-- R74: a table of leaves and absent entries that runs past MEM_SIZE faults at its first entry beyond. -/
def Obligations.TableBeyondMemoryFaults : Prop :=
  ∀ (s : State) (r : RegIdx) (ry : Sel) (ib n : Nat), s.mem.wf → n < (s.val ry).toNat →
    (∀ k, k < n → (s.reg r).toNat + 4 * k + 3 < s.params.memSize ∧
      (isPresent (tableWord s.mem ((s.reg r).toNat + 4 * k)) = true →
        isSubtable (tableWord s.mem ((s.reg r).toNat + 4 * k)) = false)) →
    s.params.memSize ≤ (s.reg r).toNat + 4 * n + 3 →
    exec (.mmucfg (some r) ry ib) s = .fault (.addressError ((s.reg r).toNat + 4 * n))

/-- The model's choice for R251(f) and U9 (log entry 7): a top-level table whose first entry is a present subtable, whose
nested table begins with that same entry, makes MMUCFG stop as stuck. -/
def Obligations.SelfReachingTableIsStuck : Prop :=
  ∀ (s : State) (r : RegIdx) (ry : Sel) (ib : Nat) (e : Word), s.mem.wf → 0 < (s.val ry).toNat →
    (s.reg r).toNat + 3 < s.params.memSize → tableWord s.mem (s.reg r).toNat = e →
    (entryAddr e).toNat + 3 < s.params.memSize → tableWord s.mem (entryAddr e).toNat = e →
    isPresent e = true → isSubtable e = true → exec (.mmucfg (some r) ry ib) s = .fault .tableNeverEnds

/-- The scan of listed cells (log entry 8) gives the present entries that the rule's loop over all `n` entries reads. -/
def Obligations.TableScanIsTheLoop : Prop :=
  ∀ (m : Memory) (pos n : Nat), m.wf →
    presentEntries m pos n =
      (List.range n).filterMap fun k =>
        if isPresent (tableWord m (pos + 4 * k)) then some (tableWord m (pos + 4 * k)) else none

/-- R79: a table of one present leaf of virtual base V and size S, enabled, maps V to physical 0 (the P of the first leaf)
and V+S-1 to S-1, and V+S is unmapped. -/
def Obligations.SingleLeafTranslates : Prop :=
  ∀ (s : State) (r ry : RegIdx) (e : Word), s.mem.wf → s.reg ry = 1 → (s.reg r).toNat + 3 < s.params.memSize →
    tableWord s.mem (s.reg r).toNat = e → isPresent e = true → isSubtable e = false →
    ∃ t, exec (.mmucfg (some r) (some ry) 1) s = .next t ∧ t.translate (entryAddr e).toNat = .ok 0 ∧
      t.translate ((entryAddr e).toNat + leafSize (sizeClass e) - 1) = .ok (leafSize (sizeClass e) - 1) ∧
      t.translate ((entryAddr e).toNat + leafSize (sizeClass e)) =
        .error (.unmappedPage ((entryAddr e).toNat + leafSize (sizeClass e)))

/-! ### Stack -/

/-- R261: PUSH, within the bound and its store accessible, reads the value first, decrements the pointer and stores
at the new pointer. -/
def Obligations.PushStoresBelowThePointer : Prop :=
  ∀ (s : State) (rx ry : Sel), PushAdmitted s rx →
    Accessible s (s.reg (s.stackPtr rx) - 4#32).toNat 4 →
    ∃ t, exec (.push rx ry) s = .next t ∧ t.reg (s.stackPtr rx) = s.reg (s.stackPtr rx) - 4#32 ∧
      Stored s t (s.reg (s.stackPtr rx) - 4#32).toNat 4 (s.acc ry) ∧ RegsSameBut [s.stackPtr rx] s t ∧ ControlSame s t ∧
      s.stackPtr none = s.params.regSp ∧ ∀ r, s.stackPtr (some r) = r

/-- R262: POP, within the bound and its load accessible, loads at the pointer, increments it and writes the value last. -/
def Obligations.PopLoadsAtThePointer : Prop :=
  ∀ (s : State) (rx ry : Sel), PopAdmitted s rx →
    Accessible s (s.reg (s.stackPtr rx)).toNat 4 →
    ∃ t, exec (.pop rx ry) s = .next t ∧ ReadsAs s (s.reg (s.stackPtr rx)).toNat 4 (t.reg (tgt ry)) ∧
      (s.stackPtr rx ≠ tgt ry → t.reg (s.stackPtr rx) = s.reg (s.stackPtr rx) + 4#32) ∧
      RegsSameBut [s.stackPtr rx, tgt ry] s t ∧ ControlSame s t ∧ MemSame s t ∧
      t.devLog = s.devLog ++ getCalls s (s.reg (s.stackPtr rx)).toNat 4

/-- R261, R262, R291: a PUSH or POP that the bound admits faults with the fault of the lowest failing byte of its access, the
store below the pointer or the load at it. -/
def Obligations.StackAccessFaultsAtLowestByte : Prop :=
  ∀ (s : State) (rx ry : Sel) (f : Fault),
    (PushAdmitted s rx → FirstFault s (s.reg (s.stackPtr rx) - 4#32).toNat 4 f → exec (.push rx ry) s = .fault f) ∧
      (PopAdmitted s rx → FirstFault s (s.reg (s.stackPtr rx)).toNat 4 f → exec (.pop rx ry) s = .fault f)

/-- R263: with the bound set, PUSH overflows exactly when the decremented pointer, a mathematical integer, would lie below
base - size, and POP underflows exactly when the pointer is at or past the base; no other instruction and no unset bound does. -/
def Obligations.StackBoundChecks : Prop :=
  (∀ (s : State) (rx ry : Sel), exec (.push rx ry) s = .fault .stackOverflow ↔
      ∃ base size, s.params.stackBound = some (base, size) ∧
        ((s.reg (s.stackPtr rx)).toNat : Int) - 4 < (base : Int) - size) ∧
    (∀ (s : State) (rx ry : Sel), exec (.pop rx ry) s = .fault .stackUnderflow ↔
      ∃ base size, s.params.stackBound = some (base, size) ∧ base ≤ (s.reg (s.stackPtr rx)).toNat) ∧
    (∀ (s : State) (i : Instr), exec i s = .fault .stackOverflow → ∃ rx ry, i = .push rx ry) ∧
    (∀ (s : State) (i : Instr), exec i s = .fault .stackUnderflow → ∃ rx ry, i = .pop rx ry)

/-- R264, last property: push(a), push(b), then pop gives b and pop gives a, on one pointer register, which is then back
where it was. The two slots' bytes exist within the bound, no device stands there, no two of them are one physical byte. -/
def Obligations.StackIsLastInFirstOut : Prop :=
  ∀ (s : State) (p a b c d : RegIdx), c ≠ p → d ≠ p → c ≠ d → b ≠ p →
    (∀ base size, s.params.stackBound = some (base, size) →
      (base : Int) - size ≤ ((s.reg p).toNat : Int) - 8 ∧ (s.reg p).toNat ≤ base) →
    8 ≤ (s.reg p).toNat → Accessible s ((s.reg p).toNat - 8) 8 → NoDevice s ((s.reg p).toNat - 8) 8 →
    Distinct s ((s.reg p).toNat - 8) 8 →
    ∃ t1 t2 t3 t4, exec (.push (some p) (some a)) s = .next t1 ∧ exec (.push (some p) (some b)) t1 = .next t2 ∧
      exec (.pop (some p) (some c)) t2 = .next t3 ∧ exec (.pop (some p) (some d)) t3 = .next t4 ∧
      t4.reg c = s.reg b ∧ t4.reg d = s.reg a ∧ t4.reg p = s.reg p

/-- R264, first property: from the base, with size a multiple of 4 no larger than the base, the push after `k` pushes (pointer
base - 4k) overflows exactly when k is at least size/4, and a pop at the base underflows. -/
def Obligations.BoundAdmitsSizeOverWordPushes : Prop :=
  ∀ (s : State) (rx ry : Sel) (base size k : Nat), s.params.stackBound = some (base, size) → size % 4 = 0 →
    size ≤ base → 4 * k ≤ base → (s.reg (s.stackPtr rx)).toNat = base - 4 * k →
    (exec (.push rx ry) s = .fault .stackOverflow ↔ size / 4 ≤ k) ∧
      (k = 0 → exec (.pop rx ry) s = .fault .stackUnderflow)

/-! ### The whole machine -/

/-- Every core step, raise and reset keeps the invariant (memory canonical and inside MEM_SIZE, the table linear) and the
parameters. -/
def Obligations.EveryStepKeepsTheInvariant : Prop :=
  ∀ s : State, s.Inv → (∀ t, step s = .next t → t.Inv ∧ t.params = s.params) ∧
    (∀ n, (s.raiseInterrupt n).Inv ∧ (s.raiseInterrupt n).params = s.params) ∧ s.hostReset.Inv

/-- The invariant holds right after reset, for every choice of the parameters; the defaults meet the constraints of R5, R23 and
R108. -/
def Obligations.ResetMeetsTheInvariant : Prop :=
  State.reset.Inv ∧ State.reset.params.Wf ∧ ∀ p : Params, (State.resetWith p).Inv ∧ (State.resetWith p).params = p

/-- R320, R323: what reset sets, for every choice of the parameters; memory, parameters and the log of the devices stay. That the
model's initial memory reads 0 everywhere, with no image placed, is log entry 15. -/
def Obligations.ResetValues : Prop :=
  (∀ s : State, s.hostReset.pc = s.params.resetPc ∧ (∀ r, r ≠ s.params.regPc → s.hostReset.reg r = 0) ∧
      s.hostReset.mmuEnabled = false ∧ s.hostReset.mmuTable = [] ∧ s.hostReset.ivBase = 0 ∧
      s.hostReset.ivEnabled = false ∧ s.hostReset.ivQueue = [] ∧ s.hostReset.run = .running ∧ MemSame s s.hostReset ∧
      s.hostReset.params = s.params ∧ s.hostReset.devLog = s.devLog) ∧
    ∀ p : Params, (State.resetWith p).hostReset = State.resetWith p ∧ ∀ a, (State.resetWith p).mem.read a = 0

/-- R24: an instruction writes only the registers its selectors and its rule name. -/
def Obligations.OnlyDestinationRegistersChange : Prop :=
  ∀ (i : Instr) (s t : State), exec i s = .next t → RegsSameBut (destRegs s.params i) s t

/-- R27, R28: only MMUCFG writes `MMU.enabled` and `MMU.table`. -/
def Obligations.OnlyMmucfgChangesTheMmu : Prop :=
  ∀ (i : Instr) (s t : State), exec i s = .next t → (∀ rx ry ib, i ≠ .mmucfg rx ry ib) →
    t.mmuEnabled = s.mmuEnabled ∧ t.mmuTable = s.mmuTable

/-- R30, R31, R244: only INTVEC writes `IV.base`; only SETI, CLRI, IRET and INTVEC write `IV.enabled`; no instruction touches
the queue. -/
def Obligations.OnlyInterruptInstructionsChangeIv : Prop :=
  ∀ (i : Instr) (s t : State), exec i s = .next t →
    t.ivQueue = s.ivQueue ∧ ((∀ rx ry ib, i ≠ .intvec rx ry ib) → t.ivBase = s.ivBase) ∧
      ((∀ rx ry ib, i ≠ .intvec rx ry ib) → i ≠ .seti → i ≠ .clri → i ≠ .iret → t.ivEnabled = s.ivEnabled)

/-- Only stores and PUSH change memory; device calls are only ever added behind those made before (R82). -/
def Obligations.OnlyStoresChangeMemory : Prop :=
  ∀ (i : Instr) (s t : State), exec i s = .next t →
    (isStore i = false → MemSame s t) ∧ ∃ calls, t.devLog = s.devLog ++ calls

/-- R139: a run ends normally only by STOP; a step changes no parameter and never answers a faulted state. -/
def Obligations.OnlyStopEndsARun : Prop :=
  (∀ (i : Instr) (s t : State), exec i s = .next t → t.run = (if i = .stop then .halted else s.run)) ∧
    (∀ s t : State, s.run = .running → step s = .next t → t.params = s.params ∧ ∀ f, t.run ≠ .faulted f) ∧
    (∀ s s1 t w, s.run = .running → s.ivQueue = [] → s.fetch = .ok (w, s1) → step s = .next t →
      (t.run = .halted ↔ decodeWord s.params.opcodes w = .ok .stop))

/-- R244: no instruction reads `IV.base`, `IV.enabled` or `IV.queue`: two states that differ only there give
answers that differ at most there. -/
def Obligations.NoInstructionReadsInterruptState : Prop :=
  ∀ (i : Instr) (s s' : State), SameButIv s s' → AnswersAgree SameButIv (exec i s) (exec i s')

/-- R77: the flag bits of the mappings are checked by nothing: two states that differ only there step alike. -/
def Obligations.ProtectionFlagsAreNotEnforced : Prop :=
  ∀ s s' : State, s.run = .running → SameButFlags s s' → AnswersAgree SameButFlags (step s) (step s')

/-- R326: an image that fits is placed with its code at RESET_PC and its data at data_base, every other byte 0, and all the rest
is what the host's reset leaves (R320). R326 does not say what stands where code and data overlap: that the data stays there is
the MODEL'S CHOICE (log entry 19), as is which files parse as a container. -/
def Obligations.BootPlacesCodeAndData : Prop :=
  ∀ (s : State) (file : List Byte) (im : Image), parseImage file = some im →
    s.params.resetPc.toNat + im.code.length ≤ s.params.memSize → im.dataBase + im.data.length ≤ s.params.memSize →
    ∃ t, s.boot file = some t ∧ t = { s.hostReset with mem := t.mem } ∧ t.mem.wf ∧
      (∀ k (h : k < im.data.length), t.mem.read (im.dataBase + k) = im.data[k]) ∧
      (∀ k (h : k < im.code.length),
        s.params.resetPc.toNat + k < im.dataBase ∨ im.dataBase + im.data.length ≤ s.params.resetPc.toNat + k →
        t.mem.read (s.params.resetPc.toNat + k) = im.code[k]) ∧
      ∀ a, (a < im.dataBase ∨ im.dataBase + im.data.length ≤ a) →
        (a < s.params.resetPc.toNat ∨ s.params.resetPc.toNat + im.code.length ≤ a) → t.mem.read a = 0
end

