-- ==== Sys2Proof/Laws/Decode.lean ====
section
/-! SUPPORT. The opcode map: what selecting a mnemonic by its byte can answer, for every map (30_encoding.md R108, R109). -/
namespace Sys2Proof

theorem mem_allMnemonics (m : Mnemonic) : m ∈ allMnemonics := by cases m <;> decide

/-- The rows of the table are numbered in the order of `allMnemonics`. -/
theorem Mnemonic.index_injective (m m' : Mnemonic) (h : m.index = m'.index) : m = m' := by
  have e : ∀ m : Mnemonic, allMnemonics[m.index.val]? = some m := by intro m; cases m <;> rfl
  have := e m
  rw [h, e m'] at this
  exact (Option.some.inj this).symm

/-- A map of 46 different bytes is injective. -/
theorem OpcodeMap.injective_of_nodup (map : OpcodeMap) (h : map.toList.Nodup) : map.Injective := by
  intro m m' e
  refine Mnemonic.index_injective m m' (Fin.ext ?_)
  have hl : ∀ k : Fin 46, k.val < map.toList.length := fun k => by simp
  refine (List.Nodup.getElem_inj_iff h (hi := hl m.index) (hj := hl m'.index)).mp ?_
  simpa [OpcodeMap.byte] using e

/-- The map of a machine that meets the constraints is injective (00_scope.md R5, 30_encoding.md R108). -/
theorem Params.opcodes_injective (p : Params) (h : p.Wf) : p.opcodes.Injective := p.opcodes.injective_of_nodup h.2.2.2.2

/-- Its program counter and return register are different registers (10_state.md R23). -/
theorem Params.regPc_ne_regRet (p : Params) (h : p.Wf) : p.regPc ≠ p.regRet := h.2.2.2.1.2.2.2.2.1

/-- A byte selects a mnemonic only if it is that mnemonic's byte. -/
theorem byte_of_mnemonicOf (map : OpcodeMap) (op : Byte) (m : Mnemonic) (h : mnemonicOf map op = some m) :
    map.byte m = op := by
  simpa using List.find?_some h

/-- A byte selects nothing exactly when no mnemonic has it. -/
theorem mnemonicOf_eq_none (map : OpcodeMap) (op : Byte) : mnemonicOf map op = none ↔ ∀ m, map.byte m ≠ op := by
  simp [mnemonicOf, mem_allMnemonics]

/-- Under an injective map a mnemonic's byte selects it. -/
theorem OpcodeMap.Injective.mnemonicOf_byte {map : OpcodeMap} (h : map.Injective) (m : Mnemonic) :
    mnemonicOf map (map.byte m) = some m := by
  cases e : mnemonicOf map (map.byte m) with
  | none => exact absurd rfl ((mnemonicOf_eq_none map _).mp e m)
  | some m' => rw [h m' m (byte_of_mnemonicOf map _ m' e)]

/-- A word with a mnemonic's byte decodes to that mnemonic's instruction (30_encoding.md R109). -/
theorem OpcodeMap.Injective.decodeWord_of_byte {map : OpcodeMap} (h : map.Injective) (w : Word) (m : Mnemonic)
    (hw : opcodeField w = map.byte m) : decodeWord map w = .ok (instrOf m w) := by
  simp [decodeWord, hw, h.mnemonicOf_byte]

/-- What decoding can answer: the instruction of the selected mnemonic, or the unclaimed byte (30_encoding.md R109, R110). -/
theorem decodeWord_cases (map : OpcodeMap) (w : Word) :
    (∃ m, map.byte m = opcodeField w ∧ decodeWord map w = .ok (instrOf m w)) ∨
      ((∀ m, map.byte m ≠ opcodeField w) ∧ decodeWord map w = .error (.illegalOpcode (opcodeField w))) := by
  unfold decodeWord
  cases e : mnemonicOf map (opcodeField w) with
  | none => exact .inr ⟨(mnemonicOf_eq_none map _).mp e, rfl⟩
  | some m => exact .inl ⟨m, byte_of_mnemonicOf map _ m e, rfl⟩

end Sys2Proof
end

