-- ==== Sys2Proof/Laws/Memory.lean ====
section
/-! SUPPORT. Backing storage: reading after a write, and the canonical form, which every memory operation keeps. -/
namespace Sys2Proof.Machine

@[simp] theorem Memory.read_nil (a : Nat) : Memory.read [] a = unwrittenByte := rfl

theorem Memory.read_cons (a k : Nat) (b : Byte) (m : Memory) :
    Memory.read ((a, b) :: m) k = if a = k then b else Memory.read m k := rfl

/-- An address that no cell lists reads as the unwritten byte (20_memory.md R50). -/
theorem Memory.read_unlisted (m : Memory) (k : Nat) (h : ∀ c ∈ m, c.1 ≠ k) : Memory.read m k = unwrittenByte := by
  induction m with
  | nil => rfl
  | cons c m ih =>
    obtain ⟨a, b⟩ := c
    have ha : a ≠ k := h (a, b) (by simp)
    rw [Memory.read_cons, if_neg ha]
    exact ih fun c hc => h c (by simp [hc])

theorem Memory.mem_unlist (m : Memory) (k : Nat) (c : Host.Cell) : c ∈ m.unlist k ↔ c ∈ m ∧ c.1 ≠ k := by
  simp [Memory.unlist]

theorem Memory.read_unlist (m : Memory) (k a : Nat) :
    (m.unlist k).read a = if a = k then unwrittenByte else m.read a := by
  induction m with
  | nil => simp [Memory.unlist]
  | cons c m ih =>
    obtain ⟨x, b⟩ := c
    have step : Memory.unlist ((x, b) :: m) k = if x = k then Memory.unlist m k else (x, b) :: Memory.unlist m k := by
      by_cases hx : x = k <;> simp [Memory.unlist, hx]
    rw [step]
    by_cases hx : x = k
    · rw [if_pos hx, ih, Memory.read_cons]
      by_cases ha : a = k
      · simp [ha]
      · have : ¬ x = a := fun h => ha (by omega)
        simp [ha, this]
    · rw [if_neg hx, Memory.read_cons, ih, Memory.read_cons]
      by_cases ha : x = a
      · have : a ≠ k := fun h => hx (by omega)
        simp [ha, this]
      · simp [ha]

theorem Memory.read_insertCell (m : Memory) (k a : Nat) (b : Byte) (h : ∀ c ∈ m, c.1 ≠ k) :
    (m.insertCell k b).read a = if a = k then b else m.read a := by
  induction m with
  | nil =>
    by_cases ha : a = k
    · simp [Memory.insertCell, Memory.read_cons, ha]
    · have : ¬ k = a := fun h' => ha h'.symm
      simp [Memory.insertCell, Memory.read_cons, ha, this]
  | cons c m ih =>
    obtain ⟨x, y⟩ := c
    have hx : x ≠ k := h (x, y) (by simp)
    have ih' := ih fun c hc => h c (by simp [hc])
    simp only [Memory.insertCell]
    by_cases hlt : k < x
    · rw [if_pos hlt, Memory.read_cons]
      by_cases ha : a = k
      · simp [ha]
      · have : ¬ k = a := fun h' => ha h'.symm
        simp [ha, this]
    · rw [if_neg hlt, Memory.read_cons, ih', Memory.read_cons]
      by_cases ha : x = a
      · have : a ≠ k := fun h' => hx (by omega)
        simp [ha, this]
      · simp [ha]

/-- Reading any address after a write (20_memory.md R52, R53, R81). It holds of every list of cells. -/
theorem Memory.read_write (m : Memory) (k a : Nat) (b : Byte) :
    (m.write k b).read a = if a = k then b else m.read a := by
  unfold Memory.write
  by_cases hb : b = unwrittenByte
  · rw [if_pos hb, Memory.read_unlist, hb]
  · rw [if_neg hb, Memory.read_insertCell _ _ _ _ fun c hc => ((Memory.mem_unlist m k c).mp hc).2, Memory.read_unlist]
    by_cases ha : a = k <;> simp [ha]

@[simp] theorem Memory.read_write_same (m : Memory) (k : Nat) (b : Byte) : (m.write k b).read k = b := by
  simp [Memory.read_write]

theorem Memory.read_write_ne (m : Memory) (k a : Nat) (b : Byte) (h : a ≠ k) : (m.write k b).read a = m.read a := by
  simp [Memory.read_write, h]

/-! ### The canonical form -/

theorem Memory.wf_nil : Memory.wf [] := ⟨List.Pairwise.nil, fun _ hc => absurd hc List.not_mem_nil⟩

theorem Memory.wf_unlist (m : Memory) (k : Nat) (h : m.wf) : (m.unlist k).wf :=
  ⟨h.1.filter _, fun c hc => h.2 c ((Memory.mem_unlist m k c).mp hc).1⟩

theorem Memory.mem_insertCell (m : Memory) (k : Nat) (b : Byte) (c : Host.Cell) :
    c ∈ m.insertCell k b ↔ c = (k, b) ∨ c ∈ m := by
  induction m with
  | nil => simp [Memory.insertCell]
  | cons d m ih =>
    obtain ⟨x, y⟩ := d
    simp only [Memory.insertCell]
    by_cases hlt : k < x
    · simp [hlt]
    · simp only [hlt, if_false, List.mem_cons, ih]
      tauto

theorem Memory.wf_insertCell (m : Memory) (k : Nat) (b : Byte) (h : m.wf) (hb : b ≠ unwrittenByte)
    (hk : ∀ c ∈ m, c.1 ≠ k) : (m.insertCell k b).wf := by
  refine ⟨?_, fun c hc => ?_⟩
  · induction m with
    | nil => simp [Memory.insertCell]
    | cons d m ih =>
      obtain ⟨x, y⟩ := d
      have hx : x ≠ k := hk (x, y) (by simp)
      have hp := List.pairwise_cons.mp h.1
      simp only [Memory.insertCell]
      by_cases hlt : k < x
      · rw [if_pos hlt]
        refine List.pairwise_cons.mpr ⟨fun c hc => ?_, h.1⟩
        rcases List.mem_cons.mp hc with rfl | hc
        · exact hlt
        · exact Nat.lt_trans hlt (hp.1 c hc)
      · rw [if_neg hlt]
        refine List.pairwise_cons.mpr ⟨fun c hc => ?_, ih ⟨hp.2, fun c hc => h.2 c (by simp [hc])⟩
          fun c hc => hk c (by simp [hc])⟩
        rcases (Memory.mem_insertCell m k b c).mp hc with rfl | hc
        · exact Nat.lt_of_le_of_ne (Nat.le_of_not_lt hlt) hx
        · exact hp.1 c hc
  · rcases (Memory.mem_insertCell m k b c).mp hc with rfl | hc
    · exact hb
    · exact h.2 c hc

/-- A write keeps the canonical form. -/
theorem Memory.wf_write (m : Memory) (k : Nat) (b : Byte) (h : m.wf) : (m.write k b).wf := by
  unfold Memory.write
  by_cases hb : b = unwrittenByte
  · rw [if_pos hb]; exact Memory.wf_unlist m k h
  · rw [if_neg hb]
    exact Memory.wf_insertCell _ k b (Memory.wf_unlist m k h) hb fun c hc => ((Memory.mem_unlist m k c).mp hc).2

/-- The cells after a write stand at the written address or where cells stood before. -/
theorem Memory.addr_of_mem_write (m : Memory) (k : Nat) (b : Byte) (c : Host.Cell) (h : c ∈ m.write k b) :
    c.1 = k ∨ c ∈ m := by
  unfold Memory.write at h
  by_cases hb : b = unwrittenByte
  · rw [if_pos hb] at h; exact .inr ((Memory.mem_unlist m k c).mp h).1
  · rw [if_neg hb] at h
    rcases (Memory.mem_insertCell _ k b c).mp h with rfl | h
    · exact .inl rfl
    · exact .inr ((Memory.mem_unlist m k c).mp h).1

/-- Placing an image keeps the canonical form. -/
theorem Memory.wf_load (bs : List Byte) (m : Memory) (a : Nat) (h : m.wf) : (m.load a bs).wf := by
  induction bs generalizing m a with
  | nil => exact h
  | cons b bs ih => exact ih _ _ (Memory.wf_write m a b h)

/-- In canonical form a listed cell is what its address reads as. -/
theorem Memory.read_of_mem (m : Memory) (h : m.wf) (c : Host.Cell) (hc : c ∈ m) : m.read c.1 = c.2 := by
  induction m with
  | nil => simp at hc
  | cons d m ih =>
    obtain ⟨x, y⟩ := d
    have hp := List.pairwise_cons.mp h.1
    rcases List.mem_cons.mp hc with rfl | hc
    · simp [Memory.read_cons]
    · have hlt := hp.1 c hc
      have hne : ¬ x = c.1 := fun e => absurd hlt (by simp [e])
      rw [Memory.read_cons, if_neg hne]
      exact ih ⟨hp.2, fun c hc => h.2 c (by simp [hc])⟩ hc

/-- In canonical form an address that reads other than the unwritten byte is listed. -/
theorem Memory.mem_of_read (m : Memory) (a : Nat) (h : m.read a ≠ unwrittenByte) : (a, m.read a) ∈ m := by
  induction m with
  | nil => exact absurd rfl h
  | cons d m ih =>
    obtain ⟨x, y⟩ := d
    rw [Memory.read_cons] at h ⊢
    by_cases hx : x = a
    · simp [hx]
    · rw [if_neg hx] at h ⊢
      exact List.mem_cons_of_mem _ (ih h)

/-- Equal memories are equal data: two canonical memories that read alike are the same list. -/
theorem Memory.eq_of_read_eq (m n : Memory) (hm : m.wf) (hn : n.wf) (h : ∀ a, m.read a = n.read a) : m = n := by
  have same : ∀ c, c ∈ m ↔ c ∈ n := fun c => by
    constructor <;> intro hc
    · have e := Memory.read_of_mem m hm c hc
      have := Memory.mem_of_read n c.1 (by rw [← h, e]; exact hm.2 c hc)
      rwa [← h, e] at this
    · have e := Memory.read_of_mem n hn c hc
      have := Memory.mem_of_read m c.1 (by rw [h, e]; exact hn.2 c hc)
      rwa [h, e] at this
  have dm : m.Nodup := hm.1.imp fun {a b} hab e => absurd hab (by simp [e])
  have dn : n.Nodup := hn.1.imp fun {a b} hab e => absurd hab (by simp [e])
  exact List.Perm.eq_of_pairwise (fun a b _ _ h1 h2 => absurd (Nat.lt_trans h1 h2) (Nat.lt_irrefl _)) hm.1 hn.1
    ((List.perm_ext_iff_of_nodup dm dn).mpr same)

end Sys2Proof.Machine
end

