-- ==== Sys2Proof/Laws/State.lean ====
section
/-! SUPPORT. One lemma per field per update of State, and reading a register after an update. -/
namespace Sys2Proof.Machine

/-! ### Reading and writing registers -/

theorem State.reg_setReg (s : State) (r r' : RegIdx) (v : Word) :
    (s.setReg r v).reg r' = if r = r' then v else s.reg r' := by
  simp only [State.reg, State.setReg, Vector.getElem_set, Fin.val_inj]

@[simp] theorem State.reg_setReg_same (s : State) (r : RegIdx) (v : Word) : (s.setReg r v).reg r = v := by
  simp [State.reg_setReg]

theorem State.reg_setReg_ne (s : State) (r r' : RegIdx) (v : Word) (h : r' ≠ r) :
    (s.setReg r v).reg r' = s.reg r' := by
  simp [State.reg_setReg, Ne.symm h]

/-- Two states are equal when their fields are, the register file read register by register. -/
theorem State.ext_regs {s t : State} (h1 : s.params = t.params) (h2 : ∀ r, s.reg r = t.reg r)
    (h3 : s.mmuEnabled = t.mmuEnabled) (h4 : s.mmuTable = t.mmuTable) (h5 : s.ivBase = t.ivBase)
    (h6 : s.ivEnabled = t.ivEnabled) (h7 : s.ivQueue = t.ivQueue) (h8 : s.run = t.run) (h9 : s.mem = t.mem)
    (h10 : s.devLog = t.devLog) : s = t := by
  have hr : s.regs = t.regs := Vector.ext fun k hk => h2 ⟨k, hk⟩
  cases s; cases t; simp_all

/-! ### setReg -/

@[simp] theorem State.setReg_params (s : State) (r : RegIdx) (v : Word) : (s.setReg r v).params = s.params := rfl
@[simp] theorem State.setReg_mmuEnabled (s : State) (r : RegIdx) (v : Word) : (s.setReg r v).mmuEnabled = s.mmuEnabled := rfl
@[simp] theorem State.setReg_mmuTable (s : State) (r : RegIdx) (v : Word) : (s.setReg r v).mmuTable = s.mmuTable := rfl
@[simp] theorem State.setReg_ivBase (s : State) (r : RegIdx) (v : Word) : (s.setReg r v).ivBase = s.ivBase := rfl
@[simp] theorem State.setReg_ivEnabled (s : State) (r : RegIdx) (v : Word) : (s.setReg r v).ivEnabled = s.ivEnabled := rfl
@[simp] theorem State.setReg_ivQueue (s : State) (r : RegIdx) (v : Word) : (s.setReg r v).ivQueue = s.ivQueue := rfl
@[simp] theorem State.setReg_run (s : State) (r : RegIdx) (v : Word) : (s.setReg r v).run = s.run := rfl
@[simp] theorem State.setReg_mem (s : State) (r : RegIdx) (v : Word) : (s.setReg r v).mem = s.mem := rfl
@[simp] theorem State.setReg_devLog (s : State) (r : RegIdx) (v : Word) : (s.setReg r v).devLog = s.devLog := rfl

/-! ### setPc -/

@[simp] theorem State.setPc_params (s : State) (t : Word) : (s.setPc t).params = s.params := rfl
@[simp] theorem State.setPc_mmuEnabled (s : State) (t : Word) : (s.setPc t).mmuEnabled = s.mmuEnabled := rfl
@[simp] theorem State.setPc_mmuTable (s : State) (t : Word) : (s.setPc t).mmuTable = s.mmuTable := rfl
@[simp] theorem State.setPc_ivBase (s : State) (t : Word) : (s.setPc t).ivBase = s.ivBase := rfl
@[simp] theorem State.setPc_ivEnabled (s : State) (t : Word) : (s.setPc t).ivEnabled = s.ivEnabled := rfl
@[simp] theorem State.setPc_ivQueue (s : State) (t : Word) : (s.setPc t).ivQueue = s.ivQueue := rfl
@[simp] theorem State.setPc_run (s : State) (t : Word) : (s.setPc t).run = s.run := rfl
@[simp] theorem State.setPc_mem (s : State) (t : Word) : (s.setPc t).mem = s.mem := rfl
@[simp] theorem State.setPc_devLog (s : State) (t : Word) : (s.setPc t).devLog = s.devLog := rfl

/-! ### setAccumulator -/

@[simp] theorem State.setAccumulator_params (s : State) (v : Word) : (s.setAccumulator v).params = s.params := rfl
@[simp] theorem State.setAccumulator_mmuEnabled (s : State) (v : Word) : (s.setAccumulator v).mmuEnabled = s.mmuEnabled := rfl
@[simp] theorem State.setAccumulator_mmuTable (s : State) (v : Word) : (s.setAccumulator v).mmuTable = s.mmuTable := rfl
@[simp] theorem State.setAccumulator_ivBase (s : State) (v : Word) : (s.setAccumulator v).ivBase = s.ivBase := rfl
@[simp] theorem State.setAccumulator_ivEnabled (s : State) (v : Word) : (s.setAccumulator v).ivEnabled = s.ivEnabled := rfl
@[simp] theorem State.setAccumulator_ivQueue (s : State) (v : Word) : (s.setAccumulator v).ivQueue = s.ivQueue := rfl
@[simp] theorem State.setAccumulator_run (s : State) (v : Word) : (s.setAccumulator v).run = s.run := rfl
@[simp] theorem State.setAccumulator_mem (s : State) (v : Word) : (s.setAccumulator v).mem = s.mem := rfl
@[simp] theorem State.setAccumulator_devLog (s : State) (v : Word) : (s.setAccumulator v).devLog = s.devLog := rfl

/-! ### setRet -/

@[simp] theorem State.setRet_params (s : State) (v : Word) : (s.setRet v).params = s.params := rfl
@[simp] theorem State.setRet_mmuEnabled (s : State) (v : Word) : (s.setRet v).mmuEnabled = s.mmuEnabled := rfl
@[simp] theorem State.setRet_mmuTable (s : State) (v : Word) : (s.setRet v).mmuTable = s.mmuTable := rfl
@[simp] theorem State.setRet_ivBase (s : State) (v : Word) : (s.setRet v).ivBase = s.ivBase := rfl
@[simp] theorem State.setRet_ivEnabled (s : State) (v : Word) : (s.setRet v).ivEnabled = s.ivEnabled := rfl
@[simp] theorem State.setRet_ivQueue (s : State) (v : Word) : (s.setRet v).ivQueue = s.ivQueue := rfl
@[simp] theorem State.setRet_run (s : State) (v : Word) : (s.setRet v).run = s.run := rfl
@[simp] theorem State.setRet_mem (s : State) (v : Word) : (s.setRet v).mem = s.mem := rfl
@[simp] theorem State.setRet_devLog (s : State) (v : Word) : (s.setRet v).devLog = s.devLog := rfl

/-! ### advancePc -/

@[simp] theorem State.advancePc_params (s : State) : (s.advancePc).params = s.params := rfl
@[simp] theorem State.advancePc_mmuEnabled (s : State) : (s.advancePc).mmuEnabled = s.mmuEnabled := rfl
@[simp] theorem State.advancePc_mmuTable (s : State) : (s.advancePc).mmuTable = s.mmuTable := rfl
@[simp] theorem State.advancePc_ivBase (s : State) : (s.advancePc).ivBase = s.ivBase := rfl
@[simp] theorem State.advancePc_ivEnabled (s : State) : (s.advancePc).ivEnabled = s.ivEnabled := rfl
@[simp] theorem State.advancePc_ivQueue (s : State) : (s.advancePc).ivQueue = s.ivQueue := rfl
@[simp] theorem State.advancePc_run (s : State) : (s.advancePc).run = s.run := rfl
@[simp] theorem State.advancePc_mem (s : State) : (s.advancePc).mem = s.mem := rfl
@[simp] theorem State.advancePc_devLog (s : State) : (s.advancePc).devLog = s.devLog := rfl

/-! ### logCalls -/

@[simp] theorem State.logCalls_params (s : State) (calls : List DeviceCall) : (s.logCalls calls).params = s.params := rfl
@[simp] theorem State.logCalls_regs (s : State) (calls : List DeviceCall) : (s.logCalls calls).regs = s.regs := rfl
@[simp] theorem State.logCalls_mmuEnabled (s : State) (calls : List DeviceCall) : (s.logCalls calls).mmuEnabled = s.mmuEnabled := rfl
@[simp] theorem State.logCalls_mmuTable (s : State) (calls : List DeviceCall) : (s.logCalls calls).mmuTable = s.mmuTable := rfl
@[simp] theorem State.logCalls_ivBase (s : State) (calls : List DeviceCall) : (s.logCalls calls).ivBase = s.ivBase := rfl
@[simp] theorem State.logCalls_ivEnabled (s : State) (calls : List DeviceCall) : (s.logCalls calls).ivEnabled = s.ivEnabled := rfl
@[simp] theorem State.logCalls_ivQueue (s : State) (calls : List DeviceCall) : (s.logCalls calls).ivQueue = s.ivQueue := rfl
@[simp] theorem State.logCalls_run (s : State) (calls : List DeviceCall) : (s.logCalls calls).run = s.run := rfl
@[simp] theorem State.logCalls_mem (s : State) (calls : List DeviceCall) : (s.logCalls calls).mem = s.mem := rfl
@[simp] theorem State.reg_logCalls (s : State) (calls : List DeviceCall) (q : RegIdx) : (s.logCalls calls).reg q = s.reg q := rfl

/-! ### setMem -/

@[simp] theorem State.setMem_params (s : State) (m : Memory) : (s.setMem m).params = s.params := rfl
@[simp] theorem State.setMem_regs (s : State) (m : Memory) : (s.setMem m).regs = s.regs := rfl
@[simp] theorem State.setMem_mmuEnabled (s : State) (m : Memory) : (s.setMem m).mmuEnabled = s.mmuEnabled := rfl
@[simp] theorem State.setMem_mmuTable (s : State) (m : Memory) : (s.setMem m).mmuTable = s.mmuTable := rfl
@[simp] theorem State.setMem_ivBase (s : State) (m : Memory) : (s.setMem m).ivBase = s.ivBase := rfl
@[simp] theorem State.setMem_ivEnabled (s : State) (m : Memory) : (s.setMem m).ivEnabled = s.ivEnabled := rfl
@[simp] theorem State.setMem_ivQueue (s : State) (m : Memory) : (s.setMem m).ivQueue = s.ivQueue := rfl
@[simp] theorem State.setMem_run (s : State) (m : Memory) : (s.setMem m).run = s.run := rfl
@[simp] theorem State.setMem_devLog (s : State) (m : Memory) : (s.setMem m).devLog = s.devLog := rfl
@[simp] theorem State.reg_setMem (s : State) (m : Memory) (q : RegIdx) : (s.setMem m).reg q = s.reg q := rfl
@[simp] theorem State.setMem_mem (s : State) (m : Memory) : (s.setMem m).mem = m := rfl

theorem State.logCalls_devLog (s : State) (calls : List DeviceCall) : (s.logCalls calls).devLog = s.devLog ++ calls := rfl

@[simp] theorem State.logCalls_nil (s : State) : s.logCalls [] = s := by simp [State.logCalls]

@[simp] theorem State.logCalls_logCalls (s : State) (c d : List DeviceCall) :
    (s.logCalls c).logCalls d = s.logCalls (c ++ d) := by simp [State.logCalls]

@[simp] theorem State.setMem_setMem (s : State) (m n : Memory) : (s.setMem m).setMem n = s.setMem n := rfl

@[simp] theorem State.setMem_self (s : State) : s.setMem s.mem = s := rfl

theorem State.setMem_logCalls (s : State) (m : Memory) (c : List DeviceCall) :
    (s.logCalls c).setMem m = (s.setMem m).logCalls c := rfl

/-! ### enterInterrupt -/

@[simp] theorem State.enterInterrupt_params (s : State) (n : Nat) : (s.enterInterrupt n).params = s.params := rfl
@[simp] theorem State.enterInterrupt_mmuEnabled (s : State) (n : Nat) : (s.enterInterrupt n).mmuEnabled = s.mmuEnabled := rfl
@[simp] theorem State.enterInterrupt_mmuTable (s : State) (n : Nat) : (s.enterInterrupt n).mmuTable = s.mmuTable := rfl
@[simp] theorem State.enterInterrupt_ivBase (s : State) (n : Nat) : (s.enterInterrupt n).ivBase = s.ivBase := rfl
@[simp] theorem State.enterInterrupt_ivEnabled (s : State) (n : Nat) : (s.enterInterrupt n).ivEnabled = s.ivEnabled := rfl
@[simp] theorem State.enterInterrupt_ivQueue (s : State) (n : Nat) : (s.enterInterrupt n).ivQueue = s.ivQueue := rfl
@[simp] theorem State.enterInterrupt_run (s : State) (n : Nat) : (s.enterInterrupt n).run = s.run := rfl
@[simp] theorem State.enterInterrupt_mem (s : State) (n : Nat) : (s.enterInterrupt n).mem = s.mem := rfl
@[simp] theorem State.enterInterrupt_devLog (s : State) (n : Nat) : (s.enterInterrupt n).devLog = s.devLog := rfl

/-! ### returnFromInterrupt -/

@[simp] theorem State.returnFromInterrupt_params (s : State) : (s.returnFromInterrupt).params = s.params := rfl
@[simp] theorem State.returnFromInterrupt_mmuEnabled (s : State) : (s.returnFromInterrupt).mmuEnabled = s.mmuEnabled := rfl
@[simp] theorem State.returnFromInterrupt_mmuTable (s : State) : (s.returnFromInterrupt).mmuTable = s.mmuTable := rfl
@[simp] theorem State.returnFromInterrupt_ivBase (s : State) : (s.returnFromInterrupt).ivBase = s.ivBase := rfl
@[simp] theorem State.returnFromInterrupt_ivQueue (s : State) : (s.returnFromInterrupt).ivQueue = s.ivQueue := rfl
@[simp] theorem State.returnFromInterrupt_run (s : State) : (s.returnFromInterrupt).run = s.run := rfl
@[simp] theorem State.returnFromInterrupt_mem (s : State) : (s.returnFromInterrupt).mem = s.mem := rfl
@[simp] theorem State.returnFromInterrupt_devLog (s : State) : (s.returnFromInterrupt).devLog = s.devLog := rfl

/-! ### bitwiseInto -/

@[simp] theorem State.bitwiseInto_params (s : State) (op : Word → Nat → Word) (rx ry : Sel) (ib : Nat) : (s.bitwiseInto op rx ry ib).params = s.params := rfl
@[simp] theorem State.bitwiseInto_mmuEnabled (s : State) (op : Word → Nat → Word) (rx ry : Sel) (ib : Nat) : (s.bitwiseInto op rx ry ib).mmuEnabled = s.mmuEnabled := rfl
@[simp] theorem State.bitwiseInto_mmuTable (s : State) (op : Word → Nat → Word) (rx ry : Sel) (ib : Nat) : (s.bitwiseInto op rx ry ib).mmuTable = s.mmuTable := rfl
@[simp] theorem State.bitwiseInto_ivBase (s : State) (op : Word → Nat → Word) (rx ry : Sel) (ib : Nat) : (s.bitwiseInto op rx ry ib).ivBase = s.ivBase := rfl
@[simp] theorem State.bitwiseInto_ivEnabled (s : State) (op : Word → Nat → Word) (rx ry : Sel) (ib : Nat) : (s.bitwiseInto op rx ry ib).ivEnabled = s.ivEnabled := rfl
@[simp] theorem State.bitwiseInto_ivQueue (s : State) (op : Word → Nat → Word) (rx ry : Sel) (ib : Nat) : (s.bitwiseInto op rx ry ib).ivQueue = s.ivQueue := rfl
@[simp] theorem State.bitwiseInto_run (s : State) (op : Word → Nat → Word) (rx ry : Sel) (ib : Nat) : (s.bitwiseInto op rx ry ib).run = s.run := rfl
@[simp] theorem State.bitwiseInto_mem (s : State) (op : Word → Nat → Word) (rx ry : Sel) (ib : Nat) : (s.bitwiseInto op rx ry ib).mem = s.mem := rfl
@[simp] theorem State.bitwiseInto_devLog (s : State) (op : Word → Nat → Word) (rx ry : Sel) (ib : Nat) : (s.bitwiseInto op rx ry ib).devLog = s.devLog := rfl

/-! ### callTo -/

@[simp] theorem State.callTo_params (s : State) (t : Word) : (s.callTo t).params = s.params := rfl
@[simp] theorem State.callTo_mmuEnabled (s : State) (t : Word) : (s.callTo t).mmuEnabled = s.mmuEnabled := rfl
@[simp] theorem State.callTo_mmuTable (s : State) (t : Word) : (s.callTo t).mmuTable = s.mmuTable := rfl
@[simp] theorem State.callTo_ivBase (s : State) (t : Word) : (s.callTo t).ivBase = s.ivBase := rfl
@[simp] theorem State.callTo_ivEnabled (s : State) (t : Word) : (s.callTo t).ivEnabled = s.ivEnabled := rfl
@[simp] theorem State.callTo_ivQueue (s : State) (t : Word) : (s.callTo t).ivQueue = s.ivQueue := rfl
@[simp] theorem State.callTo_run (s : State) (t : Word) : (s.callTo t).run = s.run := rfl
@[simp] theorem State.callTo_mem (s : State) (t : Word) : (s.callTo t).mem = s.mem := rfl
@[simp] theorem State.callTo_devLog (s : State) (t : Word) : (s.callTo t).devLog = s.devLog := rfl

/-! ### decrementPtr -/

@[simp] theorem State.decrementPtr_params (s : State) (p : RegIdx) : (s.decrementPtr p).params = s.params := rfl
@[simp] theorem State.decrementPtr_mmuEnabled (s : State) (p : RegIdx) : (s.decrementPtr p).mmuEnabled = s.mmuEnabled := rfl
@[simp] theorem State.decrementPtr_mmuTable (s : State) (p : RegIdx) : (s.decrementPtr p).mmuTable = s.mmuTable := rfl
@[simp] theorem State.decrementPtr_ivBase (s : State) (p : RegIdx) : (s.decrementPtr p).ivBase = s.ivBase := rfl
@[simp] theorem State.decrementPtr_ivEnabled (s : State) (p : RegIdx) : (s.decrementPtr p).ivEnabled = s.ivEnabled := rfl
@[simp] theorem State.decrementPtr_ivQueue (s : State) (p : RegIdx) : (s.decrementPtr p).ivQueue = s.ivQueue := rfl
@[simp] theorem State.decrementPtr_run (s : State) (p : RegIdx) : (s.decrementPtr p).run = s.run := rfl
@[simp] theorem State.decrementPtr_mem (s : State) (p : RegIdx) : (s.decrementPtr p).mem = s.mem := rfl
@[simp] theorem State.decrementPtr_devLog (s : State) (p : RegIdx) : (s.decrementPtr p).devLog = s.devLog := rfl

/-! ### switchPaging -/

@[simp] theorem State.switchPaging_params (s : State) (ib : Nat) : (s.switchPaging ib).params = s.params := rfl
@[simp] theorem State.switchPaging_regs (s : State) (ib : Nat) : (s.switchPaging ib).regs = s.regs := rfl
@[simp] theorem State.switchPaging_mmuTable (s : State) (ib : Nat) : (s.switchPaging ib).mmuTable = s.mmuTable := rfl
@[simp] theorem State.switchPaging_ivBase (s : State) (ib : Nat) : (s.switchPaging ib).ivBase = s.ivBase := rfl
@[simp] theorem State.switchPaging_ivEnabled (s : State) (ib : Nat) : (s.switchPaging ib).ivEnabled = s.ivEnabled := rfl
@[simp] theorem State.switchPaging_ivQueue (s : State) (ib : Nat) : (s.switchPaging ib).ivQueue = s.ivQueue := rfl
@[simp] theorem State.switchPaging_run (s : State) (ib : Nat) : (s.switchPaging ib).run = s.run := rfl
@[simp] theorem State.switchPaging_mem (s : State) (ib : Nat) : (s.switchPaging ib).mem = s.mem := rfl
@[simp] theorem State.switchPaging_devLog (s : State) (ib : Nat) : (s.switchPaging ib).devLog = s.devLog := rfl
@[simp] theorem State.reg_switchPaging (s : State) (ib : Nat) (q : RegIdx) : (s.switchPaging ib).reg q = s.reg q := rfl

/-! ### hostReset -/

@[simp] theorem State.hostReset_params (s : State) : (s.hostReset).params = s.params := rfl
@[simp] theorem State.hostReset_mem (s : State) : (s.hostReset).mem = s.mem := rfl
@[simp] theorem State.hostReset_devLog (s : State) : (s.hostReset).devLog = s.devLog := rfl

/-! ### branchIf -/

@[simp] theorem State.branchIf_params (s : State) (c : Bool) (t : Word) : (s.branchIf c t).params = s.params := by
  cases c <;> rfl
@[simp] theorem State.branchIf_mmuEnabled (s : State) (c : Bool) (t : Word) : (s.branchIf c t).mmuEnabled = s.mmuEnabled := by
  cases c <;> rfl
@[simp] theorem State.branchIf_mmuTable (s : State) (c : Bool) (t : Word) : (s.branchIf c t).mmuTable = s.mmuTable := by
  cases c <;> rfl
@[simp] theorem State.branchIf_ivBase (s : State) (c : Bool) (t : Word) : (s.branchIf c t).ivBase = s.ivBase := by
  cases c <;> rfl
@[simp] theorem State.branchIf_ivEnabled (s : State) (c : Bool) (t : Word) : (s.branchIf c t).ivEnabled = s.ivEnabled := by
  cases c <;> rfl
@[simp] theorem State.branchIf_ivQueue (s : State) (c : Bool) (t : Word) : (s.branchIf c t).ivQueue = s.ivQueue := by
  cases c <;> rfl
@[simp] theorem State.branchIf_run (s : State) (c : Bool) (t : Word) : (s.branchIf c t).run = s.run := by
  cases c <;> rfl
@[simp] theorem State.branchIf_mem (s : State) (c : Bool) (t : Word) : (s.branchIf c t).mem = s.mem := by
  cases c <;> rfl
@[simp] theorem State.branchIf_devLog (s : State) (c : Bool) (t : Word) : (s.branchIf c t).devLog = s.devLog := by
  cases c <;> rfl

/-! ### What the register updates with a name of their own leave in each register -/

theorem State.reg_setPc (s : State) (t : Word) (q : RegIdx) :
    (s.setPc t).reg q = if s.params.regPc = q then t else s.reg q := State.reg_setReg s _ q t

@[simp] theorem State.pc_setPc (s : State) (t : Word) : (s.setPc t).pc = t := State.reg_setReg_same s _ t

theorem State.reg_setRet (s : State) (v : Word) (q : RegIdx) :
    (s.setRet v).reg q = if s.params.regRet = q then v else s.reg q := State.reg_setReg s _ q v

theorem State.reg_setAccumulator (s : State) (v : Word) (q : RegIdx) :
    (s.setAccumulator v).reg q = if Config.regAcc = q then v else s.reg q := State.reg_setReg s _ q v

theorem State.reg_advancePc (s : State) (q : RegIdx) :
    s.advancePc.reg q = if s.params.regPc = q then s.pc + 4#32 else s.reg q := State.reg_setReg s _ q _

theorem State.reg_branchIf (s : State) (c : Bool) (t : Word) (q : RegIdx) :
    (s.branchIf c t).reg q = if c = true ∧ s.params.regPc = q then t else s.reg q := by
  cases c <;> simp [State.branchIf, State.reg_setPc]

theorem State.reg_callTo (s : State) (t : Word) (q : RegIdx) :
    (s.callTo t).reg q =
      if s.params.regPc = q then t else if s.params.regRet = q then s.linkValue else s.reg q := by
  simp only [State.callTo, State.reg_setPc, State.reg_setRet, State.setRet_params]

theorem State.reg_enterInterrupt (s : State) (n : Nat) (q : RegIdx) :
    (s.enterInterrupt n).reg q =
      if s.params.regPc = q then s.handlerAddress n else if s.params.regRet = q then s.pc else s.reg q := by
  simp only [State.enterInterrupt, State.reg_setPc, State.reg_setRet, State.setRet_params]

theorem State.reg_returnFromInterrupt (s : State) (q : RegIdx) :
    s.returnFromInterrupt.reg q = if s.params.regPc = q then s.ret else s.reg q := State.reg_setPc s s.ret q

@[simp] theorem State.returnFromInterrupt_ivEnabled (s : State) : s.returnFromInterrupt.ivEnabled = true := rfl

@[simp] theorem State.ret_setPc (s : State) (t : Word) (h : s.params.regPc ≠ s.params.regRet) : (s.setPc t).ret = s.ret := by
  simp [State.ret, State.reg_setPc, h]

@[simp] theorem State.stackPtr_none (s : State) : s.stackPtr none = s.params.regSp := rfl

@[simp] theorem State.stackPtr_some (s : State) (r : RegIdx) : s.stackPtr (some r) = r := rfl

end Sys2Proof.Machine
end

