-- ==== Sys2Proof/Laws/Ops.lean ====
section
/-! SUPPORT. One lemma per shared operation over memory, devices and interrupts: everything it can do. -/
namespace Sys2Proof.Machine

/-- Memory right after reset has the canonical form. -/
theorem State.reset_mem_wf : State.reset.mem.wf := Memory.wf_nil

/-! ### Translation -/

/-- Translation depends on the MMU state alone. -/
theorem State.translate_congr {s t : State} (h1 : t.mmuEnabled = s.mmuEnabled) (h2 : t.mmuTable = s.mmuTable)
    (va : Nat) : t.translate va = s.translate va := by
  simp only [State.translate, h1, h2]

/-- Whether an address is special depends on the parameters alone. -/
theorem State.isSpecial_congr {s t : State} (h : t.params = s.params) (pa : Nat) : t.isSpecial pa = s.isSpecial pa := by
  simp only [State.isSpecial, h]

/-- The mapping that decides is the first that covers the address (20_memory.md R75). -/
theorem lookupMapping_append (before : List Mapping) (m : Mapping) (after : List Mapping) (va : Nat)
    (hb : ∀ b ∈ before, b.covers va = false) (hm : m.covers va = true) :
    lookupMapping (before ++ m :: after) va = some (m.pbase + (va - m.vaddr.toNat)) := by
  induction before with
  | nil => simp [lookupMapping, hm]
  | cons b bs ih =>
    have h1 : b.covers va = false := hb b (by simp)
    simpa [lookupMapping, h1] using ih fun c hc => hb c (by simp [hc])

/-- No mapping covers the address: nothing is found (20_memory.md R75). -/
theorem lookupMapping_none (ms : List Mapping) (va : Nat) (h : ∀ m ∈ ms, m.covers va = false) :
    lookupMapping ms va = none := by
  induction ms with
  | nil => rfl
  | cons m ms ih =>
    have h1 : m.covers va = false := h m (by simp)
    simpa [lookupMapping, h1] using ih fun c hc => h c (by simp [hc])

theorem Mapping.covers_iff (m : Mapping) (va : Nat) :
    m.covers va = true ↔ m.vaddr.toNat ≤ va ∧ va < m.vaddr.toNat + m.size := by
  simp [Mapping.covers]

/-! ### One byte -/

/-- What a physical byte read can do (20_memory.md R52). -/
theorem State.physRead8_cases (s : State) (pa : Nat) :
    (s.params.memSize ≤ pa ∧ s.physRead8 pa = .error (.addressError pa)) ∨
      (pa < s.params.memSize ∧ s.isSpecial pa = true ∧ s.physRead8 pa = .ok (s.drawnByte pa, s.logCalls [.get pa])) ∨
      (pa < s.params.memSize ∧ s.isSpecial pa = false ∧ s.physRead8 pa = .ok (s.mem.read pa, s)) := by
  unfold State.physRead8
  by_cases h : s.params.memSize ≤ pa
  · exact .inl ⟨h, if_pos h⟩
  · refine .inr ?_
    rw [if_neg h]
    cases hs : s.isSpecial pa
    · exact .inr ⟨Nat.lt_of_not_le h, rfl, by simp⟩
    · exact .inl ⟨Nat.lt_of_not_le h, rfl, by simp⟩

/-- What a physical byte write can do (20_memory.md R53). -/
theorem State.physWrite8_cases (s : State) (pa : Nat) (b : Byte) :
    (s.params.memSize ≤ pa ∧ s.physWrite8 pa b = .error (.addressError pa)) ∨
      (pa < s.params.memSize ∧ s.isSpecial pa = true ∧ s.physWrite8 pa b = .ok (s.logCalls [.set pa b])) ∨
      (pa < s.params.memSize ∧ s.isSpecial pa = false ∧
        s.physWrite8 pa b = .ok (s.setMem (s.mem.write pa b))) := by
  unfold State.physWrite8
  by_cases h : s.params.memSize ≤ pa
  · exact .inl ⟨h, if_pos h⟩
  · refine .inr ?_
    rw [if_neg h]
    cases hs : s.isSpecial pa
    · exact .inr ⟨Nat.lt_of_not_le h, rfl, by simp⟩
    · exact .inl ⟨Nat.lt_of_not_le h, rfl, by simp⟩

/-- The device calls of reading the byte at physical address `pa`: one `get` at a special address, else none. -/
def State.getCall (s : State) (pa : Nat) : List DeviceCall := if s.isSpecial pa then [.get pa] else []

/-- The device calls of writing `b` at physical address `pa`: one `set` at a special address, else none. -/
def State.setCall (s : State) (pa : Nat) (b : Byte) : List DeviceCall := if s.isSpecial pa then [.set pa b] else []

/-- A byte read that answers: the address translates and exists, an ordinary byte is memory's, and only the device log grows. -/
theorem State.readByte_ok (s t : State) (va : Nat) (b : Byte) (h : s.readByte va = .ok (b, t)) :
    ∃ pa, s.translate va = .ok pa ∧ pa < s.params.memSize ∧ (s.isSpecial pa = false → b = s.mem.read pa) ∧
      t = s.logCalls (s.getCall pa) := by
  unfold State.readByte at h
  cases htr : s.translate va with
  | error f => rw [htr] at h; simp at h
  | ok pa =>
    rw [htr] at h
    refine ⟨pa, rfl, ?_⟩
    rcases s.physRead8_cases pa with ⟨_, e⟩ | ⟨hlt, hs, e⟩ | ⟨hlt, hs, e⟩
    · simp [e] at h
    · simp only [e, Except.ok.injEq, Prod.mk.injEq] at h
      exact ⟨hlt, by simp [hs], by simp [← h.2, State.getCall, hs]⟩
    · simp only [e, Except.ok.injEq, Prod.mk.injEq] at h
      exact ⟨hlt, fun _ => h.1.symm, by simp [← h.2, State.getCall, hs]⟩

/-- A byte at an address that translates and exists can be read. -/
theorem State.readByte_of_accessible (s : State) (va pa : Nat) (h : s.translate va = .ok pa)
    (hlt : pa < s.params.memSize) : ∃ b, s.readByte va = .ok (b, s.logCalls (s.getCall pa)) := by
  unfold State.readByte
  rw [h]
  rcases s.physRead8_cases pa with ⟨hle, _⟩ | ⟨_, hs, e⟩ | ⟨_, hs, e⟩
  · omega
  · exact ⟨_, by simp [e, State.getCall, hs]; rfl⟩
  · exact ⟨_, by simp [e, State.getCall, hs]; rfl⟩

/-- A byte write that answers: the address translates and exists; an ordinary byte goes to memory, a special one to the
device, and nothing else changes. -/
theorem State.writeByte_ok (s t : State) (va : Nat) (b : Byte) (h : s.writeByte va b = .ok t) :
    ∃ pa, s.translate va = .ok pa ∧ pa < s.params.memSize ∧
      t = (s.setMem (if s.isSpecial pa then s.mem else s.mem.write pa b)).logCalls (s.setCall pa b) := by
  unfold State.writeByte at h
  cases htr : s.translate va with
  | error f => rw [htr] at h; simp at h
  | ok pa =>
    rw [htr] at h
    refine ⟨pa, rfl, ?_⟩
    rcases s.physWrite8_cases pa b with ⟨_, e⟩ | ⟨hlt, hs, e⟩ | ⟨hlt, hs, e⟩
    · simp [e] at h
    · simp only [e, Except.ok.injEq] at h
      exact ⟨hlt, by simp [← h, State.setCall, hs]⟩
    · simp only [e, Except.ok.injEq] at h
      exact ⟨hlt, by simp [← h, State.setCall, hs]⟩

/-- A byte at an address that translates and exists can be written. -/
theorem State.writeByte_of_accessible (s : State) (va pa : Nat) (b : Byte) (h : s.translate va = .ok pa)
    (hlt : pa < s.params.memSize) : ∃ t, s.writeByte va b = .ok t := by
  unfold State.writeByte
  rw [h]
  rcases s.physWrite8_cases pa b with ⟨hle, _⟩ | ⟨_, _, e⟩ | ⟨_, _, e⟩
  · omega
  · exact ⟨_, e⟩
  · exact ⟨_, e⟩

/-- An address that does not translate faults as the translation does, for reading and for writing. -/
theorem State.byte_fault_of_translate (s : State) (va : Nat) (b : Byte) (f : Fault) (h : s.translate va = .error f) :
    s.readByte va = .error f ∧ s.writeByte va b = .error f := by
  simp [State.readByte, State.writeByte, h]

/-- A physical address beyond memory faults with AddressError, for reading and for writing. -/
theorem State.byte_fault_of_beyond (s : State) (va pa : Nat) (b : Byte) (h : s.translate va = .ok pa)
    (hle : s.params.memSize ≤ pa) :
    s.readByte va = .error (.addressError pa) ∧ s.writeByte va b = .error (.addressError pa) := by
  simp [State.readByte, State.writeByte, h, State.physRead8, State.physWrite8, hle]

/-! ### Several bytes -/

/-- A read of `n` bytes that answers gives `n` bytes and changes nothing but the device log, which only grows. -/
theorem readBytes_ok (n va : Nat) (s t : State) (bs : List Byte) (h : readBytes n va s = .ok (bs, t)) :
    bs.length = n ∧ ∃ calls, t = s.logCalls calls := by
  induction n generalizing va s t bs with
  | zero =>
    simp only [readBytes, Except.ok.injEq, Prod.mk.injEq] at h
    exact ⟨by simp [← h.1], [], by simp [← h.2]⟩
  | succ n ih =>
    simp only [readBytes] at h
    split at h
    · simp at h
    · rename_i b s1 hb
      obtain ⟨pa, _, _, _, rfl⟩ := s.readByte_ok s1 va b hb
      split at h
      · simp at h
      · rename_i bs' s2 hbs
        obtain ⟨hl, calls, hs2⟩ := ih _ _ _ _ hbs
        simp only [Except.ok.injEq, Prod.mk.injEq] at h
        exact ⟨by simp [← h.1, hl], _, by rw [← h.2, hs2, State.logCalls_logCalls]⟩

/-- A sized read that answers changes nothing but the device log (20_memory.md R60). -/
theorem State.memRead_ok (s t : State) (va n : Nat) (v : Word) (h : s.memRead va n = .ok (v, t)) :
    ∃ bs calls, bs.length = n ∧ v = wordOfBytes bs ∧ t = s.logCalls calls := by
  unfold State.memRead at h
  split at h
  · simp at h
  · rename_i bs s' hbs
    obtain ⟨hl, calls, rfl⟩ := readBytes_ok n va s s' bs hbs
    simp only [Except.ok.injEq, Prod.mk.injEq] at h
    exact ⟨bs, calls, hl, h.1.symm, h.2.symm⟩

/-- A write of bytes that answers changes memory and the device log alone; memory keeps its canonical form and its range. -/
theorem writeBytes_ok (bs : List Byte) (va : Nat) (s t : State) (h : writeBytes bs va s = .ok t) :
    (∃ m calls, t = (s.setMem m).logCalls calls) ∧ (s.mem.wf → t.mem.wf) ∧
      ((∀ c ∈ s.mem, c.1 < s.params.memSize) → ∀ c ∈ t.mem, c.1 < t.params.memSize) := by
  induction bs generalizing va s t with
  | nil =>
    simp only [writeBytes, Except.ok.injEq] at h
    exact ⟨⟨s.mem, [], by simp [← h]⟩, by simp [← h], by simp [← h]⟩
  | cons b bs ih =>
    simp only [writeBytes] at h
    split at h
    · simp at h
    · rename_i s1 hb
      obtain ⟨pa, _, hlt, rfl⟩ := s.writeByte_ok s1 va b hb
      obtain ⟨⟨m, calls, ht⟩, hwf, hrange⟩ := ih _ _ _ h
      refine ⟨⟨m, s.setCall pa b ++ calls, by rw [ht, State.setMem_logCalls, State.setMem_setMem, State.logCalls_logCalls]⟩, fun hw => hwf ?_, fun hr => hrange ?_⟩
      · show (if s.isSpecial pa then s.mem else s.mem.write pa b).wf
        split
        · exact hw
        · exact Memory.wf_write _ _ _ hw
      · show ∀ c ∈ (if s.isSpecial pa then s.mem else s.mem.write pa b), c.1 < s.params.memSize
        intro c hc
        split at hc
        · exact hr c hc
        · rcases Memory.addr_of_mem_write _ _ _ _ hc with e | hc
          · rw [e]; exact hlt
          · exact hr c hc

/-- A sized write that answers changes memory and the device log alone (20_memory.md R61). -/
theorem State.memWrite_ok (s t : State) (va n : Nat) (v : Word) (h : s.memWrite va n v = .ok t) :
    (∃ m calls, t = (s.setMem m).logCalls calls) ∧ (s.mem.wf → t.mem.wf) ∧
      ((∀ c ∈ s.mem, c.1 < s.params.memSize) → ∀ c ∈ t.mem, c.1 < t.params.memSize) :=
  writeBytes_ok _ va s t h

/-! ### Which faults an access can raise -/

/-- The faults of a memory access: its translation's, or an address that does not exist (60_exceptions.md R273, R274). -/
def Fault.OfAccess (f : Fault) : Prop := (∃ va, f = .unmappedPage va) ∨ ∃ pa, f = .addressError pa

/-- A translation that faults finds no mapping (20_memory.md R75). -/
theorem State.translate_error (s : State) (va : Nat) (f : Fault) (h : s.translate va = .error f) :
    f = .unmappedPage va := by
  unfold State.translate at h
  cases he : s.mmuEnabled <;> cases hl : lookupMapping s.mmuTable va <;> simp [he, hl] at h
  exact h.symm

theorem State.readByte_error (s : State) (va : Nat) (f : Fault) (h : s.readByte va = .error f) : f.OfAccess := by
  unfold State.readByte at h
  split at h
  · rename_i g hg
    exact .inl ⟨va, by rw [← Except.error.inj h]; exact s.translate_error va g hg⟩
  · rename_i pa _
    rcases s.physRead8_cases pa with ⟨_, hr⟩ | ⟨_, _, hr⟩ | ⟨_, _, hr⟩ <;> simp [hr] at h
    exact .inr ⟨pa, h.symm⟩

theorem State.writeByte_error (s : State) (va : Nat) (b : Byte) (f : Fault) (h : s.writeByte va b = .error f) :
    f.OfAccess := by
  unfold State.writeByte at h
  split at h
  · rename_i g hg
    exact .inl ⟨va, by rw [← Except.error.inj h]; exact s.translate_error va g hg⟩
  · rename_i pa _
    rcases s.physWrite8_cases pa b with ⟨_, hr⟩ | ⟨_, _, hr⟩ | ⟨_, _, hr⟩ <;> simp [hr] at h
    exact .inr ⟨pa, h.symm⟩

theorem readBytes_error (n va : Nat) (s : State) (f : Fault) (h : readBytes n va s = .error f) : f.OfAccess := by
  induction n generalizing va s with
  | zero => simp [readBytes] at h
  | succ n ih =>
    simp only [readBytes] at h
    split at h
    · rename_i g hg; exact s.readByte_error va f (by rw [hg, Except.error.inj h])
    · split at h
      · rename_i g hg; exact ih _ _ (by rw [hg, Except.error.inj h])
      · simp at h

theorem writeBytes_error (bs : List Byte) (va : Nat) (s : State) (f : Fault) (h : writeBytes bs va s = .error f) :
    f.OfAccess := by
  induction bs generalizing va s with
  | nil => simp [writeBytes] at h
  | cons b bs ih =>
    simp only [writeBytes] at h
    split at h
    · rename_i g hg; exact s.writeByte_error va b f (by rw [hg, Except.error.inj h])
    · exact ih _ _ h

/-- A sized read faults as an access does (20_memory.md R60). -/
theorem State.memRead_error (s : State) (va n : Nat) (f : Fault) (h : s.memRead va n = .error f) : f.OfAccess := by
  unfold State.memRead at h
  split at h
  · rename_i g hg; exact readBytes_error n va s f (by rw [hg, Except.error.inj h])
  · simp at h

/-- A sized write faults as an access does (20_memory.md R61). -/
theorem State.memWrite_error (s : State) (va n : Nat) (v : Word) (f : Fault) (h : s.memWrite va n v = .error f) :
    f.OfAccess := writeBytes_error _ va s f h

/-! ### Fetch, interrupts, outcomes -/

/-- The fault past the top of the address space is one of an access (10_state.md R26). -/
theorem State.fetchPastTop_ofAccess (s : State) : s.fetchPastTop.OfAccess := by
  unfold State.fetchPastTop
  split
  · rename_i f hf; exact .inl ⟨_, s.translate_error _ f hf⟩
  · exact .inr ⟨_, rfl⟩

/-- A fetched word has its four byte addresses below 2^32 and is what a sized read gives (10_state.md R26, 20_memory.md R64). -/
theorem State.fetchWord_ok (s t : State) (w : Word) (h : s.fetchWord = .ok (w, t)) :
    s.pc.toNat + 4 ≤ 2 ^ 32 ∧ s.memRead s.pc.toNat 4 = .ok (w, t) := by
  unfold State.fetchWord at h
  split at h
  · rename_i hle; exact ⟨hle, h⟩
  · split at h <;> simp at h

/-- A fetch below the top is a sized read (20_memory.md R64). -/
theorem State.fetchWord_eq (s : State) (h : s.pc.toNat + 4 ≤ 2 ^ 32) : s.fetchWord = s.memRead s.pc.toNat 4 :=
  if_pos h

/-- A fetch above 0xFFFFFFFC faults: as the bytes below 2^32 do, else past the top (10_state.md R26). -/
theorem State.fetchWord_past (s : State) (h : 2 ^ 32 < s.pc.toNat + 4) :
    s.fetchWord =
      match s.memRead s.pc.toNat (2 ^ 32 - s.pc.toNat) with
      | .error f => .error f
      | .ok (_, s') => .error s'.fetchPastTop :=
  if_neg (Nat.not_le.mpr h)

/-- A fetch faults as an access does. -/
theorem State.fetchWord_error (s : State) (f : Fault) (h : s.fetchWord = .error f) : f.OfAccess := by
  unfold State.fetchWord at h
  split at h
  · exact s.memRead_error _ _ f h
  · split at h
    · rename_i g hg; exact s.memRead_error _ _ f (by rw [hg, Except.error.inj h])
    · rename_i s' _; rw [← Except.error.inj h]; exact s'.fetchPastTop_ofAccess

/-- A fetch that answers read the word at `pc`, whose bytes exist, advances `pc` and changes nothing else but the device log
(40_fetch_dispatch.md R132, 10_state.md R26). -/
theorem State.fetch_ok (s t : State) (w : Word) (h : s.fetch = .ok (w, t)) :
    ∃ s' calls, s.pc.toNat + 4 ≤ 2 ^ 32 ∧ s.memRead s.pc.toNat 4 = .ok (w, s') ∧ s' = s.logCalls calls ∧
      t = s'.advancePc := by
  unfold State.fetch at h
  split at h
  · simp at h
  · rename_i w' s' hr
    obtain ⟨rfl, rfl⟩ : w' = w ∧ s'.advancePc = t := by simpa using h
    obtain ⟨hle, hm⟩ := s.fetchWord_ok s' w' hr
    obtain ⟨_, calls, _, _, hs⟩ := s.memRead_ok s' _ _ w' hm
    exact ⟨s', calls, hle, hm, hs, rfl⟩

/-- A fetch changes no parameter. -/
theorem State.fetch_params (s t : State) (w : Word) (h : s.fetch = .ok (w, t)) : t.params = s.params := by
  obtain ⟨_, _, _, _, rfl, rfl⟩ := s.fetch_ok t w h
  rfl

/-- What the drain can do (60_exceptions.md R285). -/
theorem State.drain_ok (s t : State) (h : s.drain = .ok t) :
    (s.ivQueue = [] ∧ t = s) ∨
      ∃ n rest, s.ivQueue = n :: rest ∧ n < s.params.ivSlots ∧ t = { s with ivQueue := rest }.enterInterrupt n := by
  unfold State.drain at h
  split at h
  · rename_i hq
    exact .inl ⟨hq, by simpa using h.symm⟩
  · rename_i n rest hq
    split at h
    · simp at h
    · rename_i hlt
      exact .inr ⟨n, rest, hq, Nat.lt_of_not_le hlt, by simpa using h.symm⟩

/-- The drain faults only for a number at or beyond IV_SLOTS (60_exceptions.md R285). -/
theorem State.drain_error (s : State) (f : Fault) (h : s.drain = .error f) :
    ∃ n rest, s.ivQueue = n :: rest ∧ s.params.ivSlots ≤ n ∧ f = .badInterruptNumber n := by
  unfold State.drain at h
  split at h
  · simp at h
  · rename_i n rest hq
    split at h
    · rename_i hle
      exact ⟨n, rest, hq, hle, by simpa using h.symm⟩
    · simp at h

/-- An outcome made from a result is a next state exactly when the result is that state. -/
@[simp] theorem finish_eq_next (r : Except Fault State) (t : State) : finish r = .next t ↔ r = .ok t := by
  cases r <;> simp [finish]

/-- ... and a fault exactly when the result is that fault. -/
@[simp] theorem finish_eq_fault (r : Except Fault State) (f : Fault) : finish r = .fault f ↔ r = .error f := by
  cases r <;> simp [finish]

@[simp] theorem finish_ne_refused (r : Except Fault State) (q : Refusal) : finish r ≠ .refused q := by
  cases r <;> simp [finish]

/-- What one iteration can do when it answers a next state (40_fetch_dispatch.md R130). -/
theorem cycle_next (s t : State) (h : cycle s = .next t) :
    (s.run = .halted ∧ t = s) ∨
      ∃ s1 s2 w i, s.run = .running ∧ s.drain = .ok s1 ∧ s1.fetch = .ok (w, s2) ∧ decodeWord s2.params.opcodes w = .ok i ∧
        exec i s2 = .next t := by
  unfold cycle at h
  split at h
  · rename_i hr
    exact .inl ⟨hr, by simpa using h.symm⟩
  · simp at h
  · rename_i hr
    split at h
    · simp at h
    · rename_i s1 hd
      unfold fetchDecodeExecute at h
      split at h
      · simp at h
      · rename_i w s2 hf
        unfold decodeExecute at h
        split at h
        · rename_i i hi
          exact .inr ⟨s1, s2, w, i, hr, hd, hf, hi, h⟩
        · simp at h

/-- The same for a step. -/
theorem step_next (s t : State) (h : step s = .next t) :
    (s.run = .halted ∧ t = s) ∨
      ∃ s1 s2 w i, s.run = .running ∧ s.drain = .ok s1 ∧ s1.fetch = .ok (w, s2) ∧ decodeWord s2.params.opcodes w = .ok i ∧
        exec i s2 = .next t :=
  cycle_next s t h

end Sys2Proof.Machine
end

