-- ==== Sys2Proof/Laws/Meanings.lean ====
section
/-! SUPPORT. One lemma per operation that several meanings share: everything it can do when it answers, and every fault
it can raise. -/
namespace Sys2Proof.Machine

/-! ### Loads, arithmetic, stack -/

/-- A load that answers wrote one register; beside it only the device log grew (41_load_store.md R164). -/
theorem State.loadInto_ok (s t : State) (d : RegIdx) (ea n : Nat) (h : s.loadInto d ea n = .ok t) :
    ∃ bs calls, bs.length = n ∧ t = (s.logCalls calls).setReg d (wordOfBytes bs) := by
  unfold State.loadInto at h
  split at h
  · simp at h
  · rename_i v s' hr
    obtain ⟨bs, calls, hl, rfl, rfl⟩ := s.memRead_ok s' ea n v hr
    exact ⟨bs, calls, hl, (Except.ok.inj h).symm⟩

/-- A load faults as its access does (41_load_store.md R164). -/
theorem State.loadInto_error (s : State) (d : RegIdx) (ea n : Nat) (f : Fault) (h : s.loadInto d ea n = .error f) :
    f.OfAccess := by
  unfold State.loadInto at h
  split at h
  · rename_i g hg; exact s.memRead_error ea n f (by rw [hg, Except.error.inj h])
  · simp at h

/-- An arithmetic operation that answers wrote its truncated value to `tgt(sx)` alone (43_arithmetic.md R180). -/
theorem State.arithInto_ok (s t : State) (op : Nat → Nat → Nat → Except Fault Int) (rx ry : Sel) (ib : Nat)
    (h : s.arithInto op rx ry ib = .ok t) :
    ∃ v, op (s.val rx).toNat (s.val ry).toNat ib = .ok v ∧ t = s.setReg (tgt rx) (trunc32 v) := by
  unfold State.arithInto at h
  split at h
  · simp at h
  · rename_i v hv; exact ⟨v, hv, (Except.ok.inj h).symm⟩

/-- It faults as the operation does. -/
theorem State.arithInto_error (s : State) (op : Nat → Nat → Nat → Except Fault Int) (rx ry : Sel) (ib : Nat) (f : Fault)
    (h : s.arithInto op rx ry ib = .error f) : op (s.val rx).toNat (s.val ry).toNat ib = .error f := by
  unfold State.arithInto at h
  split at h
  · rename_i g hg; rw [hg, Except.error.inj h]
  · simp at h

/-- DIV and MOD fault with DivisionByZero, for a zero divisor (43_arithmetic.md R185). -/
theorem aluDiv_error (a b c : Nat) (f : Fault) (h : aluDiv a b c = .error f) : f = .divisionByZero ∧ (b = 0 ∨ c = 0) := by
  unfold aluDiv at h
  split at h
  · exact ⟨(Except.error.inj h).symm, .inl (by assumption)⟩
  · split at h
    · exact ⟨(Except.error.inj h).symm, .inr (by assumption)⟩
    · simp at h

theorem aluMod_error (a b c : Nat) (f : Fault) (h : aluMod a b c = .error f) : f = .divisionByZero ∧ (b = 0 ∨ c = 0) := by
  unfold aluMod at h
  split at h
  · exact ⟨(Except.error.inj h).symm, .inl (by assumption)⟩
  · split at h
    · exact ⟨(Except.error.inj h).symm, .inr (by assumption)⟩
    · simp at h

/-- A push that answers passed the bound's check, decremented the pointer and stored there (48_stack.md R261). -/
theorem State.pushWord_ok (s t : State) (p : RegIdx) (v : Word) (h : s.pushWord p v = .ok t) :
    pushOverflows s.params.stackBound (s.reg p) = false ∧
      (s.decrementPtr p).memWrite ((s.decrementPtr p).reg p).toNat Config.wordSize v = .ok t := by
  unfold State.pushWord at h
  split at h
  · simp at h
  · rename_i hb
    exact ⟨Bool.eq_false_of_not_eq_true hb, h⟩

/-- A push faults on the bound, or as its store does (48_stack.md R263). -/
theorem State.pushWord_error (s : State) (p : RegIdx) (v : Word) (f : Fault) (h : s.pushWord p v = .error f) :
    (pushOverflows s.params.stackBound (s.reg p) = true ∧ f = .stackOverflow) ∨
      (pushOverflows s.params.stackBound (s.reg p) = false ∧ f.OfAccess) := by
  unfold State.pushWord at h
  split at h
  · exact .inl ⟨by assumption, (Except.error.inj h).symm⟩
  · rename_i hb
    exact .inr ⟨Bool.eq_false_of_not_eq_true hb, State.memWrite_error _ _ _ _ _ h⟩

/-- A pop that answers passed the bound's check, loaded, incremented the pointer and wrote the value last (48_stack.md R262). -/
theorem State.popWord_ok (s t : State) (p d : RegIdx) (h : s.popWord p d = .ok t) :
    popUnderflows s.params.stackBound (s.reg p) = false ∧
      ∃ v s', s.memRead (s.reg p).toNat Config.wordSize = .ok (v, s') ∧
        t = (s'.setReg p (s.reg p + wordStep)).setReg d v := by
  unfold State.popWord at h
  split at h
  · simp at h
  · split at h
    · simp at h
    · rename_i hb _ v s' hr
      exact ⟨by simpa using hb, v, s', hr, (Except.ok.inj h).symm⟩

/-- A pop faults on the bound, or as its load does (48_stack.md R263). -/
theorem State.popWord_error (s : State) (p d : RegIdx) (f : Fault) (h : s.popWord p d = .error f) :
    (popUnderflows s.params.stackBound (s.reg p) = true ∧ f = .stackUnderflow) ∨
      (popUnderflows s.params.stackBound (s.reg p) = false ∧ f.OfAccess) := by
  unfold State.popWord at h
  split at h
  · exact .inl ⟨by assumption, (Except.error.inj h).symm⟩
  · rename_i hb
    split at h
    · rename_i g hg
      exact .inr ⟨by simpa using hb, State.memRead_error _ _ _ f (by rw [hg, Except.error.inj h])⟩
    · simp at h

/-! ### The page-table walk -/

/-- A walk whose entries each keep a property keeps it as a whole. -/
theorem walkEntries_keeps (P : Walk → Prop) (sub : Word → Walk → Except Fault Walk) (es : List Word)
    (hleaf : ∀ e ∈ es, isSubtable e = false → ∀ w, P w → P (w.addLeaf e))
    (hsub : ∀ e w w', sub e w = .ok w' → P w → P w') (w w' : Walk) (h : walkEntries sub es w = .ok w') (hw : P w) :
    P w' := by
  induction es generalizing w with
  | nil => rw [← Except.ok.inj h]; exact hw
  | cons e es ih =>
    simp only [walkEntries] at h
    have hl := fun e' he' => hleaf e' (List.mem_cons_of_mem _ he')
    split at h
    · split at h
      · simp at h
      · rename_i w1 h1
        exact ih hl w1 h (hsub e w w1 h1 hw)
    · rename_i hs
      exact ih hl _ h (hleaf e (by simp) (by simpa using hs) w hw)

/-- The entries a scan of canonical memory gives are present. -/
theorem isPresent_of_mem (m : Memory) (hm : m.wf) (pos n : Nat) (e : Word) (h : e ∈ presentEntries m pos n) :
    isPresent e = true := by
  obtain ⟨c, hc, h⟩ := List.mem_filterMap.mp h
  split at h
  · rename_i hp
    obtain ⟨h1, _, _, h4⟩ := hp
    have hr := Memory.read_of_mem m hm c hc
    have h1' : c.1 - 1 + 1 = c.1 := by omega
    rw [← Option.some.inj h]
    simp only [isPresent, tableWord, wordOfBytes, h1', hr]
    simpa using h4
  · simp at h

/-- An expansion keeps every property that appending a present leaf keeps. -/
theorem expandTable_keeps (P : Walk → Prop) (memSize : Nat) (m : Memory) (hm : m.wf)
    (hleaf : ∀ e w, isPresent e = true → isSubtable e = false → P w → P (w.addLeaf e)) (fuel : Nat) (path : List TableKey)
    (pos count : Nat) (w w' : Walk) (h : expandTable memSize m fuel path pos count w = .ok w') (hw : P w) : P w' := by
  induction fuel generalizing path pos count w w' with
  | zero => simp [expandTable] at h
  | succ fuel ih =>
    simp only [expandTable] at h
    split at h
    · simp at h
    · rename_i w1 h1
      have h1' : P w1 := by
        refine walkEntries_keeps P _ _ ?_ ?_ w w1 h1 hw
        · exact fun e he hs v hv => hleaf e v (isPresent_of_mem m hm _ _ e he) hs hv
        · intro e v v' hv hp
          split at hv
          · simp at hv
          · exact ih _ _ _ _ _ hv hp
      split at h
      · simp at h
      · rw [← Except.ok.inj h]; exact h1'

/-- The faults of an expansion: a table beyond memory, or one that reaches itself (20_memory.md R72, R74). -/
theorem expandTable_error (memSize : Nat) (m : Memory) (fuel : Nat) (path : List TableKey) (pos count : Nat) (w : Walk)
    (f : Fault) (h : expandTable memSize m fuel path pos count w = .error f) :
    (∃ pa, f = .addressError pa) ∨ f = .tableNeverEnds := by
  have walk : ∀ (sub : Word → Walk → Except Fault Walk),
      (∀ e v g, sub e v = .error g → (∃ pa, g = .addressError pa) ∨ g = .tableNeverEnds) →
      ∀ es v g, walkEntries sub es v = .error g → (∃ pa, g = .addressError pa) ∨ g = .tableNeverEnds := by
    intro sub hsub es
    induction es with
    | nil => intro v g hg; simp [walkEntries] at hg
    | cons e es ih =>
      intro v g hg
      simp only [walkEntries] at hg
      split at hg
      · split at hg
        · rename_i g' hg'; exact hsub e v g (by rw [hg', Except.error.inj hg])
        · exact ih _ _ hg
      · exact ih _ _ hg
  induction fuel generalizing path pos count w f with
  | zero => exact .inr (Except.error.inj h).symm
  | succ fuel ih =>
    simp only [expandTable] at h
    split at h
    · rename_i g hg
      refine walk _ ?_ _ _ f (by rw [hg, Except.error.inj h])
      intro e v g' hg'
      split at hg'
      · exact .inr (Except.error.inj hg').symm
      · exact ih _ _ _ _ _ hg'
    · split at h
      · exact .inl ⟨_, (Except.error.inj h).symm⟩
      · simp at h

/-- The walk so far is linear, and its running sum is where the next leaf goes (20_memory.md R73). -/
def Walk.Linear (w : Walk) : Prop :=
  LinearFrom 0 w.table ∧ w.sum = (w.table.map Mapping.size).sum

theorem linearFrom_append (ms : List Mapping) (m : Mapping) (sum : Nat) (h : LinearFrom sum ms)
    (hm : LinearFrom (sum + (ms.map Mapping.size).sum) [m]) : LinearFrom sum (ms ++ [m]) := by
  induction ms generalizing sum with
  | nil => simpa using hm
  | cons a ms ih =>
    obtain ⟨h1, h2, h3, h4, h5, h6⟩ := h
    refine ⟨h1, h2, h3, h4, h5, ih _ h6 ?_⟩
    simpa [Nat.add_assoc] using hm

theorem leafSize_mem (sc : BitVec 2) : leafSize sc ∈ [4096, 65536, 1048576, 67108864] := by
  revert sc; decide

theorem entryAddr_aligned (e : Word) : (entryAddr e).toNat % 4096 = 0 := by
  have : (4096 : Nat) = 2 ^ 12 := rfl
  refine Nat.eq_of_testBit_eq fun i => ?_
  rw [this, Nat.testBit_mod_two_pow]
  by_cases hi : i < 12
  · have hm : ∀ j, j < 12 → Nat.testBit 0xFFFFF000 j = false := by decide
    simp [entryAddr, hi, hm i hi]
  · simp [hi]

/-- Appending a present leaf keeps the walk linear (20_memory.md R72, R73). -/
theorem Walk.linear_addLeaf (e : Word) (w : Walk) (hp : isPresent e = true) (hs : isSubtable e = false) (h : w.Linear) :
    (w.addLeaf e).Linear := by
  refine ⟨linearFrom_append _ _ _ h.1 ⟨?_, leafSize_mem _, entryAddr_aligned e, ?_, ?_, trivial⟩, ?_⟩
  · simp [h.2]
  · simpa [isSubtable] using hs
  · simpa [isPresent] using hp
  · simp [Walk.addLeaf, h.2]

/-- MMUInit changes the table alone, and on canonical memory the new table is linear (20_memory.md R72, R73). -/
theorem State.mmuInit_ok (s t : State) (pos count : Nat) (h : s.mmuInit pos count = .ok t) :
    (∃ ms, t = { s with mmuTable := ms }) ∧ (s.mem.wf → LinearFrom 0 t.mmuTable) := by
  unfold State.mmuInit at h
  split at h
  · simp at h
  · rename_i w hw
    rw [← Except.ok.inj h]
    refine ⟨⟨w.table, rfl⟩, fun hm => ?_⟩
    exact (expandTable_keeps Walk.Linear _ _ hm (fun e v hp hs hv => Walk.linear_addLeaf e v hp hs hv) _ _ _ _ _ _ hw
      ⟨trivial, rfl⟩).1

/-- MMUInit faults as the expansion does. -/
theorem State.mmuInit_error (s : State) (pos count : Nat) (f : Fault) (h : s.mmuInit pos count = .error f) :
    (∃ pa, f = .addressError pa) ∨ f = .tableNeverEnds := by
  unfold State.mmuInit at h
  split at h
  · rename_i g hg; exact expandTable_error _ _ _ _ _ _ _ f (by rw [hg, Except.error.inj h])
  · simp at h

/-- MMUCFG's initialize changes the table alone (47_mmu_config.md R250). -/
theorem State.initializeMmu_ok (s t : State) (rx ry : Sel) (h : s.initializeMmu rx ry = .ok t) :
    (∃ ms, t = { s with mmuTable := ms }) ∧ (s.mem.wf → LinearFrom 0 s.mmuTable → LinearFrom 0 t.mmuTable) := by
  cases rx with
  | none => rw [← Except.ok.inj h]; exact ⟨⟨s.mmuTable, rfl⟩, fun _ h => h⟩
  | some r => exact ⟨(s.mmuInit_ok t _ _ h).1, fun hm _ => (s.mmuInit_ok t _ _ h).2 hm⟩

/-- MMUCFG's initialize faults as MMUInit does. -/
theorem State.initializeMmu_error (s : State) (rx ry : Sel) (f : Fault) (h : s.initializeMmu rx ry = .error f) :
    (∃ pa, f = .addressError pa) ∨ f = .tableNeverEnds := by
  cases rx with
  | none => simp [State.initializeMmu] at h
  | some r => exact s.mmuInit_error _ _ f h

/-! ### The agents around the core -/

/-- A raise changes at most the enable bit and the queue (60_exceptions.md R282). -/
theorem State.raiseInterrupt_eq (s : State) (n : Nat) :
    s.raiseInterrupt n = s ∨ s.raiseInterrupt n = { s with ivEnabled := false, ivQueue := s.ivQueue ++ [n] } := by
  unfold State.raiseInterrupt
  split
  · exact .inr rfl
  · exact .inl rfl

/-- Placing bytes changes memory alone, and keeps its canonical form (log entry 14). -/
theorem placeBytes_eq (bs : List Byte) (va : Nat) (s : State) :
    ∃ m, placeBytes bs va s = s.setMem m ∧ (s.mem.wf → m.wf) := by
  induction bs generalizing va s with
  | nil => exact ⟨s.mem, rfl, id⟩
  | cons b bs ih =>
    have byte : ∃ m, s.placeByte va b = s.setMem m ∧ (s.mem.wf → m.wf) := by
      unfold State.placeByte
      split
      · exact ⟨s.mem, rfl, id⟩
      · split
        · exact ⟨s.mem, rfl, id⟩
        · split
          · exact ⟨s.mem, rfl, id⟩
          · exact ⟨_, rfl, Memory.wf_write _ _ _⟩
    obtain ⟨m1, h1, hw1⟩ := byte
    obtain ⟨m2, h2, hw2⟩ := ih (va + 1) (s.setMem m1)
    exact ⟨m2, by rw [placeBytes, h1, h2, State.setMem_setMem], fun hw => hw2 (hw1 hw)⟩

end Sys2Proof.Machine
end

