-- ==== Sys2Proof/Laws/PerInstr.lean ====
section
/-! SUPPORT. A property of every instruction as syntax, one lemma per constructor: the word an instruction encodes to
carries, in its low byte, the byte the opcode map gives its mnemonic, by default that of 30_encoding.md R108. -/
namespace Sys2Proof.Laws

/-- The opcode byte of each row of 30_encoding.md R108, written out again from the table. -/
def OpcodeInLowByte.byte : Instr → Byte
  | .stop => 0x01
  | .iret => 0x02
  | .load8i _ => 0x10
  | .load16i _ => 0x11
  | .loadi _ => 0x12
  | .store8i _ => 0x13
  | .store16i _ => 0x14
  | .storei _ => 0x15
  | .load8 _ _ _ => 0x16
  | .load16 _ _ _ => 0x17
  | .load _ _ _ => 0x18
  | .store8 _ _ _ => 0x19
  | .store16 _ _ _ => 0x1A
  | .store _ _ _ => 0x1B
  | .mov _ _ _ => 0x20
  | .movi _ => 0x21
  | .swap _ _ _ => 0x22
  | .add _ _ _ => 0x30
  | .sub _ _ _ => 0x31
  | .mul _ _ _ => 0x32
  | .div _ _ _ => 0x33
  | .mod _ _ _ => 0x34
  | .shl _ _ _ => 0x40
  | .shr _ _ _ => 0x41
  | .and _ _ _ => 0x42
  | .or _ _ _ => 0x43
  | .xor _ _ _ => 0x44
  | .not _ => 0x45
  | .bi _ => 0x50
  | .b _ => 0x51
  | .bzi _ => 0x52
  | .bnzi _ => 0x53
  | .bz _ _ => 0x54
  | .bnz _ _ => 0x55
  | .beq _ _ _ => 0x56
  | .bne _ _ _ => 0x57
  | .brz _ _ _ => 0x58
  | .bsri _ => 0x59
  | .bsr _ => 0x5A
  | .rts => 0x5B
  | .intvec _ _ _ => 0x60
  | .seti => 0x61
  | .clri => 0x62
  | .mmucfg _ _ _ => 0x70
  | .push _ _ => 0x80
  | .pop _ _ => 0x81

/-- The mnemonic of an instruction. -/
def OpcodeInLowByte.mnemonic : Instr → Mnemonic
  | .stop => .stop
  | .iret => .iret
  | .load8i _ => .load8i
  | .load16i _ => .load16i
  | .loadi _ => .loadi
  | .store8i _ => .store8i
  | .store16i _ => .store16i
  | .storei _ => .storei
  | .load8 _ _ _ => .load8
  | .load16 _ _ _ => .load16
  | .load _ _ _ => .load
  | .store8 _ _ _ => .store8
  | .store16 _ _ _ => .store16
  | .store _ _ _ => .store
  | .mov _ _ _ => .mov
  | .movi _ => .movi
  | .swap _ _ _ => .swap
  | .add _ _ _ => .add
  | .sub _ _ _ => .sub
  | .mul _ _ _ => .mul
  | .div _ _ _ => .div
  | .mod _ _ _ => .mod
  | .shl _ _ _ => .shl
  | .shr _ _ _ => .shr
  | .and _ _ _ => .and
  | .or _ _ _ => .or
  | .xor _ _ _ => .xor
  | .not _ => .not
  | .bi _ => .bi
  | .b _ => .b
  | .bzi _ => .bzi
  | .bnzi _ => .bnzi
  | .bz _ _ => .bz
  | .bnz _ _ => .bnz
  | .beq _ _ _ => .beq
  | .bne _ _ _ => .bne
  | .brz _ _ _ => .brz
  | .bsri _ => .bsri
  | .bsr _ => .bsr
  | .rts => .rts
  | .intvec _ _ _ => .intvec
  | .seti => .seti
  | .clri => .clri
  | .mmucfg _ _ _ => .mmucfg
  | .push _ _ => .push
  | .pop _ _ => .pop

/-- Under every opcode map the low byte of the instruction's word is the byte the map gives its mnemonic, and the default
map gives it its row's byte. -/
def OpcodeInLowByte.Statement (i : Instr) : Prop :=
  (∀ map : OpcodeMap, opcodeField (encode map i) = map.byte (OpcodeInLowByte.mnemonic i)) ∧
    defaultOpcodes.byte (OpcodeInLowByte.mnemonic i) = OpcodeInLowByte.byte i

/-- The low byte of a packed word is the opcode, clipped (30_encoding.md R106). -/
theorem opcodeField_packWord (op bits : Nat) : opcodeField (packWord op bits) = BitVec.ofNat 8 op := by
  apply BitVec.eq_of_toNat_eq
  simp only [opcodeField, packWord, BitVec.extractLsb'_toNat, BitVec.toNat_ofNat, Nat.shiftRight_zero]
  omega

/-- A mnemonic's opcode byte comes back from the packed word. -/
theorem opcodeField_pack (map : OpcodeMap) (m : Mnemonic) (bits : Nat) :
    opcodeField (packWord (map.byte m).toNat bits) = map.byte m := by
  rw [opcodeField_packWord, BitVec.ofNat_toNat, BitVec.setWidth_eq]

theorem OpcodeInLowByte.stop : OpcodeInLowByte.Statement .stop :=
  ⟨fun map => opcodeField_pack map .stop _, rfl⟩
theorem OpcodeInLowByte.iret : OpcodeInLowByte.Statement .iret :=
  ⟨fun map => opcodeField_pack map .iret _, rfl⟩
theorem OpcodeInLowByte.load8i (imm24 : Nat) : OpcodeInLowByte.Statement (.load8i imm24) :=
  ⟨fun map => opcodeField_pack map .load8i _, rfl⟩
theorem OpcodeInLowByte.load16i (imm24 : Nat) : OpcodeInLowByte.Statement (.load16i imm24) :=
  ⟨fun map => opcodeField_pack map .load16i _, rfl⟩
theorem OpcodeInLowByte.loadi (imm24 : Nat) : OpcodeInLowByte.Statement (.loadi imm24) :=
  ⟨fun map => opcodeField_pack map .loadi _, rfl⟩
theorem OpcodeInLowByte.store8i (imm24 : Nat) : OpcodeInLowByte.Statement (.store8i imm24) :=
  ⟨fun map => opcodeField_pack map .store8i _, rfl⟩
theorem OpcodeInLowByte.store16i (imm24 : Nat) : OpcodeInLowByte.Statement (.store16i imm24) :=
  ⟨fun map => opcodeField_pack map .store16i _, rfl⟩
theorem OpcodeInLowByte.storei (imm24 : Nat) : OpcodeInLowByte.Statement (.storei imm24) :=
  ⟨fun map => opcodeField_pack map .storei _, rfl⟩
theorem OpcodeInLowByte.load8 (rx : Sel) (ry : Sel) (ib : Nat) : OpcodeInLowByte.Statement (.load8 rx ry ib) :=
  ⟨fun map => opcodeField_pack map .load8 _, rfl⟩
theorem OpcodeInLowByte.load16 (rx : Sel) (ry : Sel) (ib : Nat) : OpcodeInLowByte.Statement (.load16 rx ry ib) :=
  ⟨fun map => opcodeField_pack map .load16 _, rfl⟩
theorem OpcodeInLowByte.load (rx : Sel) (ry : Sel) (ib : Nat) : OpcodeInLowByte.Statement (.load rx ry ib) :=
  ⟨fun map => opcodeField_pack map .load _, rfl⟩
theorem OpcodeInLowByte.store8 (rx : Sel) (ry : Sel) (ib : Nat) : OpcodeInLowByte.Statement (.store8 rx ry ib) :=
  ⟨fun map => opcodeField_pack map .store8 _, rfl⟩
theorem OpcodeInLowByte.store16 (rx : Sel) (ry : Sel) (ib : Nat) : OpcodeInLowByte.Statement (.store16 rx ry ib) :=
  ⟨fun map => opcodeField_pack map .store16 _, rfl⟩
theorem OpcodeInLowByte.store (rx : Sel) (ry : Sel) (ib : Nat) : OpcodeInLowByte.Statement (.store rx ry ib) :=
  ⟨fun map => opcodeField_pack map .store _, rfl⟩
theorem OpcodeInLowByte.mov (rx : Sel) (ry : Sel) (ib : Nat) : OpcodeInLowByte.Statement (.mov rx ry ib) :=
  ⟨fun map => opcodeField_pack map .mov _, rfl⟩
theorem OpcodeInLowByte.movi (imm24 : Nat) : OpcodeInLowByte.Statement (.movi imm24) :=
  ⟨fun map => opcodeField_pack map .movi _, rfl⟩
theorem OpcodeInLowByte.swap (rx : Sel) (ry : Sel) (ib : Nat) : OpcodeInLowByte.Statement (.swap rx ry ib) :=
  ⟨fun map => opcodeField_pack map .swap _, rfl⟩
theorem OpcodeInLowByte.add (rx : Sel) (ry : Sel) (ib : Nat) : OpcodeInLowByte.Statement (.add rx ry ib) :=
  ⟨fun map => opcodeField_pack map .add _, rfl⟩
theorem OpcodeInLowByte.sub (rx : Sel) (ry : Sel) (ib : Nat) : OpcodeInLowByte.Statement (.sub rx ry ib) :=
  ⟨fun map => opcodeField_pack map .sub _, rfl⟩
theorem OpcodeInLowByte.mul (rx : Sel) (ry : Sel) (ib : Nat) : OpcodeInLowByte.Statement (.mul rx ry ib) :=
  ⟨fun map => opcodeField_pack map .mul _, rfl⟩
theorem OpcodeInLowByte.div (rx : Sel) (ry : Sel) (ib : Nat) : OpcodeInLowByte.Statement (.div rx ry ib) :=
  ⟨fun map => opcodeField_pack map .div _, rfl⟩
theorem OpcodeInLowByte.mod (rx : Sel) (ry : Sel) (ib : Nat) : OpcodeInLowByte.Statement (.mod rx ry ib) :=
  ⟨fun map => opcodeField_pack map .mod _, rfl⟩
theorem OpcodeInLowByte.shl (rx : Sel) (ry : Sel) (ib : Nat) : OpcodeInLowByte.Statement (.shl rx ry ib) :=
  ⟨fun map => opcodeField_pack map .shl _, rfl⟩
theorem OpcodeInLowByte.shr (rx : Sel) (ry : Sel) (ib : Nat) : OpcodeInLowByte.Statement (.shr rx ry ib) :=
  ⟨fun map => opcodeField_pack map .shr _, rfl⟩
theorem OpcodeInLowByte.and (rx : Sel) (ry : Sel) (ib : Nat) : OpcodeInLowByte.Statement (.and rx ry ib) :=
  ⟨fun map => opcodeField_pack map .and _, rfl⟩
theorem OpcodeInLowByte.or (rx : Sel) (ry : Sel) (ib : Nat) : OpcodeInLowByte.Statement (.or rx ry ib) :=
  ⟨fun map => opcodeField_pack map .or _, rfl⟩
theorem OpcodeInLowByte.xor (rx : Sel) (ry : Sel) (ib : Nat) : OpcodeInLowByte.Statement (.xor rx ry ib) :=
  ⟨fun map => opcodeField_pack map .xor _, rfl⟩
theorem OpcodeInLowByte.not (rx : Sel) : OpcodeInLowByte.Statement (.not rx) :=
  ⟨fun map => opcodeField_pack map .not _, rfl⟩
theorem OpcodeInLowByte.bi (imm24 : Nat) : OpcodeInLowByte.Statement (.bi imm24) :=
  ⟨fun map => opcodeField_pack map .bi _, rfl⟩
theorem OpcodeInLowByte.b (rx : Sel) : OpcodeInLowByte.Statement (.b rx) :=
  ⟨fun map => opcodeField_pack map .b _, rfl⟩
theorem OpcodeInLowByte.bzi (imm24 : Nat) : OpcodeInLowByte.Statement (.bzi imm24) :=
  ⟨fun map => opcodeField_pack map .bzi _, rfl⟩
theorem OpcodeInLowByte.bnzi (imm24 : Nat) : OpcodeInLowByte.Statement (.bnzi imm24) :=
  ⟨fun map => opcodeField_pack map .bnzi _, rfl⟩
theorem OpcodeInLowByte.bz (rx : Sel) (ry : Sel) : OpcodeInLowByte.Statement (.bz rx ry) :=
  ⟨fun map => opcodeField_pack map .bz _, rfl⟩
theorem OpcodeInLowByte.bnz (rx : Sel) (ry : Sel) : OpcodeInLowByte.Statement (.bnz rx ry) :=
  ⟨fun map => opcodeField_pack map .bnz _, rfl⟩
theorem OpcodeInLowByte.beq (rx : Sel) (ry : Sel) (ib : Nat) : OpcodeInLowByte.Statement (.beq rx ry ib) :=
  ⟨fun map => opcodeField_pack map .beq _, rfl⟩
theorem OpcodeInLowByte.bne (rx : Sel) (ry : Sel) (ib : Nat) : OpcodeInLowByte.Statement (.bne rx ry ib) :=
  ⟨fun map => opcodeField_pack map .bne _, rfl⟩
theorem OpcodeInLowByte.brz (rx : Sel) (ry : Sel) (ib : Nat) : OpcodeInLowByte.Statement (.brz rx ry ib) :=
  ⟨fun map => opcodeField_pack map .brz _, rfl⟩
theorem OpcodeInLowByte.bsri (imm24 : Nat) : OpcodeInLowByte.Statement (.bsri imm24) :=
  ⟨fun map => opcodeField_pack map .bsri _, rfl⟩
theorem OpcodeInLowByte.bsr (rx : Sel) : OpcodeInLowByte.Statement (.bsr rx) :=
  ⟨fun map => opcodeField_pack map .bsr _, rfl⟩
theorem OpcodeInLowByte.rts : OpcodeInLowByte.Statement .rts :=
  ⟨fun map => opcodeField_pack map .rts _, rfl⟩
theorem OpcodeInLowByte.intvec (rx : Sel) (ry : Sel) (ib : Nat) : OpcodeInLowByte.Statement (.intvec rx ry ib) :=
  ⟨fun map => opcodeField_pack map .intvec _, rfl⟩
theorem OpcodeInLowByte.seti : OpcodeInLowByte.Statement .seti :=
  ⟨fun map => opcodeField_pack map .seti _, rfl⟩
theorem OpcodeInLowByte.clri : OpcodeInLowByte.Statement .clri :=
  ⟨fun map => opcodeField_pack map .clri _, rfl⟩
theorem OpcodeInLowByte.mmucfg (rx : Sel) (ry : Sel) (ib : Nat) : OpcodeInLowByte.Statement (.mmucfg rx ry ib) :=
  ⟨fun map => opcodeField_pack map .mmucfg _, rfl⟩
theorem OpcodeInLowByte.push (rx : Sel) (ry : Sel) : OpcodeInLowByte.Statement (.push rx ry) :=
  ⟨fun map => opcodeField_pack map .push _, rfl⟩
theorem OpcodeInLowByte.pop (rx : Sel) (ry : Sel) : OpcodeInLowByte.Statement (.pop rx ry) :=
  ⟨fun map => opcodeField_pack map .pop _, rfl⟩

end Sys2Proof.Laws
end

