-- ==== Sys2Proof/Tests/Slice0.lean ====
section
/-! SUPPORT. Tests of the model's own: the checks of WellFormed, one word per constructor for the decoder, single steps with
the values of spec/95_test_vectors.md, and for every statement with hypotheses a state and operands that meet them. -/
namespace Sys2Proof.Tests
open Sys2Proof.Machine Sys2Proof.Spec

/-! ### A small state -/

/-- The state after reset with the given parameters, some registers set and some bytes placed. -/
def machine (p : Params) (regs : List (RegIdx × Word)) (bytes : List (Nat × List Byte)) : State :=
  { regs.foldl (fun s rv => s.setReg rv.1 rv.2) (State.resetWith p) with
    mem := bytes.foldl (fun m ab => m.load ab.1 ab.2) [] }

/-- With the default parameters. -/
def fresh (regs : List (RegIdx × Word)) (bytes : List (Nat × List Byte)) : State := machine Params.default regs bytes

/-- One step on the word `w` placed where the state fetches. -/
def run (w : Nat) (s : State) : Result := step (s.withFetchWord 32 w)

/-- Paging on, one mapping of 64 KB from 0xFFFFF000 on, and so across 2^32. -/
def topPaged (pc : Word) : State :=
  { fresh [(254, pc)] [] with
    mmuEnabled := true, mmuTable := [{ vaddr := 0xFFFFF000, flags := 0x110, size := 65536, pbase := 0 }] }

/-- What a next state shows. -/
def next? {α : Type} (f : State → α) : Result → Option α
  | .next t => some (f t)
  | _ => none

/-- The fault, if the step stopped with one. -/
def fault? : Result → Option Fault
  | .fault f => some f
  | _ => none

/-- Memory at `n` addresses from `a`. -/
def bytesAt (a n : Nat) (t : State) : List Byte := (List.range n).map fun k => t.mem.read (a + k)

/-! ### WellFormed refuses what does not fit (30_encoding.md R102, R103, R121) -/

theorem test_imm24_refused : ¬ (Instr.movi 0x1000000).WellFormed := (by decide : ¬ imm24Fits 0x1000000)
theorem test_imm24_largest : (Instr.movi 0xFFFFFF).WellFormed := (by decide : imm24Fits 0xFFFFFF)
theorem test_imm8_refused : ¬ (Instr.add none none 256).WellFormed := (by decide : ¬ imm8Fits 256)
theorem test_imm8_largest : (Instr.add none none 255).WellFormed := (by decide : imm8Fits 255)

/-- The rows of 30_encoding.md R108's table in reverse: STOP gets POP's byte, and so on. -/
def reversedOpcodes : OpcodeMap := defaultOpcodes.reverse

theorem default_injective : defaultOpcodes.Injective := OpcodeMap.injective_of_nodup _ (by decide +kernel)
theorem reversed_injective : reversedOpcodes.Injective := OpcodeMap.injective_of_nodup _ (by decide +kernel)

/-- Two reserved indices that are one register are refused (10_state.md R23). -/
theorem test_equal_indices_refused : ¬ { Params.default with regSp := 254 }.RegsDistinct := by decide

/-! ### Decoding: words written out from 30_encoding.md R101 to R104 and R108 -/

theorem test_decode_control :
    decodeWord defaultOpcodes 0xABCDEF01#32 = .ok (.stop) ∧
      decodeWord defaultOpcodes 0x00000002#32 = .ok (.iret) := by
  decide

theorem test_decode_immediate_loads_stores :
    decodeWord defaultOpcodes 0x12345610#32 = .ok (.load8i 0x123456) ∧
      decodeWord defaultOpcodes 0x12345611#32 = .ok (.load16i 0x123456) ∧
      decodeWord defaultOpcodes 0x12345612#32 = .ok (.loadi 0x123456) ∧
      decodeWord defaultOpcodes 0x12345613#32 = .ok (.store8i 0x123456) ∧
      decodeWord defaultOpcodes 0x12345614#32 = .ok (.store16i 0x123456) ∧
      decodeWord defaultOpcodes 0x12345615#32 = .ok (.storei 0x123456) := by
  decide

theorem test_decode_indexed_loads_stores :
    decodeWord defaultOpcodes 0x05030216#32 = .ok (.load8 (some 1) (some 2) 5) ∧
      decodeWord defaultOpcodes 0x05030217#32 = .ok (.load16 (some 1) (some 2) 5) ∧
      decodeWord defaultOpcodes 0x05030218#32 = .ok (.load (some 1) (some 2) 5) ∧
      decodeWord defaultOpcodes 0x05030219#32 = .ok (.store8 (some 1) (some 2) 5) ∧
      decodeWord defaultOpcodes 0x0503021A#32 = .ok (.store16 (some 1) (some 2) 5) ∧
      decodeWord defaultOpcodes 0x0503021B#32 = .ok (.store (some 1) (some 2) 5) := by
  decide

theorem test_decode_moves :
    decodeWord defaultOpcodes 0x0802FF20#32 = .ok (.mov (some 254) (some 1) 8) ∧
      decodeWord defaultOpcodes 0xFFFFFF21#32 = .ok (.movi 0xFFFFFF) ∧
      decodeWord defaultOpcodes 0x03020022#32 = .ok (.swap none (some 1) 3) := by
  decide

theorem test_decode_arithmetic :
    decodeWord defaultOpcodes 0x05030230#32 = .ok (.add (some 1) (some 2) 5) ∧
      decodeWord defaultOpcodes 0x05030231#32 = .ok (.sub (some 1) (some 2) 5) ∧
      decodeWord defaultOpcodes 0x05030232#32 = .ok (.mul (some 1) (some 2) 5) ∧
      decodeWord defaultOpcodes 0x05030233#32 = .ok (.div (some 1) (some 2) 5) ∧
      decodeWord defaultOpcodes 0x05030234#32 = .ok (.mod (some 1) (some 2) 5) := by
  decide

theorem test_decode_bitwise :
    decodeWord defaultOpcodes 0x05030240#32 = .ok (.shl (some 1) (some 2) 5) ∧
      decodeWord defaultOpcodes 0x05030241#32 = .ok (.shr (some 1) (some 2) 5) ∧
      decodeWord defaultOpcodes 0x05030242#32 = .ok (.and (some 1) (some 2) 5) ∧
      decodeWord defaultOpcodes 0x05030243#32 = .ok (.or (some 1) (some 2) 5) ∧
      decodeWord defaultOpcodes 0x05030244#32 = .ok (.xor (some 1) (some 2) 5) ∧
      decodeWord defaultOpcodes 0x07030245#32 = .ok (.not (some 1)) := by
  decide

theorem test_decode_absolute_branches :
    decodeWord defaultOpcodes 0x00000C50#32 = .ok (.bi 0x0C) ∧
      decodeWord defaultOpcodes 0x00000251#32 = .ok (.b (some 1)) ∧
      decodeWord defaultOpcodes 0x00004052#32 = .ok (.bzi 0x40) ∧
      decodeWord defaultOpcodes 0x00000C53#32 = .ok (.bnzi 0x0C) ∧
      decodeWord defaultOpcodes 0x00030254#32 = .ok (.bz (some 1) (some 2)) ∧
      decodeWord defaultOpcodes 0x00000255#32 = .ok (.bnz (some 1) none) := by
  decide

theorem test_decode_relative_branches_calls :
    decodeWord defaultOpcodes 0x04000256#32 = .ok (.beq (some 1) none 4) ∧
      decodeWord defaultOpcodes 0x08030257#32 = .ok (.bne (some 1) (some 2) 8) ∧
      decodeWord defaultOpcodes 0x08030258#32 = .ok (.brz (some 1) (some 2) 8) ∧
      decodeWord defaultOpcodes 0x00002059#32 = .ok (.bsri 0x20) ∧
      decodeWord defaultOpcodes 0x0000FD5A#32 = .ok (.bsr (some 252)) ∧
      decodeWord defaultOpcodes 0x0000005B#32 = .ok (.rts) := by
  decide

theorem test_decode_interrupts_mmu_stack :
    decodeWord defaultOpcodes 0x01000260#32 = .ok (.intvec (some 1) none 1) ∧
      decodeWord defaultOpcodes 0x00000061#32 = .ok (.seti) ∧
      decodeWord defaultOpcodes 0x00000062#32 = .ok (.clri) ∧
      decodeWord defaultOpcodes 0x01030270#32 = .ok (.mmucfg (some 1) (some 2) 1) ∧
      decodeWord defaultOpcodes 0x00030280#32 = .ok (.push (some 1) (some 2)) ∧
      decodeWord defaultOpcodes 0x00020081#32 = .ok (.pop none (some 1)) := by
  decide

theorem test_decode_illegal : decodeWord defaultOpcodes 0x00000000#32 = .error (.illegalOpcode 0x00) ∧
    decodeWord defaultOpcodes 0xFFFFFFFF#32 = .error (.illegalOpcode 0xFF) ∧
    decodeBytes defaultOpcodes [0x21, 0, 0] = .error .truncated := by
  decide

/-- 95_test_vectors.md 2.1: the clipping example, and a row's encoding. -/
theorem test_encode : packWord 0x120 0x1000064 = 0x00006420 ∧ encode defaultOpcodes (.mov (some 1) (some 0) 8) = 0x08010220 ∧
    encode defaultOpcodes .stop = 0x00000001 ∧ encode defaultOpcodes (.movi 0x123456) = 0x12345621 := by
  decide

/-! ### Single steps: the vectors of spec/95_test_vectors.md section 2, by family -/

theorem test_load8i : next? (·.reg 0) (run 0x00006410 (fresh [] [(100, [0xFE])])) = some 0xFE := by
  decide
theorem test_load16i : next? (·.reg 0) (run 0x00006411 (fresh [] [(100, [0x34, 0x12, 0xFF])])) = some 0x1234 := by
  decide
theorem test_loadi : next? (·.reg 0) (run 0x00006412 (fresh [] [(100, [0x0A, 0xBB, 0xCC, 0x8D])])) = some 0x8DCCBB0A := by
  decide
theorem test_store8i : next? (bytesAt 0x9000 2) (run 0x00900013 (fresh [(0, 0x12345648)] [])) = some [0x48, 0] := by
  decide
theorem test_store16i :
    next? (bytesAt 0x200 3) (run 0x00020014 (fresh [(0, 0xAABBCCDD)] [(0x202, [0x77])])) = some [0xDD, 0xCC, 0x77] := by
  decide
theorem test_storei :
    next? (bytesAt 0x200 4) (run 0x00020015 (fresh [(0, 0xAABBCCDD)] [])) = some [0xDD, 0xCC, 0xBB, 0xAA] := by
  decide
theorem test_load8_zero_extends :
    next? (·.reg 2) (run 0x05030216 (fresh [(1, 0x100)] [(0x105, [0x80])])) = some 0x80 := by
  decide
theorem test_load16 : next? (·.reg 2) (run 0x00030217 (fresh [(1, 0x100)] [(0x100, [0xCD, 0xAB])])) = some 0xABCD := by
  decide
theorem test_load :
    next? (·.reg 2) (run 0x04030218 (fresh [(1, 0x100)] [(0x104, [0x78, 0x56, 0x34, 0x12])])) = some 0x12345678 := by
  decide
theorem test_load_all_absent : next? (·.reg 0) (run 0x00000018 (fresh [] [])) = some 0x00000018 := by
  decide
theorem test_load_address_does_not_wrap :
    fault? (run 0x01000218 (fresh [(1, 0xFFFFFFFF)] [])) = some (.addressError 0x100000000) := by
  decide
theorem test_store8 :
    next? (bytesAt 0x9000 3) (run 0x01000219 (fresh [(1, 0x9000), (0, 0x65)] [])) = some [0, 0x65, 0] := by
  decide
theorem test_store16 :
    next? (bytesAt 0x202 3) (run 0x0203021A (fresh [(1, 0x200), (2, 0x11223344)] [])) = some [0x44, 0x33, 0] := by
  decide
theorem test_store :
    next? (bytesAt 0x200 4) (run 0x0003021B (fresh [(1, 0x200), (2, 0x11223344)] [])) = some [0x44, 0x33, 0x22, 0x11] := by
  decide
theorem test_storei_beyond_memory :
    fault? (run 0x000FFE15 (machine { Params.default with memSize := 0x1000 } [] [])) = some (.addressError 0x1000) := by
  decide

theorem test_mov : next? (·.reg 1) (run 0x08010220 (fresh [(0, 25)] [])) = some 33 := by
  decide
theorem test_mov_from_pc : next? (·.reg 1) (run 0x00FF0220 (fresh [(254, 0x20)] [])) = some 0x24 := by
  decide
theorem test_movi : next? (·.reg 0) (run 0x12345621 (fresh [(0, 7)] [])) = some 0x123456 := by
  decide
theorem test_swap : next? (fun t => (t.reg 1, t.reg 2)) (run 0x01030222 (fresh [(1, 5), (2, 9)] [])) = some (10, 6) := by
  decide
theorem test_swap_same_register : next? (·.reg 1) (run 0x03020222 (fresh [(1, 5)] [])) = some 8 := by
  decide

theorem test_add_repeated_operand : next? (·.reg 0) (run 0x05010130 (fresh [(0, 10)] [])) = some 25 := by
  decide
theorem test_add_wraps : next? (·.reg 1) (run 0x01000230 (fresh [(1, 0xFFFFFFFF)] [])) = some 0 := by
  decide
theorem test_sub : next? (·.reg 1) (run 0x01020231 (fresh [(1, 77)] [])) = some 0xFFFFFFFF := by
  decide
theorem test_mul : next? (·.reg 1) (run 0x01030232 (fresh [(1, 6), (2, 7)] [])) = some 42 := by
  decide
theorem test_mul_absent_immediate : next? (·.reg 1) (run 0x00030232 (fresh [(1, 6), (2, 7)] [])) = some 0 := by
  decide
theorem test_div : next? (·.reg 1) (run 0x02030233 (fresh [(1, 17), (2, 5)] [])) = some 1 := by
  decide
theorem test_div_by_absent_immediate : fault? (run 0x00030233 (fresh [(1, 17), (2, 5)] [])) = some .divisionByZero := by
  decide
theorem test_mod : next? (·.reg 1) (run 0xFF030234 (fresh [(1, 17), (2, 5)] [])) = some 2 := by
  decide
theorem test_mod_by_absent_register : fault? (run 0x01000234 (fresh [(1, 17)] [])) = some .divisionByZero := by
  decide

theorem test_shl_into_ry :
    next? (fun t => (t.reg 1, t.reg 2)) (run 0x04030240 (fresh [(1, 0x80000001)] [])) = some (0x80000001, 0x10) := by
  decide
theorem test_shl_full_width : next? (·.reg 1) (run 0x20000240 (fresh [(1, 0xFFFFFFFF)] [])) = some 0 := by
  decide
theorem test_shr_logical : next? (·.reg 1) (run 0x1F000241 (fresh [(1, 0x80000000)] [])) = some 1 := by
  decide
theorem test_and : next? (·.reg 1) (run 0x0F000242 (fresh [(1, 0x12345678)] [])) = some 8 := by
  decide
theorem test_or_copies : next? (·.reg 2) (run 0x00030243 (fresh [(1, 0xCAFE), (2, 1)] [])) = some 0xCAFE := by
  decide
theorem test_xor : next? (·.reg 1) (run 0x0F000244 (fresh [(1, 0xFF)] [])) = some 0xF0 := by
  decide
theorem test_not_ignores_ry :
    next? (fun t => (t.reg 1, t.reg 2)) (run 0x07030245 (fresh [(1, 0), (2, 9)] [])) = some (0xFFFFFFFF, 9) := by
  decide
theorem test_not_absent : next? (·.reg 0) (run 0x00000045 (fresh [(0, 5)] [])) = some 0xFFFFFFFF := by
  decide

theorem test_bi : next? (·.pc) (run 0x00000C50 (fresh [] [])) = some 0x0C := by
  decide
theorem test_b : next? (·.pc) (run 0x00000251 (fresh [(1, 0x12340)] [])) = some 0x12340 := by
  decide
theorem test_bzi_taken : next? (·.pc) (run 0x00004052 (fresh [] [])) = some 0x40 := by
  decide
theorem test_bzi_not_taken : next? (·.pc) (run 0x00004052 (fresh [(254, 0x10), (0, 1)] [])) = some 0x14 := by
  decide
theorem test_bnzi : next? (·.pc) (run 0x00000C53 (fresh [(0, 7)] [])) = some 0x0C := by
  decide
theorem test_bz : next? (·.pc) (run 0x00030254 (fresh [(1, 0x80), (2, 0)] [])) = some 0x80 := by
  decide
theorem test_bnz_tests_accumulator : next? (·.pc) (run 0x00000255 (fresh [(1, 0x80), (0, 3)] [])) = some 0x80 := by
  decide
theorem test_beq_taken : next? (·.pc) (run 0x04000256 (fresh [(254, 0x14)] [])) = some 0x1C := by
  decide
theorem test_beq_not_taken : next? (·.pc) (run 0x04000256 (fresh [(254, 0x14), (1, 1)] [])) = some 0x18 := by
  decide
theorem test_bne : next? (·.pc) (run 0x08030257 (fresh [(254, 0x20), (1, 3), (2, 4)] [])) = some 0x2C := by
  decide
theorem test_brz_absent_ry : next? (·.pc) (run 0x08000258 (fresh [(1, 0x100), (0, 5)] [])) = some 0x108 := by
  decide
theorem test_bsri : next? (fun t => (t.pc, t.ret)) (run 0x00002059 (fresh [(254, 0x10)] [])) = some (0x20, 0x18) := by
  decide +kernel
theorem test_bsr_through_return_register :
    next? (fun t => (t.pc, t.ret)) (run 0x0000FD5A (fresh [(254, 0x10), (252, 0x80)] [])) = some (0x80, 0x18) := by
  decide +kernel
theorem test_rts : next? (fun t => (t.pc, t.ret)) (run 0x0000005B (fresh [(252, 0x18)] [])) = some (0x18, 0x18) := by
  decide +kernel
theorem test_bsri_without_link_offset :
    next? (·.ret) (run 0x00002059 (machine { Params.default with linkOffset := 0 } [(254, 0x10)] [])) = some 0x14 := by
  decide

theorem test_intvec :
    next? (fun t => (t.ivBase, t.ivEnabled)) (run 0x01000260 (fresh [(1, 0x400)] [])) = some (0x400, true) := by
  decide
theorem test_intvec_bit_of_ry :
    next? (fun t => (t.ivBase, t.ivEnabled)) (run 0x00030260 (fresh [(1, 0x400), (2, 2)] [])) = some (0x400, false) := by
  decide
theorem test_seti : next? (·.ivEnabled) (run 0x00000061 (fresh [] [])) = some true := by
  decide
theorem test_clri : next? (·.ivEnabled) (run 0x00000062 { fresh [] [] with ivEnabled := true }) = some false := by
  decide
theorem test_iret :
    next? (fun t => (t.pc, t.ivEnabled)) (run 0x00000002 (fresh [(252, 0x24)] [])) = some (0x24, true) := by
  decide +kernel
theorem test_stop : next? (fun t => (t.run, t.pc)) (run 0x00000001 (fresh [(254, 0x10)] [])) = some (.halted, 0x14) := by
  decide
theorem test_push :
    next? (fun t => (t.reg 253, bytesAt 0x1FC 4 t)) (run 0x00000080 (fresh [(253, 0x200), (0, 0x123456)] [])) = some (0x1FC, [0x56, 0x34, 0x12, 0]) := by
  decide
theorem test_push_old_pointer :
    next? (bytesAt 0x1FC 4) (run 0x00FE0080 (fresh [(253, 0x200)] [])) = some [0, 2, 0, 0] := by
  decide
theorem test_pop :
    next? (fun t => (t.reg 1, t.reg 253)) (run 0x00020081 (fresh [(253, 0x1FC)] [(0x1FC, [0x56, 0x34, 0x12])])) = some (0x123456, 0x200) := by
  decide
theorem test_pop_into_pointer :
    next? (·.reg 253) (run 0x00FE0081 (fresh [(253, 0x1FC)] [(0x1FC, [0, 3])])) = some 0x300 := by
  decide
theorem test_push_overflow :
    fault? (run 0x00000080 (machine { Params.default with stackBound := some (0x400, 16) } [(253, 0x3F0)] [])) =
    some .stackOverflow := by
  decide
theorem test_pop_underflow :
    fault? (run 0x00000081 (machine { Params.default with stackBound := some (0x400, 16) } [(253, 0x400)] [])) =
    some .stackUnderflow := by
  decide

/-- 95_test_vectors.md 2.8, first row: two leaves. -/
theorem test_mmucfg : next? (fun t => (t.mmuTable, t.mmuEnabled))
    (run 0x01030270 (fresh [(1, 0x1000), (2, 2)] [(0x1000, [0, 1, 0, 0, 0x10, 1, 0x40, 0])])) =
      some ([{ vaddr := 0, flags := 0x100, size := 4096, pbase := 0 },
        { vaddr := 0x00400000, flags := 0x110, size := 65536, pbase := 0x1000 }], true) := by
  decide +kernel

/-- 95_test_vectors.md 2.8, the nested table. -/
theorem test_mmucfg_nested : next? (fun t => t.mmuTable.map fun m => (m.vaddr, m.size, m.pbase))
    (run 0x00030270 (fresh [(1, 0x2000), (2, 2)] [(0x2000, [0x01, 0x31, 0, 0, 0, 1, 0x80, 0]),
      (0x3000, [0, 1, 0x10, 0, 0, 0, 0, 0, 0x20, 1, 0x20, 0])])) =
      some [(0x00100000, 4096, 0), (0x00200000, 1048576, 0x1000), (0x00800000, 4096, 0x101000)] := by
  decide +kernel

/-! ### The step, faults and interrupts (95_test_vectors.md 2.10) -/

theorem test_illegal_opcode : fault? (step State.reset) = some (.illegalInstruction 0) := by
  decide
theorem test_pc_wraps : next? (fun t => (t.reg 0, t.pc)) (run 0x00000721 (fresh [(254, 0xFFFFFFFC)] [])) = some (7, 0) := by
  decide
theorem test_fetch_past_memory : fault? (step (fresh [(254, 0xFFFFFFFD)] [])) = some (.addressError 0x100000000) := by
  decide
/-- 10_state.md R26, paging on and a mapping across 2^32: the last word below 2^32 is fetched, a fetch beyond it faults. -/
theorem test_fetch_last_word_paged : next? (fun t => (t.reg 0, t.pc)) (run 0x00000721 (topPaged 0xFFFFFFFC)) = some (7, 0) := by
  decide +kernel
theorem test_fetch_past_top_paged : fault? (step (topPaged 0xFFFFFFFE)) = some (.addressError 0x100000000) := by
  decide +kernel
/-- 00_scope.md R5, 30_encoding.md R108: under another map STOP has another byte. -/
theorem test_other_opcode_map : next? (·.run) (run 0x00000081 (machine { Params.default with opcodes := reversedOpcodes } [] [])) =
    some .halted := by
  decide +kernel
/-- 10_state.md R23: with other reserved indices a call links and jumps through those. -/
theorem test_other_indices : next? (fun t => (t.reg 10, t.reg 12))
    (run 0x00002059 (machine { Params.default with regPc := 10, regSp := 11, regRet := 12 } [(10, 0x10)] [])) =
      some (0x20, 0x18) := by
  decide +kernel
theorem test_interrupt_entry : next? (fun t => (t.ret, t.pc, t.ivQueue, t.ivEnabled))
    (step { fresh [(254, 0x0C)] [(0x44, [0x50, 0x70])] with ivBase := 0x40, ivQueue := [1] }) =
      some (0x0C, 0x70, [], false) := by
  decide +kernel
theorem test_bad_interrupt_number : fault? (step { machine { Params.default with ivSlots := 2 } [] [] with ivQueue := [5] }) =
    some (.badInterruptNumber 5) := by
  decide
theorem test_raise : ({ fresh [] [] with ivEnabled := true }.raiseInterrupt 1).ivQueue = [1] ∧
    ((fresh [] []).raiseInterrupt 3).ivQueue = [] := by
  decide

/-- 95_test_vectors.md P6: a store to a special address goes to the device and not to memory. -/
theorem test_device_store : next? (fun t => (t.devLog, bytesAt 0x9000 1 t))
    (run 0x00900013 (machine { Params.default with special := [0x9000] } [(0, 0x48)] [])) =
      some ([.set 0x9000 0x48], [0]) := by
  decide +kernel
/-- 95_test_vectors.md P1: the RE01 file of the source's example. -/
theorem test_boot : (State.reset.boot ([0x52, 0x45, 0x30, 0x31, 0x1C, 0, 0, 0, 0x64, 0, 0, 0] ++
    [0x12, 0x64, 0, 0, 0x30, 1, 1, 5, 0x20, 2, 1, 8, 1, 0, 0, 0] ++ [0x0A])).map (fun t => (bytesAt 0 4 t, bytesAt 100 2 t)) =
      some ([0x12, 0x64, 0, 0], [0x0A, 0]) := by
  decide +kernel
/-- The model's choice of log entry 19: where code and data overlap, the data stays. -/
theorem test_boot_overlap : (State.reset.boot ([0x52, 0x45, 0x30, 0x31, 0x10, 0, 0, 0, 2, 0, 0, 0] ++ [1, 2, 3, 4] ++
    [0x0A])).map (bytesAt 0 4) = some [1, 2, 0x0A, 4] := by
  decide +kernel
/-- A program comes to run (log entry 14): the word placed at reset is what the very next step runs. -/
theorem test_withFetchWord : next? (fun t => (t.reg 0, t.pc)) (step (State.reset.withFetchWord 32 0x12345621)) =
    some (0x123456, 4) := by
  decide +kernel

/-! ### Witnesses: for each statement with hypotheses, a state and operands that meet them, at the boundary where there is one -/

theorem accessible_of {s : State} {va n : Nat} (f : Nat → Nat)
    (h : ∀ k, k < n → s.translate (va + k) = .ok (f k) ∧ f k < s.params.memSize) : Accessible s va n :=
  fun k hk => ⟨f k, h k hk⟩

theorem noDevice_of {s : State} {va n : Nat} (h : s.params.special = []) : NoDevice s va n :=
  fun _ _ _ _ => by simp [State.isSpecial, h]

theorem distinct_of {s : State} {va n : Nat} (h : s.mmuEnabled = false) : Distinct s va n := fun j k hj _ pa h1 h2 => by
  simp only [State.translate, h, Bool.false_eq_true, if_false, Except.ok.injEq] at h1 h2
  omega

/-- The word that a read or a fetch gives. -/
def word? : Except Fault (Word × State) → Option Word
  | .ok p => some p.1
  | .error _ => none

theorem exists_of_word {r : Except Fault (Word × State)} {w : Word} (h : word? r = some w) : ∃ t, r = .ok (w, t) := by
  match r, h with
  | .ok (v, t), h => exact ⟨t, by rw [show v = w from Option.some.inj h]⟩

theorem exists_of_ok {r : Except Fault State} (h : r.isOk = true) : ∃ t, r = .ok t := by
  match r, h with
  | .ok t, _ => exact ⟨t, rfl⟩

/-- A machine of 4096 bytes. -/
def small (regs : List (RegIdx × Word)) (bytes : List (Nat × List Byte)) : State :=
  machine { Params.default with memSize := 0x1000 } regs bytes

/-- Two mappings, the second swapping in physical 0; virtual 0x5000 and above is unmapped. -/
def paged : State :=
  { fresh [(0, 0x11223344)] [(0, [0x77])] with
    mmuEnabled := true
    mmuTable := [{ vaddr := 0x4000, flags := 0x100, size := 4096, pbase := 0 },
      { vaddr := 0x3000, flags := 0x100, size := 4096, pbase := 4096 }] }

theorem test_witness_DecodeOfEncodeIsTheInstruction :
    defaultOpcodes.Injective ∧ reversedOpcodes.Injective ∧ (Instr.movi 0xFFFFFF).WellFormed ∧ (Instr.add none (some 254) 255).WellFormed ∧ Instr.stop.WellFormed :=
  ⟨default_injective, reversed_injective, (by decide : imm24Fits 0xFFFFFF), (by decide : imm8Fits 255), trivial⟩

theorem test_witness_PackingClipsAndRoundTrips : decodeWord defaultOpcodes 0xFFFFFF21#32 = .ok (.movi 0xFFFFFF) := by decide

/-- Under the reversed map the byte 0x82 is illegal too, and 0 is under the default. -/
theorem test_witness_UnclaimedOpcodesAreIllegal :
    (∃ t, (small [] [(0, [0x82, 1, 1, 1])]).fetch = .ok (0x01010182, t)) ∧ (0x01010182 : Word).toNat % 256 ∈ illegalBytes ∧
      (small [] []).params.opcodes = defaultOpcodes ∧ (∃ t, State.reset.fetch = .ok (0#32, t)) ∧
      (∀ m, State.reset.params.opcodes.byte m ≠ BitVec.ofNat 8 (0x01010182 : Word).toNat) ∧
      ∀ m, reversedOpcodes.byte m ≠ BitVec.ofNat 8 (0x01010182 : Word).toNat :=
  ⟨exists_of_word (by decide), by decide, rfl, exists_of_word (by decide),
    (mnemonicOf_eq_none _ _).mp (by decide +kernel), (mnemonicOf_eq_none _ _).mp (by decide +kernel)⟩

theorem test_witness_OpcodeMapIsInjective : opcode .pop = opcode .pop := rfl

theorem test_witness_UnusedFieldsAreIgnored :
    defaultOpcodes.Injective ∧ opcodeField 0xABCDEF01#32 = defaultOpcodes.byte .stop ∧
      opcodeField 0x00000001#32 = defaultOpcodes.byte .stop ∧
      opcodeField 0x07030245#32 = defaultOpcodes.byte .not ∧ opcodeField 0x00000245#32 = defaultOpcodes.byte .not ∧
      (0x07030245#32).extractLsb' 8 8 = (0x00000245#32).extractLsb' 8 8 ∧
      opcodeField 0xFF020081#32 = defaultOpcodes.byte .pop ∧ opcodeField 0x00020081#32 = defaultOpcodes.byte .pop ∧
      (0xFF020081#32).extractLsb' 8 16 = (0x00020081#32).extractLsb' 8 16 :=
  ⟨default_injective, by decide⟩

theorem test_witness_StepRunsTheDecodedInstruction :
    (small [(254, 0xFFC)] [(0xFFC, [0x21, 7])]).run = .running ∧ (small [(254, 0xFFC)] [(0xFFC, [0x21, 7])]).ivQueue = [] ∧
      (∃ t, (small [(254, 0xFFC)] [(0xFFC, [0x21, 7])]).memRead 0xFFC 4 = .ok (0x721, t)) ∧
      (small [(254, 0xFFC)] [(0xFFC, [0x21, 7])]).pc.toNat = 0xFFC ∧ 0xFFC ≤ 0xFFFFFFFC ∧
      decodeWord (small [] []).params.opcodes 0x721#32 = .ok (.movi 7) ∧
      NoDevice (small [(254, 0xFFC)] [(0xFFC, [0x21, 7])]) 0xFFC 4 :=
  ⟨rfl, rfl, exists_of_word (by decide), by decide, by decide, by decide, noDevice_of rfl⟩

theorem test_witness_PendingInterruptIsDeliveredFirst :
    { fresh [] [] with ivQueue := [7, 2] }.run = .running ∧ 7 < (fresh [] []).params.ivSlots ∧
      { fresh [] [] with ivQueue := [8] }.run = .running ∧ (fresh [] []).params.ivSlots ≤ 8 ∧ (fresh [] []).ivQueue = [] ∧
      (fresh [] []).params.regPc ≠ (fresh [] []).params.regRet := by
  decide

/-- A fetch across the end of memory, one that finds no mapping, and two that reach 2^32, where a mapping covers it and where
paging is off. -/
theorem test_witness_FetchFaultsAtLowestByte :
    FetchFault (small [(254, 0xFFD)] []) (.addressError 0x1000) ∧ FetchFault paged (.unmappedPage 0) ∧
      FetchFault (topPaged 0xFFFFFFFD) (.addressError 0x100000000) ∧
      FetchFault (fresh [(254, 0xFFFFFFFF)] []) (.addressError 0x100000000) ∧
      0xFFFFFFFC < (topPaged 0xFFFFFFFD).pc.toNat := by
  have e1 : (small [(254, 0xFFD)] []).pc.toNat = 0xFFD := by decide +kernel
  have e2 : paged.pc.toNat = 0 := by decide +kernel
  have e3 : (topPaged 0xFFFFFFFD).pc.toNat = 0xFFFFFFFD := by decide +kernel
  have e4 : (fresh [(254, 0xFFFFFFFF)] []).pc.toNat = 0xFFFFFFFF := by decide +kernel
  refine ⟨.inl ?_, .inl ?_, .inr ?_, .inr ?_, ?_⟩
  · rw [e1]; exact ⟨3, by decide, accessible_of (fun k => 0xFFD + k) (by decide), .inr ⟨0x1000, by decide⟩⟩
  · rw [e2]; exact ⟨0, by decide, fun _ h => absurd h (Nat.not_lt_zero _), .inl (by decide)⟩
  · rw [e3]; exact ⟨by decide, accessible_of (fun k => 0xFFD + k) (by decide +kernel), .inr ⟨⟨0x1000, by decide +kernel⟩, rfl⟩⟩
  · rw [e4]; exact ⟨by decide, accessible_of (fun k => 0xFFFFFFFF + k) (by decide), .inr ⟨⟨0x100000000, by decide⟩, rfl⟩⟩
  · rw [e3]; decide

theorem test_witness_HaltedAndFaultedAreAbsorbing :
    fault? (step State.reset) = some (.illegalInstruction 0) ∧ State.reset.run = .running ∧
      { State.reset with run := .halted }.run ≠ .running ∧ { State.reset with run := .faulted .divisionByZero }.run ≠ .running ∧
      { State.reset with run := .halted }.run = .halted ∧
      { State.reset with run := .faulted .divisionByZero }.run = .faulted .divisionByZero ∧
      Event.reset ∉ [Event.coreStep, Event.raise 3] := by
  decide +kernel

theorem test_witness_ImmediateLoads : Accessible (small [] []) 0xFFF 1 ∧ Accessible (small [] []) 0xFFE 2 ∧
    Accessible (small [] []) 0xFFC 4 ∧ Accessible paged 0x3FFE 4 :=
  ⟨accessible_of (fun k => 0xFFF + k) (by decide), accessible_of (fun k => 0xFFE + k) (by decide),
    accessible_of (fun k => 0xFFC + k) (by decide), accessible_of (fun k => if k < 2 then 0x1FFE + k else k - 2) (by decide)⟩

theorem test_witness_IndexedLoads :
    Accessible (fresh [(1, 0xFFFFFF00)] []) (((fresh [(1, 0xFFFFFF00)] []).val (some 1)).toNat + 255) 1 ∧
      Accessible (small [(1, 0xF00)] []) (((small [(1, 0xF00)] []).val (some 1)).toNat + 254) 2 ∧
      Accessible (small [(1, 0xF00)] []) (((small [(1, 0xF00)] []).val (some 1)).toNat + 252) 4 :=
  ⟨accessible_of (fun k => 0xFFFFFFFF + k) (by decide +kernel), accessible_of (fun k => 0xFFE + k) (by decide +kernel),
    accessible_of (fun k => 0xFFC + k) (by decide +kernel)⟩

theorem test_witness_ImmediateStores : Accessible (small [] []) 0xFFF 1 ∧ Accessible (small [] []) 0xFFE 2 ∧
    Accessible (small [] []) 0xFFC 4 :=
  ⟨test_witness_ImmediateLoads.1, test_witness_ImmediateLoads.2.1, test_witness_ImmediateLoads.2.2.1⟩

theorem test_witness_IndexedStores :
    Accessible (fresh [(1, 0xFFFFFF00)] []) ((fresh [(1, 0xFFFFFF00)] []).indexedEa (some 1) 255) 1 ∧
      Accessible (small [(1, 0xF00)] []) ((small [(1, 0xF00)] []).indexedEa (some 1) 254) 2 ∧
      Accessible (small [(1, 0xF00)] []) ((small [(1, 0xF00)] []).indexedEa (some 1) 252) 4 :=
  test_witness_IndexedLoads

theorem test_witness_LoadsAndStoresFaultAtLowestByte :
    FirstFault (small [] []) 0x1000 1 (.addressError 0x1000) ∧ FirstFault (small [] []) 0xFFF 2 (.addressError 0x1000) ∧
      FirstFault (small [] []) 0xFFE 4 (.addressError 0x1000) ∧ FirstFault paged 0x4FFE 4 (.unmappedPage 0x5000) ∧
      FirstFault (small [(1, 0xF00)] []) ((small [(1, 0xF00)] []).indexedEa (some 1) 255) 2 (.addressError 0x1000) ∧
      FirstFault (small [(1, 0xF01)] []) ((small [(1, 0xF01)] []).indexedEa (some 1) 255) 1 (.addressError 0x1000) ∧
      FirstFault (small [(1, 0xF00)] []) ((small [(1, 0xF00)] []).indexedEa (some 1) 253) 4 (.addressError 0x1000) :=
  ⟨⟨0, by decide, fun _ h => absurd h (Nat.not_lt_zero _), .inr ⟨0x1000, by decide⟩⟩,
    ⟨1, by decide, accessible_of (fun k => 0xFFF + k) (by decide), .inr ⟨0x1000, by decide⟩⟩,
    ⟨2, by decide, accessible_of (fun k => 0xFFE + k) (by decide), .inr ⟨0x1000, by decide⟩⟩,
    ⟨2, by decide, accessible_of (fun k => 0xFFE + k) (by decide), .inl (by decide)⟩,
    ⟨1, by decide, accessible_of (fun k => 0xFFF + k) (by decide +kernel), .inr ⟨0x1000, by decide +kernel⟩⟩,
    ⟨0, by decide, fun _ h => absurd h (Nat.not_lt_zero _), .inr ⟨0x1000, by decide +kernel⟩⟩,
    ⟨3, by decide, accessible_of (fun k => 0xFFD + k) (by decide +kernel), .inr ⟨0x1000, by decide +kernel⟩⟩⟩

theorem test_witness_LoadAfterStoreSeesTheBytes : NoDevice (small [] []) 0xFFC 4 ∧ Distinct (small [] []) 0xFFC 4 ∧
    ∃ t, (small [] []).memWrite 0xFFC 4 0x11223344 = .ok t :=
  ⟨noDevice_of rfl, distinct_of rfl, exists_of_ok (by decide)⟩

theorem test_witness_StoreIsSeenByTheNextFetch :
    NoDevice (small [] []) 0 4 ∧ Distinct (small [] []) 0 4 ∧ (small [] []).pc.toNat = 0 ∧ 0 ≤ 0xFFFFFFFC ∧
      ∃ t, (small [] []).memWrite 0 4 0x721 = .ok t :=
  ⟨noDevice_of rfl, distinct_of rfl, by decide, by decide, exists_of_ok (by decide)⟩

theorem test_witness_SwapExchanges : tgt (some 1) ≠ tgt none := by decide

theorem test_witness_DivModResults : (fresh [(2, 1)] []).val (some 2) ≠ 0 ∧ (1 : Nat) ≠ 0 ∧ (fresh [] []).val (some 2) = 0 := by
  decide +kernel

theorem test_witness_OnlyDivAndModDivideByZero :
    fault? (exec (.mod (some 1) (some 2) 1) (fresh [] [])) = some .divisionByZero := by
  decide +kernel

theorem test_witness_AndOrXorResults : 255 < 256 := by decide

theorem test_witness_UnconditionalJumps : 0xFFFFFF < 2 ^ 24 := by decide

theorem test_witness_ZeroBranches : 0xFFFFFF < 2 ^ 24 ∧ (fresh [] []).reg 0 = 0 ∧ (fresh [(0, 1)] []).reg 0 ≠ 0 := by
  decide +kernel

theorem test_witness_CallsLinkAndJump : 0xFFFFFF < 2 ^ 24 ∧ State.reset.params.regPc ≠ State.reset.params.regRet := by decide

theorem test_witness_IretReturnsAndEnables : State.reset.params.regPc ≠ State.reset.params.regRet := by decide

theorem test_witness_RaiseIsMaskedAndQueued : (fresh [] []).ivEnabled = false ∧
    { fresh [] [] with ivEnabled := true }.ivEnabled = true := by
  decide

theorem test_witness_RaiseDeliverReturn : State.reset.params.regPc ≠ State.reset.params.regRet ∧ { fresh [] [] with ivEnabled := true }.run = .running ∧
    { fresh [] [] with ivEnabled := true }.ivEnabled = true ∧ { fresh [] [] with ivEnabled := true }.ivQueue = [] ∧
    7 < { fresh [] [] with ivEnabled := true }.params.ivSlots := by
  decide

/-- Virtual 0x3000 and 0x3FFF lie in the second mapping and not in the first; 0x5000 and 0x2FFF in none. -/
theorem test_witness_TranslationIsFirstMatch : paged.mmuEnabled = true ∧ (fresh [] []).mmuEnabled = false ∧
    (∃ a b, paged.mmuTable = [a] ++ b :: [] ∧
      (∀ va ∈ [0x3000, 0x3FFF], ¬ (a.vaddr.toNat ≤ va ∧ va < a.vaddr.toNat + a.size) ∧
        b.vaddr.toNat ≤ va ∧ va < b.vaddr.toNat + b.size) ∧
      ∀ va ∈ [0x2FFF, 0x5000], ∀ m ∈ paged.mmuTable, ¬ (m.vaddr.toNat ≤ va ∧ va < m.vaddr.toNat + m.size)) :=
  ⟨rfl, rfl, _, _, rfl, by decide, by decide⟩

/-- A table of a present leaf and an absent entry at 0x100. -/
def leafTable : State := small [(1, 0x100), (2, 2)] [(0x100, [0, 1, 0x40, 0])]

theorem test_witness_MmucfgInstallsTheExpandedTable : leafTable.mem.wf ∧ (leafTable.reg 1).toNat = 0x100 ∧
    (leafTable.val (some 2)).toNat = 2 ∧
    Expands 0x1000 leafTable.mem 0x100 2 { table := [], sum := 0 } (Walk.addLeaf { table := [], sum := 0 } 0x00400100) ∧
    (next? (·.mmuEnabled) (exec (.mmucfg (some 1) (some 2) 1) leafTable)).isSome = true :=
  ⟨by decide +kernel, by decide +kernel, by decide +kernel,
    .leaf _ _ 0x00400100 _ _ (by decide +kernel) (by decide) (by decide)
      (.absent _ _ 0 _ _ (by decide +kernel) (by decide) (.done _ _)), by decide +kernel⟩

/-- The table's first entry ends at the last byte of memory, its second lies beyond. -/
theorem test_witness_TableBeyondMemoryFaults :
    (small [(1, 0xFFC), (2, 2)] []).mem.wf ∧ 1 < ((small [(1, 0xFFC), (2, 2)] []).val (some 2)).toNat ∧
      (∀ k, k < 1 → 0xFFC + 4 * k + 3 < 0x1000 ∧
        (isPresent (tableWord (small [(1, 0xFFC), (2, 2)] []).mem (0xFFC + 4 * k)) = true →
          isSubtable (tableWord (small [(1, 0xFFC), (2, 2)] []).mem (0xFFC + 4 * k)) = false)) ∧
      0x1000 ≤ 0xFFC + 4 * 1 + 3 ∧ ((small [(1, 0xFFC), (2, 2)] []).reg 1).toNat = 0xFFC := by
  decide +kernel

/-- An entry at 0x2000 that names the nested table at 0x2000. -/
theorem test_witness_SelfReachingTableIsStuck :
    (fresh [(1, 0x2000), (2, 1)] [(0x2000, [1, 0x21])]).mem.wf ∧ 0 < ((fresh [(1, 0x2000), (2, 1)] []).val (some 2)).toNat ∧
      tableWord (fresh [(1, 0x2000), (2, 1)] [(0x2000, [1, 0x21])]).mem 0x2000 = 0x2101 ∧ (entryAddr 0x2101).toNat = 0x2000 ∧
      isPresent 0x2101 = true ∧ isSubtable 0x2101 = true ∧
      fault? (exec (.mmucfg (some 1) (some 2) 0) (fresh [(1, 0x2000), (2, 1)] [(0x2000, [1, 0x21])])) = some .tableNeverEnds := by
  decide +kernel

theorem test_witness_TableScanIsTheLoop : leafTable.mem.wf ∧ presentEntries leafTable.mem 0x100 2 = [0x00400100] := by
  decide +kernel

theorem test_witness_SingleLeafTranslates : leafTable.mem.wf ∧ (small [(2, 1)] []).reg 2 = 1 ∧
    (leafTable.reg 1).toNat + 3 < leafTable.params.memSize ∧ tableWord leafTable.mem (leafTable.reg 1).toNat = 0x00400100 ∧
    isPresent 0x00400100 = true ∧ isSubtable 0x00400100 = false := by
  decide +kernel

/-- A bounded machine: base 0x400, size 16. -/
def bounded (sp : Word) : State := machine { Params.default with memSize := 0x1000, stackBound := some (0x400, 16) } [(253, sp)] []

theorem test_witness_PushStoresBelowThePointer : PushAdmitted (bounded 0x3F4) none ∧
    Accessible (bounded 0x3F4) ((bounded 0x3F4).reg ((bounded 0x3F4).stackPtr none) - 4#32).toNat 4 := by
  have e : (bounded 0x3F4).reg ((bounded 0x3F4).stackPtr none) = 0x3F4 := by decide +kernel
  unfold PushAdmitted
  rw [e]
  exact ⟨fun base size h => by cases h; decide, accessible_of (fun k => 0x3F0 + k) (by decide)⟩

theorem test_witness_PopLoadsAtThePointer : PopAdmitted (bounded 0x3FF) none ∧
    Accessible (bounded 0x3FF) ((bounded 0x3FF).reg ((bounded 0x3FF).stackPtr none)).toNat 4 := by
  have e : (bounded 0x3FF).reg ((bounded 0x3FF).stackPtr none) = 0x3FF := by decide +kernel
  unfold PopAdmitted
  rw [e]
  exact ⟨fun base size h => by cases h; decide, accessible_of (fun k => 0x3FF + k) (by decide)⟩

/-- The bound reaches past the end of memory, and so do the third bytes of the push and of the pop. -/
theorem test_witness_StackAccessFaultsAtLowestByte :
    ∃ s : Word → State, PushAdmitted (s 0x1002) none ∧
      FirstFault (s 0x1002) ((s 0x1002).reg ((s 0x1002).stackPtr none) - 4#32).toNat 4 (.addressError 0x1000) ∧
      PopAdmitted (s 0xFFE) none ∧
      FirstFault (s 0xFFE) ((s 0xFFE).reg ((s 0xFFE).stackPtr none)).toNat 4 (.addressError 0x1000) := by
  refine ⟨fun sp => machine { Params.default with memSize := 0x1000, stackBound := some (0x1006, 16) } [(253, sp)] [], ?_⟩
  have e1 : ((machine { Params.default with memSize := 0x1000, stackBound := some (0x1006, 16) } [(253, 0x1002)] []).reg
    (State.stackPtr (machine { Params.default with memSize := 0x1000, stackBound := some (0x1006, 16) } [(253, 0x1002)] [])
      none)) = 0x1002 := by decide +kernel
  have e2 : ((machine { Params.default with memSize := 0x1000, stackBound := some (0x1006, 16) } [(253, 0xFFE)] []).reg
    (State.stackPtr (machine { Params.default with memSize := 0x1000, stackBound := some (0x1006, 16) } [(253, 0xFFE)] [])
      none)) = 0xFFE := by decide +kernel
  unfold PushAdmitted PopAdmitted
  dsimp only
  rw [e1, e2]
  exact ⟨fun base size h => by cases h; decide,
    ⟨2, by decide, accessible_of (fun k => 0xFFE + k) (by decide), .inr ⟨0x1000, by decide⟩⟩,
    fun base size h => by cases h; decide,
    ⟨2, by decide, accessible_of (fun k => 0xFFE + k) (by decide), .inr ⟨0x1000, by decide⟩⟩⟩

theorem test_witness_StackBoundChecks : fault? (exec (.push none none) (bounded 0x3F3)) = some .stackOverflow ∧
    fault? (exec (.push none none) (bounded 0x3F4)) = none ∧ fault? (exec (.pop none none) (bounded 0x400)) = some .stackUnderflow ∧
    fault? (exec (.pop none none) (bounded 0x3FF)) = none := by
  decide +kernel

theorem test_witness_StackIsLastInFirstOut : (3 : RegIdx) ≠ 253 ∧ (4 : RegIdx) ≠ 253 ∧ (3 : RegIdx) ≠ 4 ∧ (2 : RegIdx) ≠ 253 ∧
    (∀ base size, (bounded 0x400).params.stackBound = some (base, size) →
      (base : Int) - size ≤ (((bounded 0x400).reg 253).toNat : Int) - 8 ∧ ((bounded 0x400).reg 253).toNat ≤ base) ∧
    8 ≤ ((bounded 0x400).reg 253).toNat ∧ Accessible (bounded 0x400) (((bounded 0x400).reg 253).toNat - 8) 8 ∧
    NoDevice (bounded 0x400) (((bounded 0x400).reg 253).toNat - 8) 8 ∧
    Distinct (bounded 0x400) (((bounded 0x400).reg 253).toNat - 8) 8 := by
  have e : (bounded 0x400).reg 253 = 0x400 := by decide +kernel
  rw [e]
  exact ⟨by decide, by decide, by decide, by decide, fun base size h => by cases h; decide, by decide,
    accessible_of (fun k => 0x3F8 + k) (by decide), noDevice_of rfl, distinct_of rfl⟩

theorem test_witness_BoundAdmitsSizeOverWordPushes : (bounded 0x3F0).params.stackBound = some (0x400, 16) ∧ 16 % 4 = 0 ∧
    16 ≤ 0x400 ∧ 4 * 4 ≤ 0x400 ∧ ((bounded 0x3F0).reg ((bounded 0x3F0).stackPtr none)).toNat = 0x400 - 4 * 4 := by
  decide +kernel

/-- A state that meets the invariant with memory and a table that are not empty, and a step from it that answers. -/
theorem test_witness_EveryStepKeepsTheInvariant :
    State.Inv { small [] [(0, [0x21, 7])] with
      mmuTable := [{ vaddr := 0x4000, flags := 0x100, size := 4096, pbase := 0 },
        { vaddr := 0x3000, flags := 0x110, size := 65536, pbase := 4096 }] } ∧
      next? (·.pc) (step (small [] [(0, [0x21, 7])])) = some 4 :=
  ⟨⟨by decide +kernel, by unfold MemInRange; decide +kernel,
    ⟨rfl, by decide, by decide, rfl, rfl, rfl, by decide, by decide, rfl, rfl, trivial⟩⟩, by decide +kernel⟩

theorem test_witness_ResetValues : (0 : RegIdx) ≠ State.reset.params.regPc ∧ (253 : RegIdx) ≠ State.reset.params.regPc := by decide

theorem test_witness_OnlyDestinationRegistersChange :
    exec (.mov (some 1) none 42) (fresh [] []) = .next ((fresh [] []).setReg 1 42) := rfl

theorem test_witness_OnlyMmucfgChangesTheMmu : exec (.mov (some 1) none 42) (fresh [] []) = .next ((fresh [] []).setReg 1 42) ∧
    ∀ rx ry ib, Instr.mov (some 1) none 42 ≠ .mmucfg rx ry ib :=
  ⟨test_witness_OnlyDestinationRegistersChange, by simp⟩

theorem test_witness_OnlyInterruptInstructionsChangeIv : exec (.mov (some 1) none 42) (fresh [] []) = .next ((fresh [] []).setReg 1 42) ∧
    (∀ rx ry ib, Instr.mov (some 1) none 42 ≠ .intvec rx ry ib) ∧ Instr.mov (some 1) none 42 ≠ .seti ∧
      Instr.mov (some 1) none 42 ≠ .clri ∧ Instr.mov (some 1) none 42 ≠ .iret :=
  ⟨test_witness_OnlyDestinationRegistersChange, by simp⟩

theorem test_witness_OnlyStoresChangeMemory : exec (.mov (some 1) none 42) (fresh [] []) = .next ((fresh [] []).setReg 1 42) ∧
    isStore (.mov (some 1) none 42) = false :=
  ⟨test_witness_OnlyDestinationRegistersChange, rfl⟩

theorem test_witness_OnlyStopEndsARun : (small [] [(0, [1])]).run = .running ∧ (small [] [(0, [1])]).ivQueue = [] ∧
    (∃ t, (small [] [(0, [1])]).fetch = .ok (1#32, t)) ∧
    next? (·.run) (step (small [] [(0, [1])])) = some .halted ∧ decodeWord (small [] []).params.opcodes 1#32 = .ok .stop :=
  ⟨rfl, rfl, exists_of_word (by decide), by decide, by decide⟩

theorem test_witness_NoInstructionReadsInterruptState :
    SameButIv (fresh [] []) { fresh [] [] with ivBase := 0x40, ivEnabled := true, ivQueue := [1] } := rfl

theorem test_witness_ProtectionFlagsAreNotEnforced : paged.run = .running ∧
    SameButFlags paged { paged with mmuTable := [{ vaddr := 0x4000, flags := 0, size := 4096, pbase := 0 },
      { vaddr := 0x3000, flags := 0x1FF, size := 4096, pbase := 4096 }] } :=
  ⟨rfl, rfl, rfl⟩

/-- The image of P1 in 95_test_vectors.md in short, one whose data begins where its code ends, and one whose data lies inside its
code. -/
theorem test_witness_BootPlacesCodeAndData :
    (∀ base ∈ [100, 4, 2], parseImage ([0x52, 0x45, 0x30, 0x31, 0x10, 0, 0, 0, BitVec.ofNat 8 base, 0, 0, 0] ++ [1, 0, 0, 0] ++
        [0x0A]) = some { code := [1, 0, 0, 0], dataBase := base, data := [0x0A] } ∧
      base + 1 ≤ State.reset.params.memSize) ∧
    State.reset.params.resetPc.toNat + 4 ≤ State.reset.params.memSize := by
  decide +kernel

end Sys2Proof.Tests
end

section
/-! PROOFS. The reset state and the default parameters (00_scope.md R5, 70_reset_and_hazards.md R320). -/
namespace Sys2Proof.Spec
open Sys2Proof.Machine

/-- The default map lists R108's bytes in the order of its table. -/
theorem defaultOpcodes_toList : defaultOpcodes.toList = allMnemonics.map opcode := rfl

theorem nodup_defaultOpcodes : defaultOpcodes.toList.Nodup := by
  rw [defaultOpcodes_toList]
  decide

/-- The defaults of R5 and R108 meet the constraints of R5, R23 and R108. -/
theorem params_default_wf : Params.default.Wf := by
  have hmem : 1 ≤ Params.default.memSize ∧ Params.default.memSize ≤ 2 ^ 32 := by decide
  have hslots : 1 ≤ Params.default.ivSlots := by decide
  have hlink : Params.default.linkOffset = 4 ∨ Params.default.linkOffset = 0 := .inl rfl
  have hregs : Params.default.RegsDistinct := by decide
  exact ⟨hmem, hslots, hlink, hregs, nodup_defaultOpcodes⟩

/-- Reset lists no byte of memory and no mapping, so that nothing can be out of form or out of range. -/
theorem resetWith_inv (p : Params) : (State.resetWith p).Inv where
  memWf := Memory.wf_nil
  memInRange := fun _ hc => absurd hc List.not_mem_nil
  tableLinear := trivial

/-- Settles O51: the invariant for all parameters, of which `State.reset` is the default case, and the defaults' constraints. -/
theorem resetMeetsTheInvariant : Obligations.ResetMeetsTheInvariant :=
  ⟨resetWith_inv Params.default, params_default_wf, fun p => ⟨resetWith_inv p, rfl⟩⟩

end Sys2Proof.Spec
end

section
/-! PROOFS. What `exec` can answer, said once for all instructions: the frame that 40 of the 46 share, and the exact next
state of the six that change control state (10_state.md sections 2 and 5). -/
namespace Sys2Proof.Spec
open Sys2Proof.Machine

/-! ### The frame of an instruction that touches no control state -/

/-- From `s` to `t` only registers in `ds`, memory and the device log changed, memory staying canonical and in range. -/
structure DataFrame (ds : List RegIdx) (s t : State) : Prop where
  regs : RegsSameBut ds s t
  control : ControlSame s t
  memWf : s.mem.wf → t.mem.wf
  memInRange : MemInRange s → MemInRange t

namespace DataFrame

theorem refl (ds : List RegIdx) (s : State) : DataFrame ds s s where
  regs := fun _ _ => rfl
  control := ⟨⟨rfl, rfl⟩, rfl, rfl, rfl, rfl, rfl⟩
  memWf := id
  memInRange := id

theorem trans {ds : List RegIdx} {s t u : State} (h : DataFrame ds s t) (k : DataFrame ds t u) : DataFrame ds s u where
  regs := fun r hr => (k.regs r hr).trans (h.regs r hr)
  control :=
    { params := k.control.params.trans h.control.params
      run := k.control.run.trans h.control.run
      mmuEnabled := k.control.mmuEnabled.trans h.control.mmuEnabled
      mmuTable := k.control.mmuTable.trans h.control.mmuTable
      ivBase := k.control.ivBase.trans h.control.ivBase
      ivEnabled := k.control.ivEnabled.trans h.control.ivEnabled
      ivQueue := k.control.ivQueue.trans h.control.ivQueue }
  memWf := k.memWf ∘ h.memWf
  memInRange := k.memInRange ∘ h.memInRange

/-- The rule of every register write: its register must be one of `ds`. -/
theorem setReg {ds : List RegIdx} (s : State) {r : RegIdx} (v : Word) (hr : r ∈ ds) : DataFrame ds s (s.setReg r v) where
  regs := fun q hq => s.reg_setReg_ne r q v fun e => hq (e ▸ hr)
  control := ⟨⟨rfl, rfl⟩, rfl, rfl, rfl, rfl, rfl⟩
  memWf := id
  memInRange := id

theorem logCalls (ds : List RegIdx) (s : State) (calls : List DeviceCall) : DataFrame ds s (s.logCalls calls) where
  regs := fun _ _ => rfl
  control := ⟨⟨rfl, rfl⟩, rfl, rfl, rfl, rfl, rfl⟩
  memWf := id
  memInRange := id

theorem memWrite {ds : List RegIdx} {s t : State} {va n : Nat} {v : Word} (h : s.memWrite va n v = .ok t) :
    DataFrame ds s t := by
  obtain ⟨⟨m, calls, rfl⟩, hwf, hrange⟩ := s.memWrite_ok t va n v h
  exact ⟨fun _ _ => rfl, ⟨⟨rfl, rfl⟩, rfl, rfl, rfl, rfl, rfl⟩, hwf, hrange⟩

/-! One rule per operation that several meanings share. -/

theorem loadInto {s t : State} {d : RegIdx} {ea n : Nat} (h : s.loadInto d ea n = .ok t) : DataFrame [d] s t := by
  obtain ⟨bs, calls, _, rfl⟩ := s.loadInto_ok t d ea n h
  exact (logCalls _ s calls).trans (setReg _ _ (by simp))

theorem arithInto {s t : State} {op : Nat → Nat → Nat → Except Fault Int} {rx ry : Sel} {ib : Nat}
    (h : s.arithInto op rx ry ib = .ok t) : DataFrame [tgt rx] s t := by
  obtain ⟨v, _, rfl⟩ := s.arithInto_ok t op rx ry ib h
  exact setReg s _ (by simp)

theorem bitwiseInto (s : State) (op : Word → Nat → Word) (rx ry : Sel) (ib : Nat) :
    DataFrame [bitwiseTgt rx ry] s (s.bitwiseInto op rx ry ib) := setReg s _ (by simp)

theorem branchIf (s : State) (c : Bool) (target : Word) : DataFrame [s.params.regPc] s (s.branchIf c target) := by
  cases c with
  | false => exact refl _ s
  | true => exact setReg s _ (by simp)

theorem callTo (s : State) (target : Word) : DataFrame [s.params.regPc, s.params.regRet] s (s.callTo target) :=
  (setReg s _ (by simp)).trans (setReg _ _ (by simp))

theorem pushWord {s t : State} {p : RegIdx} {v : Word} (h : s.pushWord p v = .ok t) : DataFrame [p] s t :=
  (setReg s _ (by simp)).trans (memWrite (s.pushWord_ok t p v h).2)

theorem popWord {s t : State} {p d : RegIdx} (h : s.popWord p d = .ok t) : DataFrame [p, d] s t := by
  obtain ⟨_, v, s', hr, rfl⟩ := s.popWord_ok t p d h
  obtain ⟨_, calls, _, _, rfl⟩ := s.memRead_ok s' _ _ v hr
  exact (logCalls _ s calls).trans ((setReg _ _ (by simp)).trans (setReg _ _ (by simp)))

end DataFrame

/-- The pointer register of PUSH and POP as `destRegs` writes it (48_stack.md R260). -/
theorem stackPtr_eq_getD (s : State) (rx : Sel) : s.stackPtr rx = rx.getD s.params.regSp := by cases rx <;> rfl

/-! ### Every instruction -/

/-- The next states `exec` can answer from `s`: a data frame on the instruction's destinations, or one of the six
instructions that change control state, each with its state. -/
inductive ExecNext (s : State) : Instr → State → Prop where
  | data {i : Instr} {t : State} (frame : DataFrame (destRegs s.params i) s t) : ExecNext s i t
  | stop : ExecNext s .stop { s with run := .halted }
  | iret : ExecNext s .iret s.returnFromInterrupt
  | intvec (rx ry : Sel) (ib : Nat) :
      ExecNext s (.intvec rx ry ib) { s with ivBase := s.val rx, ivEnabled := intvecEnables (s.val ry) ib }
  | seti : ExecNext s .seti { s with ivEnabled := true }
  | clri : ExecNext s .clri { s with ivEnabled := false }
  | mmucfg (rx ry : Sel) (ib : Nat) {s1 : State} (init : s.initializeMmu rx ry = .ok s1) :
      ExecNext s (.mmucfg rx ry ib) (s1.switchPaging ib)

/-- An instruction whose meaning is a result passed to `finish`. -/
theorem ExecNext.of_finish {s t : State} {i : Instr} {r : Except Fault State} (h : finish r = .next t)
    (frame : r = .ok t → DataFrame (destRegs s.params i) s t) : ExecNext s i t :=
  .data (frame ((finish_eq_next r t).mp h))

/-- An instruction that always answers. -/
theorem ExecNext.of_next {s t u : State} {i : Instr} (h : Host.Outcome.next u = (.next t : Result))
    (frame : DataFrame (destRegs s.params i) s u) : ExecNext s i t := by
  obtain rfl := Host.Outcome.next.inj h
  exact .data frame

/-- MMUCFG answers only when the table it was given, if any, expands, and then switches paging (47_mmu_config.md R250). -/
theorem execMmucfg_next (rx ry : Sel) (ib : Nat) (s t : State) (h : execMmucfg rx ry ib s = .next t) :
    ∃ s1, s.initializeMmu rx ry = .ok s1 ∧ t = s1.switchPaging ib := by
  unfold execMmucfg at h
  split at h
  · simp at h
  · rename_i s1 hinit
    exact ⟨s1, hinit, (Host.Outcome.next.inj h).symm⟩

/-- THE INVERSION OF `exec`: the answers of `ExecNext` are all there are. -/
theorem exec_next (i : Instr) (s t : State) (h : exec i s = .next t) : ExecNext s i t := by
  cases i with
  | stop => obtain rfl := Host.Outcome.next.inj h; exact .stop
  | iret => obtain rfl := Host.Outcome.next.inj h; exact .iret
  | intvec rx ry ib => obtain rfl := Host.Outcome.next.inj h; exact .intvec rx ry ib
  | seti => obtain rfl := Host.Outcome.next.inj h; exact .seti
  | clri => obtain rfl := Host.Outcome.next.inj h; exact .clri
  | mmucfg rx ry ib =>
    obtain ⟨s1, hinit, rfl⟩ := execMmucfg_next rx ry ib s t h
    exact .mmucfg rx ry ib hinit
  | load8i _ | load16i _ | loadi _ | load8 _ _ _ | load16 _ _ _ | load _ _ _ => exact .of_finish h .loadInto
  | store8i _ | store16i _ | storei _ | store8 _ _ _ | store16 _ _ _ | store _ _ _ => exact .of_finish h .memWrite
  | div _ _ _ | mod _ _ _ => exact .of_finish h .arithInto
  | shl _ _ _ | shr _ _ _ | and _ _ _ | or _ _ _ | xor _ _ _ => exact .of_next h (.bitwiseInto s _ _ _ _)
  | add _ _ _ | sub _ _ _ | mul _ _ _ | mov _ _ _ | movi _ | not _ | bi _ | b _ | rts =>
    exact .of_next h (.setReg s _ List.mem_cons_self)
  | swap _ _ _ => exact .of_next h ((DataFrame.setReg s _ (by simp [destRegs])).trans (.setReg _ _ (by simp [destRegs])))
  | bzi _ | bnzi _ | bz _ _ | bnz _ _ | beq _ _ _ | bne _ _ _ | brz _ _ _ => exact .of_next h (.branchIf s _ _)
  | bsri _ | bsr _ => exact .of_next h (.callTo s _)
  | push rx _ =>
    refine .of_finish h fun hp => ?_
    rw [stackPtr_eq_getD] at hp
    exact .pushWord hp
  | pop rx ry =>
    refine .of_finish h fun hp => ?_
    rw [stackPtr_eq_getD] at hp
    exact .popWord hp

end Sys2Proof.Spec
end

section
/-! PROOFS. What each instruction leaves unchanged: registers, MMU state, interrupt state (10_state.md sections 2 and 5). -/
namespace Sys2Proof.Spec
open Sys2Proof.Machine

/-- Settles O53: a data frame says so itself; of the control instructions only IRET writes a register, `pc`. -/
theorem onlyDestinationRegistersChange : Obligations.OnlyDestinationRegistersChange := by
  intro i s t h
  cases exec_next i s t h with
  | data frame => exact frame.regs
  | iret => exact (DataFrame.setReg s s.ret (by simp [destRegs])).regs
  | mmucfg rx ry ib init =>
    obtain ⟨⟨ms, rfl⟩, _⟩ := s.initializeMmu_ok _ rx ry init
    exact fun _ _ => rfl
  | stop | intvec | seti | clri => exact fun _ _ => rfl

/-- Settles O54: every answer but MMUCFG's keeps the MMU state, by the frame or by its own state. -/
theorem onlyMmucfgChangesTheMmu : Obligations.OnlyMmucfgChangesTheMmu := by
  intro i s t h hi
  cases exec_next i s t h with
  | data frame => exact ⟨frame.control.mmuEnabled, frame.control.mmuTable⟩
  | mmucfg rx ry ib init => exact absurd rfl (hi rx ry ib)
  | stop | iret | intvec | seti | clri => exact ⟨rfl, rfl⟩

/-- Settles O55: the data frame keeps all three; IRET, INTVEC, SETI and CLRI are the excepted ones and keep the rest. -/
theorem onlyInterruptInstructionsChangeIv : Obligations.OnlyInterruptInstructionsChangeIv := by
  intro i s t h
  cases exec_next i s t h with
  | data frame => exact ⟨frame.control.ivQueue, fun _ => frame.control.ivBase, fun _ _ _ _ => frame.control.ivEnabled⟩
  | stop => exact ⟨rfl, fun _ => rfl, fun _ _ _ _ => rfl⟩
  | iret => exact ⟨rfl, fun _ => rfl, fun _ _ _ hne => absurd rfl hne⟩
  | intvec rx ry ib => exact ⟨rfl, fun hne => absurd rfl (hne rx ry ib), fun hne => absurd rfl (hne rx ry ib)⟩
  | seti => exact ⟨rfl, fun _ => rfl, fun _ hne => absurd rfl hne⟩
  | clri => exact ⟨rfl, fun _ => rfl, fun _ _ hne => absurd rfl hne⟩
  | mmucfg rx ry ib init =>
    obtain ⟨⟨ms, rfl⟩, _⟩ := s.initializeMmu_ok _ rx ry init
    exact ⟨rfl, fun _ => rfl, fun _ _ _ _ => rfl⟩

end Sys2Proof.Spec
end

section
/-! PROOFS. The invariant of the machine along every step, raise and reset (20_memory.md R50, R72, R73). -/
namespace Sys2Proof.Spec
open Sys2Proof.Machine

/-- The invariant speaks of memory, MEM_SIZE and the table alone. -/
theorem inv_congr {s t : State} (h : s.Inv) (hmem : t.mem = s.mem) (hparams : t.params = s.params)
    (htable : t.mmuTable = s.mmuTable) : t.Inv where
  memWf := hmem ▸ h.memWf
  memInRange := by unfold MemInRange; rw [hmem, hparams]; exact h.memInRange
  tableLinear := htable ▸ h.tableLinear

theorem DataFrame.inv {ds : List RegIdx} {s t : State} (frame : DataFrame ds s t) (h : s.Inv) : t.Inv where
  memWf := frame.memWf h.memWf
  memInRange := frame.memInRange h.memInRange
  tableLinear := frame.control.mmuTable ▸ h.tableLinear

/-- The drain moves an entry from the queue to registers. -/
theorem drain_inv {s t : State} (hd : s.drain = .ok t) (h : s.Inv) : t.Inv ∧ t.params = s.params := by
  rcases s.drain_ok t hd with ⟨_, rfl⟩ | ⟨n, rest, _, _, rfl⟩
  · exact ⟨h, rfl⟩
  · exact ⟨inv_congr h rfl rfl rfl, rfl⟩

/-- The fetch advances `pc` and logs device calls. -/
theorem fetch_inv {s t : State} {w : Word} (hf : s.fetch = .ok (w, t)) (h : s.Inv) : t.Inv ∧ t.params = s.params := by
  obtain ⟨_, calls, _, _, rfl, rfl⟩ := s.fetch_ok t w hf
  exact ⟨inv_congr h rfl rfl rfl, rfl⟩

/-- Stores keep memory canonical and in range, MMUCFG builds a linear table from canonical memory, and no other instruction
touches either. -/
theorem exec_inv {i : Instr} {s t : State} (he : exec i s = .next t) (h : s.Inv) : t.Inv ∧ t.params = s.params := by
  cases exec_next i s t he with
  | data frame => exact ⟨frame.inv h, frame.control.params⟩
  | mmucfg rx ry ib init =>
    obtain ⟨⟨ms, rfl⟩, hlinear⟩ := s.initializeMmu_ok _ rx ry init
    exact ⟨⟨h.memWf, h.memInRange, hlinear h.memWf h.tableLinear⟩, rfl⟩
  | stop | iret | intvec | seti | clri => exact ⟨inv_congr h rfl rfl rfl, rfl⟩

/-- A step that answers is a drain, a fetch and an instruction, or leaves a halted state as it is. -/
theorem step_inv {s t : State} (hs : step s = .next t) (h : s.Inv) : t.Inv ∧ t.params = s.params := by
  rcases step_next s t hs with ⟨_, rfl⟩ | ⟨s1, s2, w, i, _, hdrain, hfetch, _, hexec⟩
  · exact ⟨h, rfl⟩
  · obtain ⟨h1, p1⟩ := drain_inv hdrain h
    obtain ⟨h2, p2⟩ := fetch_inv hfetch h1
    obtain ⟨h3, p3⟩ := exec_inv hexec h2
    exact ⟨h3, p3.trans (p2.trans p1)⟩

theorem raiseInterrupt_inv {s : State} (n : Nat) (h : s.Inv) :
    (s.raiseInterrupt n).Inv ∧ (s.raiseInterrupt n).params = s.params := by
  rcases s.raiseInterrupt_eq n with e | e <;> rw [e]
  · exact ⟨h, rfl⟩
  · exact ⟨inv_congr h rfl rfl rfl, rfl⟩

/-- Reset keeps memory and empties the table. -/
theorem hostReset_inv {s : State} (h : s.Inv) : s.hostReset.Inv := ⟨h.memWf, h.memInRange, trivial⟩

/-- Settles O50, from the rules of the three phases of a step, of a raise and of a reset. -/
theorem everyStepKeepsTheInvariant : Obligations.EveryStepKeepsTheInvariant := fun _ h =>
  ⟨fun _ hs => step_inv hs h, fun n => raiseInterrupt_inv n h, hostReset_inv h⟩

end Sys2Proof.Spec
end

section
/-! PROOFS. Sized reads byte by byte: which device calls they log, when they answer, and with which fault they fail
(20_memory.md R59, R60). -/
namespace Sys2Proof.Spec
open Sys2Proof.Machine

/-! ### Device calls -/

/-- Device calls depend on translation and the parameters, not on the log. -/
@[simp] theorem getCalls_logCalls (s : State) (calls : List DeviceCall) (va n : Nat) :
    getCalls (s.logCalls calls) va n = getCalls s va n := rfl

/-- The calls of a read are those of its first byte and then those of the rest. -/
theorem getCalls_succ (s : State) (va n pa : Nat) (h : s.translate va = .ok pa) :
    getCalls s va (n + 1) = s.getCall pa ++ getCalls s (va + 1) n := by
  have hrest : ∀ k, va + 1 + k = va + Nat.succ k := fun k => by omega
  unfold getCalls State.getCall
  rw [List.range_succ_eq_map, List.filterMap_cons, List.filterMap_map]
  cases hs : s.isSpecial pa <;> simp only [Function.comp_def, Nat.add_zero, h, hs, hrest] <;> rfl

/-- Where no device stands there are no calls. -/
theorem getCalls_noDevice (s : State) (va n : Nat) (h : NoDevice s va n) : getCalls s va n = [] := by
  refine List.filterMap_eq_nil_iff.mpr fun k hk => ?_
  cases htr : s.translate (va + k) with
  | error f => rfl
  | ok pa => simp [h k (List.mem_range.mp hk) pa htr]

/-- A read that answers logs exactly the calls of `getCalls`. -/
theorem readBytes_getCalls (n va : Nat) (s t : State) (bs : List Byte) (h : readBytes n va s = .ok (bs, t)) :
    t = s.logCalls (getCalls s va n) := by
  induction n generalizing va s t bs with
  | zero =>
    obtain ⟨_, rfl⟩ := Prod.mk.inj (Except.ok.inj h)
    exact s.logCalls_nil.symm
  | succ n ih =>
    simp only [readBytes] at h
    split at h
    · simp at h
    · rename_i b s1 hb
      obtain ⟨pa, htr, _, _, rfl⟩ := s.readByte_ok s1 va b hb
      split at h
      · simp at h
      · rename_i bs' s2 hbs
        obtain ⟨_, rfl⟩ := Prod.mk.inj (Except.ok.inj h)
        rw [ih _ _ _ _ hbs, getCalls_logCalls, State.logCalls_logCalls, getCalls_succ s va n pa htr]

theorem memRead_getCalls (s t : State) (va n : Nat) (v : Word) (h : s.memRead va n = .ok (v, t)) :
    t = s.logCalls (getCalls s va n) := by
  unfold State.memRead at h
  split at h
  · simp at h
  · rename_i bs s' hbs
    obtain ⟨_, rfl⟩ := Prod.mk.inj (Except.ok.inj h)
    exact readBytes_getCalls n va s s' bs hbs

/-! ### Answering and faulting -/

/-- An access is accessible when its first byte and the rest are. -/
theorem accessible_succ (s : State) (va n : Nat) :
    Accessible s va (n + 1) ↔ (∃ pa, s.translate va = .ok pa ∧ pa < s.params.memSize) ∧ Accessible s (va + 1) n := by
  have hrest : ∀ k, va + (k + 1) = va + 1 + k := fun k => by omega
  refine ⟨fun h => ⟨h 0 (by omega), fun k hk => hrest k ▸ h (k + 1) (by omega)⟩, fun ⟨h0, h⟩ k hk => ?_⟩
  cases k with
  | zero => exact h0
  | succ k => exact (hrest k).symm ▸ h k (by omega)

/-- The lowest failing byte is the first one, or the first one is accessible and it is the lowest failing byte of the rest. -/
theorem firstFault_succ (s : State) (va n : Nat) (f : Fault) (h : FirstFault s va (n + 1) f) :
    ByteFaults s va f ∨ (∃ pa, s.translate va = .ok pa ∧ pa < s.params.memSize) ∧ FirstFault s (va + 1) n f := by
  obtain ⟨k, hk, hbelow, hfault⟩ := h
  cases k with
  | zero => exact .inl hfault
  | succ k =>
    obtain ⟨hfirst, hrest⟩ := (accessible_succ s va k).mp hbelow
    have hva : va + (k + 1) = va + 1 + k := by omega
    exact .inr ⟨hfirst, k, by omega, hrest, hva ▸ hfault⟩

/-- A byte that is not accessible has a fault. -/
theorem accessible_or_byteFaults (s : State) (va : Nat) :
    (∃ pa, s.translate va = .ok pa ∧ pa < s.params.memSize) ∨ ∃ f, ByteFaults s va f := by
  cases htr : s.translate va with
  | error f => exact .inr ⟨f, .inl htr⟩
  | ok pa =>
    by_cases hlt : pa < s.params.memSize
    · exact .inl ⟨pa, rfl, hlt⟩
    · exact .inr ⟨_, .inr ⟨pa, htr, Nat.le_of_not_lt hlt, rfl⟩⟩

/-- Every access is accessible or has a lowest failing byte. -/
theorem accessible_or_firstFault (s : State) (va n : Nat) : Accessible s va n ∨ ∃ f, FirstFault s va n f := by
  induction n with
  | zero => exact .inl fun k hk => absurd hk (Nat.not_lt_zero k)
  | succ n ih =>
    rcases ih with hacc | ⟨f, k, hk, hbelow, hfault⟩
    · rcases accessible_or_byteFaults s (va + n) with hlast | ⟨f, hf⟩
      · refine .inl fun k hk => ?_
        rcases Nat.lt_succ_iff_lt_or_eq.mp hk with hlt | rfl
        · exact hacc k hlt
        · exact hlast
      · exact .inr ⟨f, n, Nat.lt_succ_self n, hacc, hf⟩
    · exact .inr ⟨f, k, Nat.lt_succ_of_lt hk, hbelow, hfault⟩

/-- A byte with a fault is not read. -/
theorem readByte_of_byteFaults (s : State) (va : Nat) (f : Fault) (h : ByteFaults s va f) : s.readByte va = .error f := by
  rcases h with htr | ⟨pa, htr, hle, rfl⟩
  · exact (s.byte_fault_of_translate va 0 f htr).1
  · exact (s.byte_fault_of_beyond va pa 0 htr hle).1

/-- An accessible read answers. -/
theorem readBytes_of_accessible (n va : Nat) (s : State) (h : Accessible s va n) :
    ∃ bs t, readBytes n va s = .ok (bs, t) := by
  induction n generalizing va s with
  | zero => exact ⟨[], s, rfl⟩
  | succ n ih =>
    obtain ⟨⟨pa, htr, hlt⟩, hrest⟩ := (accessible_succ s va n).mp h
    obtain ⟨b, hb⟩ := s.readByte_of_accessible va pa htr hlt
    obtain ⟨bs, t, hbs⟩ := ih (va + 1) (s.logCalls (s.getCall pa)) hrest
    exact ⟨b :: bs, t, by simp only [readBytes, hb, hbs]⟩

/-- A read faults with the fault of its lowest failing byte (20_memory.md R60, 60_exceptions.md R290). -/
theorem readBytes_of_firstFault (n va : Nat) (s : State) (f : Fault) (h : FirstFault s va n f) :
    readBytes n va s = .error f := by
  induction n generalizing va s with
  | zero =>
    obtain ⟨k, hk, _⟩ := h
    exact absurd hk (Nat.not_lt_zero k)
  | succ n ih =>
    rcases firstFault_succ s va n f h with hfault | ⟨⟨pa, htr, hlt⟩, hrest⟩
    · simp only [readBytes, readByte_of_byteFaults s va f hfault]
    · obtain ⟨b, hb⟩ := s.readByte_of_accessible va pa htr hlt
      have htail := ih (va + 1) (s.logCalls (s.getCall pa)) hrest
      simp only [readBytes, hb, htail]

theorem memRead_of_accessible (s : State) (va n : Nat) (h : Accessible s va n) : ∃ v t, s.memRead va n = .ok (v, t) := by
  obtain ⟨bs, t, hbs⟩ := readBytes_of_accessible n va s h
  exact ⟨wordOfBytes bs, t, by simp only [State.memRead, hbs]⟩

theorem memRead_of_firstFault (s : State) (va n : Nat) (f : Fault) (h : FirstFault s va n f) :
    s.memRead va n = .error f := by
  simp only [State.memRead, readBytes_of_firstFault n va s f h]

end Sys2Proof.Spec
end

section
/-! PROOFS. The step of a running core with nothing pending: fetch, decode, execute, and the faults of the fetch
(10_state.md R26, 20_memory.md R64, 40_fetch_dispatch.md R130, R132). -/
namespace Sys2Proof.Spec
open Sys2Proof.Machine

/-- With an empty queue the drain does nothing and the step begins with the fetch (40_fetch_dispatch.md R130, R131). -/
theorem step_eq_fetchDecodeExecute (s : State) (hrun : s.run = .running) (hqueue : s.ivQueue = []) :
    step s = fetchDecodeExecute s := by
  simp only [step, cycle, State.drain, hrun, hqueue]

/-! ### A fetch that answers -/

theorem fetch_of_memRead (s s1 : State) (w : Word) (hpc : s.pc.toNat ≤ 0xFFFFFFFC)
    (h : s.memRead s.pc.toNat 4 = .ok (w, s1)) : s.fetch = .ok (w, s1.advancePc) := by
  simp only [State.fetch, s.fetchWord_eq (by omega), h]

theorem fetchDecodeExecute_of_fetch (s t : State) (w : Word) (i : Instr) (hfetch : s.fetch = .ok (w, t))
    (hdecode : decodeWord s.params.opcodes w = .ok i) : fetchDecodeExecute s = exec i t := by
  simp only [fetchDecodeExecute, decodeExecute, hfetch, s.fetch_params t w hfetch, hdecode]

/-- Settles O8: the read at `pc` only logs the calls of its special bytes, so that `pc` is advanced from where it was. -/
theorem stepRunsTheDecodedInstruction : Obligations.StepRunsTheDecodedInstruction := by
  intro s s1 w i hpc hread hdecode
  have hlog : s1 = s.logCalls (getCalls s s.pc.toNat 4) := memRead_getCalls s s1 _ _ w hread
  have hadvance : s1.advancePc = s1.setReg s.params.regPc (s.pc + 4#32) := by rw [hlog]; rfl
  have hrun : fetchDecodeExecute s = exec i (s1.setReg s.params.regPc (s.pc + 4#32)) :=
    hadvance ▸ fetchDecodeExecute_of_fetch s _ w i (fetch_of_memRead s s1 w hpc hread) hdecode
  refine ⟨hrun, fun hr hq => (step_eq_fetchDecodeExecute s hr hq).trans hrun, hlog, fun hno => ?_⟩
  rw [hlog, getCalls_noDevice s _ _ hno, State.logCalls_nil]

/-! ### A fetch that faults -/

theorem fetchedFaults_of_fetchWord (s : State) (f : Fault) (h : s.fetchWord = .error f) : FetchedFaults s f := by
  have hfde : fetchDecodeExecute s = .fault f := by simp only [fetchDecodeExecute, State.fetch, h]
  exact ⟨hfde, fun hrun hqueue => (step_eq_fetchDecodeExecute s hrun hqueue).trans hfde⟩

/-- Which fault the byte address 2^32 gives a fetch (log entry 22). -/
theorem fetchPastTop_eq_iff (s : State) (f : Fault) :
    s.fetchPastTop = f ↔
      s.translate (2 ^ 32) = .error f ∨ ((∃ pa, s.translate (2 ^ 32) = .ok pa) ∧ f = .addressError (2 ^ 32)) := by
  unfold State.fetchPastTop addressLimit
  cases s.translate (2 ^ 32) with
  | error g => simp
  | ok pa => simp [eq_comm]

/-- Above 0xFFFFFFFC, with the bytes below 2^32 accessible, the fetch faults past the top. -/
theorem fetchWord_past_of_accessible (s : State) (hpc : 0xFFFFFFFC < s.pc.toNat)
    (h : Accessible s s.pc.toNat (2 ^ 32 - s.pc.toNat)) : s.fetchWord = .error s.fetchPastTop := by
  obtain ⟨v, t, hread⟩ := memRead_of_accessible s _ _ h
  have htop : t.fetchPastTop = s.fetchPastTop := by rw [memRead_getCalls s t _ _ v hread]; rfl
  simp only [s.fetchWord_past (by omega), hread, htop]

/-- A byte below 2^32 that fails makes the fetch fault, wherever `pc` stands. -/
theorem fetchWord_of_firstFault (s : State) (f : Fault)
    (h : FirstFault s s.pc.toNat (min 4 (2 ^ 32 - s.pc.toNat)) f) : s.fetchWord = .error f := by
  have hread := memRead_of_firstFault s _ _ f h
  rcases Nat.lt_or_ge (2 ^ 32) (s.pc.toNat + 4) with hpast | hbelow
  · rw [Nat.min_eq_right (by omega)] at hread
    simp only [s.fetchWord_past hpast, hread]
  · rw [Nat.min_eq_left (by omega)] at hread
    rw [s.fetchWord_eq hbelow, hread]

theorem fetchWord_of_fetchFault (s : State) (f : Fault) (h : FetchFault s f) : s.fetchWord = .error f := by
  rcases h with hfirst | ⟨hpc, hacc, htop⟩
  · exact fetchWord_of_firstFault s f hfirst
  · rw [fetchWord_past_of_accessible s hpc hacc, (fetchPastTop_eq_iff s f).mpr htop]

/-- A `pc` above 0xFFFFFFFC always has a fault of the fetch. -/
theorem exists_fetchFault (s : State) (hpc : 0xFFFFFFFC < s.pc.toNat) : ∃ f, FetchFault s f := by
  rcases accessible_or_firstFault s s.pc.toNat (2 ^ 32 - s.pc.toNat) with hacc | ⟨f, hf⟩
  · exact ⟨s.fetchPastTop, .inr ⟨hpc, hacc, (fetchPastTop_eq_iff s _).mp rfl⟩⟩
  · refine ⟨f, .inl ?_⟩
    rwa [Nat.min_eq_right (by omega)]

/-- Settles O10: a fault of the fetch is what fetching the word gives, and above 0xFFFFFFFC there is one. -/
theorem fetchFaultsAtLowestByte : Obligations.FetchFaultsAtLowestByte := by
  intro s
  have hfaults : ∀ f, FetchFault s f → FetchedFaults s f := fun f hf =>
    fetchedFaults_of_fetchWord s f (fetchWord_of_fetchFault s f hf)
  refine ⟨hfaults, fun hpc => ?_⟩
  obtain ⟨f, hf⟩ := exists_fetchFault s hpc
  exact ⟨f, hf, hfaults f hf⟩

end Sys2Proof.Spec
end

section
/-! PROOFS. Halted and faulted are left by reset alone (10_state.md R34, 70_reset_and_hazards.md R321). -/
namespace Sys2Proof.Spec
open Sys2Proof.Machine

theorem step_of_halted (s : State) (h : s.run = .halted) : step s = .next s := by simp only [step, cycle, h]

theorem step_of_faulted (s : State) (f : Fault) (h : s.run = .faulted f) : step s = .fault f := by
  simp only [step, cycle, h]

theorem afterCoreStep_of_fault (s : State) (f : Fault) (hrun : s.run = .running) (h : step s = .fault f) :
    s.afterCoreStep = s.afterFault f := by
  simp only [State.afterCoreStep, hrun, h]

theorem afterCoreStep_of_not_running (s : State) (h : s.run ≠ .running) : s.afterCoreStep = s := by
  cases hr : s.run with
  | running => exact absurd hr h
  | halted => simp only [State.afterCoreStep, hr]
  | faulted f => simp only [State.afterCoreStep, hr]

theorem raiseInterrupt_run (s : State) (n : Nat) : (s.raiseInterrupt n).run = s.run := by
  rcases s.raiseInterrupt_eq n with e | e <;> rw [e]

/-- Of the three events only reset changes the run state of a core that is not running. -/
theorem afterEvent_run (s : State) (e : Event) (h : s.run ≠ .running) (he : e ≠ .reset) : (s.afterEvent e).run = s.run := by
  cases e with
  | coreStep => exact congrArg State.run (afterCoreStep_of_not_running s h)
  | raise n => exact raiseInterrupt_run s n
  | reset => exact absurd rfl he

theorem runEvents_run (events : List Event) (s : State) (h : s.run ≠ .running) (he : Event.reset ∉ events) :
    (runEvents events s).run = s.run := by
  induction events generalizing s with
  | nil => rfl
  | cons e es ih =>
    obtain ⟨hne, hes⟩ := List.ne_and_not_mem_of_not_mem_cons he
    have hfirst : (s.afterEvent e).run = s.run := afterEvent_run s e h hne.symm
    exact (ih (s.afterEvent e) (hfirst ▸ h) hes).trans hfirst

/-- Settles O11, from the rules of the step and the three events outside running. -/
theorem haltedAndFaultedAreAbsorbing : Obligations.HaltedAndFaultedAreAbsorbing :=
  ⟨fun s f hrun h => congrArg State.run (afterCoreStep_of_fault s f hrun h),
    fun s h => ⟨afterCoreStep_of_not_running s h, raiseInterrupt_run s⟩,
    fun _ => rfl,
    fun s events h he => runEvents_run events s h he,
    step_of_halted, step_of_faulted⟩

end Sys2Proof.Spec
end

section
/-! PROOFS. Sized writes byte by byte: with which fault they fail, which bytes they leave, and what reading the written
bytes back gives (20_memory.md R55, R60, R61). -/
namespace Sys2Proof.Spec
open Sys2Proof.Machine

/-! ### Bytes of a word -/

@[simp] theorem length_bytesOfWord (n : Nat) (v : Word) : (bytesOfWord n v).length = n := by
  induction n generalizing v with
  | zero => rfl
  | succ n ih => simp [bytesOfWord, ih]

/-- Decomposing little-endian puts byte `k` of the word at place `k` (20_memory.md R55). -/
theorem getElem_bytesOfWord (n k : Nat) (v : Word) (h : k < (bytesOfWord n v).length) :
    (bytesOfWord n v)[k] = byteOf v k := by
  induction n generalizing v k with
  | zero => exact absurd h (Nat.not_lt_zero k)
  | succ n ih =>
    cases k with
    | zero =>
      ext i hi
      simp [bytesOfWord, byteOf]
    | succ k =>
      have hlt : k < (bytesOfWord n (v >>> 8)).length := by simpa [bytesOfWord] using h
      have hshift : byteOf (v >>> 8) k = byteOf v (k + 1) := by
        ext i hi
        simp [byteOf, Nat.mul_add, Nat.add_comm, Nat.add_left_comm]
      simpa [bytesOfWord] using (ih k (v >>> 8) hlt).trans hshift

/-- Composing the `n` low bytes gives the word's low bits, the bits above being zero (20_memory.md R55, R60). -/
theorem getLsbD_wordOfBytes_bytesOfWord (n i : Nat) (v : Word) :
    (wordOfBytes (bytesOfWord n v)).getLsbD i = (decide (i < 8 * n) && v.getLsbD i) := by
  induction n generalizing v i with
  | zero => simp [bytesOfWord, wordOfBytes]
  | succ n ih =>
    simp only [bytesOfWord, wordOfBytes, BitVec.getLsbD_or, BitVec.getLsbD_setWidth, BitVec.getLsbD_shiftLeft, ih,
      BitVec.getLsbD_ushiftRight]
    by_cases hlow : i < 8
    · have hword : i < 32 := by omega
      have hn : i < 8 * (n + 1) := by omega
      simp [hlow, hword, hn]
    · have hback : 8 + (i - 8) = i := by omega
      have hn : i - 8 < 8 * n ↔ i < 8 * (n + 1) := by omega
      by_cases hword : i < 32
      · simp [hlow, hword, hback, hn]
      · simp [hword, BitVec.getLsbD_of_ge v i (by omega)]

theorem wordOfBytes_bytesOfWord (n : Nat) (v : Word) :
    wordOfBytes (bytesOfWord n v) = BitVec.ofNat 32 (v.toNat % 2 ^ (8 * n)) := by
  refine BitVec.eq_of_getLsbD_eq fun i hi => ?_
  rw [getLsbD_wordOfBytes_bytesOfWord, BitVec.getLsbD_ofNat, Nat.testBit_mod_two_pow, BitVec.testBit_toNat]
  simp [hi]

theorem wordOfBytes_singleton (b : Byte) : wordOfBytes [b] = b.setWidth 32 := by simp [wordOfBytes]

/-! ### What a write leaves as it is -/

/-- The states translate alike and have the same devices and memory size, so that an access that succeeds, fails or meets a
device in one does so in the other. -/
structure SameAccess (s t : State) : Prop where
  translate : ∀ va, t.translate va = s.translate va
  params : t.params = s.params

namespace SameAccess

theorem noDevice {s t : State} (h : SameAccess s t) {va n : Nat} (hdev : NoDevice s va n) : NoDevice t va n :=
  fun k hk pa htr => (State.isSpecial_congr h.params pa).trans (hdev k hk pa (h.translate _ ▸ htr))

theorem distinct {s t : State} (h : SameAccess s t) {va n : Nat} (hdist : Distinct s va n) : Distinct t va n := by
  simpa only [Distinct, h.translate] using hdist

theorem firstFault {s t : State} (h : SameAccess s t) {va n : Nat} {f : Fault} (hf : FirstFault s va n f) :
    FirstFault t va n f := by
  simpa only [FirstFault, Accessible, ByteFaults, h.translate, h.params] using hf

end SameAccess

/-- A byte write that answers: the byte stands at its physical address unless a device does (20_memory.md R53). -/
theorem writeByte_next {s t : State} {va : Nat} {b : Byte} (h : s.writeByte va b = .ok t) :
    SameAccess s t ∧ ∃ pa, s.translate va = .ok pa ∧ pa < s.params.memSize ∧
      t.mem = if s.isSpecial pa then s.mem else s.mem.write pa b := by
  obtain ⟨pa, htr, hlt, rfl⟩ := s.writeByte_ok t va b h
  exact ⟨⟨fun _ => rfl, rfl⟩, pa, htr, hlt, rfl⟩

/-- A write that answers stored its first byte and then the rest. -/
theorem writeBytes_cons {b : Byte} {bs : List Byte} {va : Nat} {s t : State} (h : writeBytes (b :: bs) va s = .ok t) :
    ∃ s1, s.writeByte va b = .ok s1 ∧ writeBytes bs (va + 1) s1 = .ok t := by
  simp only [writeBytes] at h
  split at h
  · simp at h
  · rename_i s1 hb
    exact ⟨s1, hb, h⟩

theorem writeBytes_sameAccess {bs : List Byte} {va : Nat} {s t : State} (h : writeBytes bs va s = .ok t) :
    SameAccess s t := by
  obtain ⟨⟨m, calls, rfl⟩, _⟩ := writeBytes_ok bs va s t h
  exact ⟨fun _ => rfl, rfl⟩

/-- A write leaves every physical byte at which none of its addresses stands (20_memory.md R81). -/
theorem writeBytes_read_other (bs : List Byte) (va a : Nat) (s t : State) (h : writeBytes bs va s = .ok t)
    (ha : ∀ k, k < bs.length → s.translate (va + k) ≠ .ok a) : t.mem.read a = s.mem.read a := by
  induction bs generalizing va s with
  | nil => rw [← Except.ok.inj h]
  | cons b bs ih =>
    obtain ⟨s1, hb, hrest⟩ := writeBytes_cons h
    obtain ⟨hsame, pa, htr, _, hmem⟩ := writeByte_next hb
    have hne : a ≠ pa := fun e => ha 0 (by simp) (e ▸ htr)
    have htail : t.mem.read a = s1.mem.read a := ih (va + 1) s1 hrest fun k hk => by
      have hva : va + 1 + k = va + (k + 1) := by omega
      rw [hsame.translate, hva]
      exact ha (k + 1) (by simpa using hk)
    rw [htail, hmem]
    split
    · rfl
    · exact Memory.read_write_ne _ _ _ _ hne

/-! ### Faults -/

/-- A byte with a fault is not written. -/
theorem writeByte_of_byteFaults (s : State) (va : Nat) (b : Byte) (f : Fault) (h : ByteFaults s va f) :
    s.writeByte va b = .error f := by
  rcases h with htr | ⟨pa, htr, hle, rfl⟩
  · exact (s.byte_fault_of_translate va b f htr).2
  · exact (s.byte_fault_of_beyond va pa b htr hle).2

/-- A write faults with the fault of its lowest failing byte (20_memory.md R61, 60_exceptions.md R290). -/
theorem writeBytes_of_firstFault (bs : List Byte) (va : Nat) (s : State) (f : Fault)
    (h : FirstFault s va bs.length f) : writeBytes bs va s = .error f := by
  induction bs generalizing va s with
  | nil =>
    obtain ⟨k, hk, _⟩ := h
    exact absurd hk (Nat.not_lt_zero k)
  | cons b bs ih =>
    rcases firstFault_succ s va bs.length f h with hfault | ⟨⟨pa, htr, hlt⟩, hrest⟩
    · simp only [writeBytes, writeByte_of_byteFaults s va b f hfault]
    · obtain ⟨s1, hb⟩ := s.writeByte_of_accessible va pa b htr hlt
      have htail := ih (va + 1) s1 ((writeByte_next hb).1.firstFault hrest)
      simp only [writeBytes, hb, htail]

theorem memWrite_of_firstFault (s : State) (va n : Nat) (v : Word) (f : Fault) (h : FirstFault s va n f) :
    s.memWrite va n v = .error f :=
  writeBytes_of_firstFault _ va s f ((length_bytesOfWord n v).symm ▸ h)

theorem loadInto_of_firstFault (s : State) (d : RegIdx) (ea n : Nat) (f : Fault) (h : FirstFault s ea n f) :
    s.loadInto d ea n = .error f := by
  simp only [State.loadInto, memRead_of_firstFault s ea n f h]

/-- A load and a store at one access both fault with its lowest failing byte (41_load_store.md R164). -/
theorem finish_of_firstFault (s : State) (d : RegIdx) (ea n : Nat) (v : Word) (f : Fault) (h : FirstFault s ea n f) :
    finish (s.loadInto d ea n) = .fault f ∧ finish (s.memWrite ea n v) = .fault f :=
  ⟨(finish_eq_fault _ f).mpr (loadInto_of_firstFault s d ea n f h),
    (finish_eq_fault _ f).mpr (memWrite_of_firstFault s ea n v f h)⟩

/-- Settles O18: each of the twelve is a load or a store of its width at its effective address. -/
theorem loadsAndStoresFaultAtLowestByte : Obligations.LoadsAndStoresFaultAtLowestByte := fun s _ _ _ _ f =>
  ⟨finish_of_firstFault s _ _ 1 _ f, finish_of_firstFault s _ _ 2 _ f, finish_of_firstFault s _ _ 4 _ f,
    finish_of_firstFault s _ _ 1 _ f, finish_of_firstFault s _ _ 2 _ f, finish_of_firstFault s _ _ 4 _ f⟩

/-! ### Reading back what was written -/

theorem noDevice_succ {s : State} {va n : Nat} (h : NoDevice s va (n + 1)) :
    (∀ pa, s.translate va = .ok pa → s.isSpecial pa = false) ∧ NoDevice s (va + 1) n := by
  have hrest : ∀ k, va + (k + 1) = va + 1 + k := fun k => by omega
  exact ⟨h 0 (by omega), fun k hk pa htr => h (k + 1) (by omega) pa (hrest k ▸ htr)⟩

/-- The first byte's physical address is no other byte's, and the other bytes are distinct. -/
theorem distinct_succ {s : State} {va n : Nat} (h : Distinct s va (n + 1)) :
    (∀ pa, s.translate va = .ok pa → ∀ k, k < n → s.translate (va + 1 + k) ≠ .ok pa) ∧ Distinct s (va + 1) n := by
  have hrest : ∀ k, va + (k + 1) = va + 1 + k := fun k => by omega
  refine ⟨fun pa htr k hk => ?_, fun j k hjk hk pa htr => ?_⟩
  · rw [← hrest]
    exact h 0 (k + 1) (by omega) (by omega) pa htr
  · rw [← hrest] at htr ⊢
    exact h (j + 1) (k + 1) (by omega) (by omega) pa htr

/-- An accessible byte that is no device's reads as memory's, and reading it changes nothing (20_memory.md R59, R60). -/
theorem readByte_ordinary {s : State} {va pa : Nat} (htr : s.translate va = .ok pa) (hlt : pa < s.params.memSize)
    (hdev : s.isSpecial pa = false) : s.readByte va = .ok (s.mem.read pa, s) := by
  simp only [State.readByte, htr, State.physRead8, if_neg (Nat.not_le.mpr hlt), hdev, Bool.false_eq_true, if_false]

/-- The bytes just written are read back in order, where no device stands and no two of them are one physical byte. -/
theorem readBytes_of_writeBytes (bs : List Byte) (va : Nat) (s t : State) (hdev : NoDevice s va bs.length)
    (hdist : Distinct s va bs.length) (h : writeBytes bs va s = .ok t) : readBytes bs.length va t = .ok (bs, t) := by
  induction bs generalizing va s with
  | nil => rfl
  | cons b bs ih =>
    obtain ⟨s1, hb, hwrite⟩ := writeBytes_cons h
    obtain ⟨hsame, pa, htr, hlt, hmem⟩ := writeByte_next hb
    obtain ⟨hdev0, hdevs⟩ := noDevice_succ hdev
    obtain ⟨hdist0, hdists⟩ := distinct_succ hdist
    have hrest : readBytes bs.length (va + 1) t = .ok (bs, t) :=
      ih (va + 1) s1 (hsame.noDevice hdevs) (hsame.distinct hdists) hwrite
    have hkept : t.mem.read pa = b := by
      rw [writeBytes_read_other bs (va + 1) pa s1 t hwrite fun k hk => hsame.translate _ ▸ hdist0 pa htr k hk, hmem,
        hdev0 pa htr]
      exact Memory.read_write_same _ _ _
    have hst : SameAccess s t := writeBytes_sameAccess h
    have hfirst : t.readByte va = .ok (b, t) :=
      hkept ▸ readByte_ordinary ((hst.translate va).trans htr) (hst.params.symm ▸ hlt)
        ((State.isSpecial_congr hst.params pa).trans (hdev0 pa htr))
    simp only [List.length_cons, readBytes, hfirst, hrest]

/-- Where no device stands, each byte inside an access that answers reads by itself as it does there. -/
theorem readByte_of_readBytes (n va : Nat) (s t : State) (bs : List Byte) (hdev : NoDevice s va n)
    (h : readBytes n va s = .ok (bs, t)) (k : Nat) (hk : k < bs.length) : s.readByte (va + k) = .ok (bs[k], s) := by
  induction n generalizing va bs t k with
  | zero =>
    obtain ⟨rfl, _⟩ := Prod.mk.inj (Except.ok.inj h)
    exact absurd hk (Nat.not_lt_zero k)
  | succ n ih =>
    obtain ⟨hdev0, hdevs⟩ := noDevice_succ hdev
    simp only [readBytes] at h
    split at h
    · simp at h
    · rename_i b s1 hb
      obtain ⟨pa, htr, hlt, _, _⟩ := s.readByte_ok s1 va b hb
      obtain ⟨_, rfl⟩ := Prod.mk.inj (Except.ok.inj (hb.symm.trans (readByte_ordinary htr hlt (hdev0 pa htr))))
      split at h
      · simp at h
      · rename_i bs' s2 hbs
        obtain ⟨rfl, _⟩ := Prod.mk.inj (Except.ok.inj h)
        cases k with
        | zero => exact hb
        | succ k =>
          have hva : va + (k + 1) = va + 1 + k := by omega
          exact hva ▸ ih (va + 1) s2 bs' hdevs hbs k (by simpa using hk)

/-- Reading one byte of memory gives that byte zero-extended. -/
theorem memRead_one {s : State} {va : Nat} {b : Byte} (h : s.readByte va = .ok (b, s)) :
    s.memRead va 1 = .ok (b.setWidth 32, s) := by
  simp only [State.memRead, readBytes, h, wordOfBytes_singleton]

/-- The bytes of a word that was just stored are read back, by its own access and one by one. -/
theorem readBytes_of_memWrite {s t : State} {va n : Nat} {v : Word} (hdev : NoDevice s va n) (hdist : Distinct s va n)
    (h : s.memWrite va n v = .ok t) : readBytes n va t = .ok (bytesOfWord n v, t) := by
  have hread := readBytes_of_writeBytes (bytesOfWord n v) va s t
  rw [length_bytesOfWord] at hread
  exact hread hdev hdist h

/-- Settles O19: the stored bytes compose to the low bytes of the word, and byte `k` of them is byte `k` of the word. -/
theorem loadAfterStoreSeesTheBytes : Obligations.LoadAfterStoreSeesTheBytes := by
  intro s t va n v _ hdev hdist h
  have hread : readBytes n va t = .ok (bytesOfWord n v, t) := readBytes_of_memWrite hdev hdist h
  have hdevt : NoDevice t va n := (writeBytes_sameAccess h).noDevice hdev
  refine ⟨by simp only [State.memRead, hread, wordOfBytes_bytesOfWord], fun k hk => ?_⟩
  have hk' : k < (bytesOfWord n v).length := (length_bytesOfWord n v).symm ▸ hk
  exact getElem_bytesOfWord n k v hk' ▸ memRead_one (readByte_of_readBytes n va t t _ hdevt hread k hk')

/-- Settles O20: the fetch is a read of the word just stored, and `pc` and the parameters are those before the store. -/
theorem storeIsSeenByTheNextFetch : Obligations.StoreIsSeenByTheNextFetch := by
  intro s t v hpc hdev hdist h
  have hread : t.memRead s.pc.toNat 4 = .ok (v, t) := by
    have hv : v.toNat % 2 ^ (8 * 4) = v.toNat := Nat.mod_eq_of_lt v.isLt
    rw [(loadAfterStoreSeesTheBytes s t _ 4 v (by omega) hdev hdist h).1, hv, BitVec.ofNat_toNat, BitVec.setWidth_eq]
  have hsame : t.params = s.params ∧ t.pc = s.pc := by
    obtain ⟨⟨m, calls, rfl⟩, _⟩ := s.memWrite_ok t _ _ v h
    exact ⟨rfl, rfl⟩
  obtain ⟨hparams, hpcs⟩ := hsame
  rw [fetch_of_memRead t t v (hpcs ▸ hpc) (hpcs ▸ hread), ← hparams, ← hpcs]
  rfl

end Sys2Proof.Spec
end

section
/-! PROOFS. Translation: the identity, the first mapping that covers the address, or the fault (20_memory.md R75). -/
namespace Sys2Proof.Spec
open Sys2Proof.Machine

theorem covers_eq_false_iff (m : Mapping) (va : Nat) :
    m.covers va = false ↔ ¬ (m.vaddr.toNat ≤ va ∧ va < m.vaddr.toNat + m.size) := by
  rw [← m.covers_iff va, Bool.not_eq_true]

theorem translate_of_disabled {s : State} (h : s.mmuEnabled = false) (va : Nat) : s.translate va = .ok va := by
  simp [State.translate, h]

/-- With paging on, the first mapping of the table that covers the address decides. -/
theorem translate_of_first {s : State} {before after : List Mapping} {m : Mapping} {va : Nat} (hon : s.mmuEnabled = true)
    (htable : s.mmuTable = before ++ m :: after)
    (hbefore : ∀ b ∈ before, ¬ (b.vaddr.toNat ≤ va ∧ va < b.vaddr.toNat + b.size)) (hlow : m.vaddr.toNat ≤ va)
    (hhigh : va < m.vaddr.toNat + m.size) : s.translate va = .ok (m.pbase + (va - m.vaddr.toNat)) := by
  have hlookup := lookupMapping_append before m after va (fun b hb => (covers_eq_false_iff b va).mpr (hbefore b hb))
    ((m.covers_iff va).mpr ⟨hlow, hhigh⟩)
  simp only [State.translate, hon, if_true, htable, hlookup]

theorem translate_of_none {s : State} {va : Nat} (hon : s.mmuEnabled = true)
    (h : ∀ m ∈ s.mmuTable, ¬ (m.vaddr.toNat ≤ va ∧ va < m.vaddr.toNat + m.size)) :
    s.translate va = .error (.unmappedPage va) := by
  have hlookup := lookupMapping_none s.mmuTable va fun m hm => (covers_eq_false_iff m va).mpr (h m hm)
  simp only [State.translate, hon, if_true, hlookup]

/-- Settles O37, its three cases being the three ways translation can go. -/
theorem translationIsFirstMatch : Obligations.TranslationIsFirstMatch := fun _ va =>
  ⟨fun hoff => translate_of_disabled hoff va,
    fun hon _ _ _ htable hbefore hlow hhigh => translate_of_first hon htable hbefore hlow hhigh,
    fun hon hnone => translate_of_none hon hnone⟩

end Sys2Proof.Spec
end

section
/-! PROOFS. What each instruction does to memory and the device log (20_memory.md R81, R82). -/
namespace Sys2Proof.Spec
open Sys2Proof.Machine

/-- From `s` to `t` the device log at most grew, and memory is as before unless the flag says that it may be stored to. -/
structure StorageFrame (stores : Bool) (s t : State) : Prop where
  mem : stores = false → t.mem = s.mem
  log : ∃ calls, t.devLog = s.devLog ++ calls

namespace StorageFrame

/-- The rule of everything that leaves memory and devices alone. -/
theorem of_same {stores : Bool} {s t : State} (hmem : t.mem = s.mem) (hlog : t.devLog = s.devLog) : StorageFrame stores s t :=
  ⟨fun _ => hmem, [], by rw [hlog, List.append_nil]⟩

theorem memWrite {s t : State} {va n : Nat} {v : Word} (h : s.memWrite va n v = .ok t) : StorageFrame true s t := by
  obtain ⟨⟨m, calls, rfl⟩, _⟩ := s.memWrite_ok t va n v h
  exact ⟨fun hf => by simp at hf, calls, rfl⟩

theorem loadInto {stores : Bool} {s t : State} {d : RegIdx} {ea n : Nat} (h : s.loadInto d ea n = .ok t) :
    StorageFrame stores s t := by
  obtain ⟨bs, calls, _, rfl⟩ := s.loadInto_ok t d ea n h
  exact ⟨fun _ => rfl, calls, rfl⟩

theorem arithInto {stores : Bool} {s t : State} {op : Nat → Nat → Nat → Except Fault Int} {rx ry : Sel} {ib : Nat}
    (h : s.arithInto op rx ry ib = .ok t) : StorageFrame stores s t := by
  obtain ⟨v, _, rfl⟩ := s.arithInto_ok t op rx ry ib h
  exact of_same rfl rfl

/-- The decrement of the pointer touches neither memory nor a device, the store after it may. -/
theorem pushWord {s t : State} {p : RegIdx} {v : Word} (h : s.pushWord p v = .ok t) : StorageFrame true s t := by
  obtain ⟨_, hstore⟩ := s.pushWord_ok t p v h
  obtain ⟨_, hlog⟩ := memWrite hstore
  exact ⟨fun hf => by simp at hf, hlog⟩

theorem popWord {stores : Bool} {s t : State} {p d : RegIdx} (h : s.popWord p d = .ok t) : StorageFrame stores s t := by
  obtain ⟨_, v, s', hr, rfl⟩ := s.popWord_ok t p d h
  obtain ⟨_, calls, _, _, rfl⟩ := s.memRead_ok s' _ _ v hr
  exact ⟨fun _ => rfl, calls, rfl⟩

end StorageFrame

/-- Every instruction that answers keeps the storage frame, in which only the six stores and PUSH may store. -/
theorem exec_storageFrame (i : Instr) (s t : State) (h : exec i s = .next t) : StorageFrame (isStore i) s t := by
  cases i with
  | load8i _ | load16i _ | loadi _ | load8 _ _ _ | load16 _ _ _ | load _ _ _ =>
    exact .loadInto ((finish_eq_next _ t).mp h)
  | store8i _ | store16i _ | storei _ | store8 _ _ _ | store16 _ _ _ | store _ _ _ =>
    exact .memWrite ((finish_eq_next _ t).mp h)
  | div _ _ _ | mod _ _ _ => exact .arithInto ((finish_eq_next _ t).mp h)
  | push _ _ => exact .pushWord ((finish_eq_next _ t).mp h)
  | pop _ _ => exact .popWord ((finish_eq_next _ t).mp h)
  | mmucfg rx ry ib =>
    obtain ⟨s1, hinit, rfl⟩ := execMmucfg_next rx ry ib s t h
    obtain ⟨⟨ms, rfl⟩, _⟩ := s.initializeMmu_ok s1 rx ry hinit
    exact .of_same rfl rfl
  | bzi _ | bnzi _ | bz _ _ | bnz _ _ | beq _ _ _ | bne _ _ _ | brz _ _ _ =>
    obtain rfl := Host.Outcome.next.inj h
    exact .of_same (s.branchIf_mem _ _) (s.branchIf_devLog _ _)
  | stop | iret | add _ _ _ | sub _ _ _ | mul _ _ _ | mov _ _ _ | movi _ | swap _ _ _ | shl _ _ _ | shr _ _ _
  | and _ _ _ | or _ _ _ | xor _ _ _ | not _ | bi _ | b _ | bsri _ | bsr _ | rts | intvec _ _ _ | seti | clri =>
    obtain rfl := Host.Outcome.next.inj h
    exact .of_same rfl rfl

/-- Settles O56, from the storage frame of every instruction. -/
theorem onlyStoresChangeMemory : Obligations.OnlyStoresChangeMemory := fun i s t h =>
  have frame := exec_storageFrame i s t h
  ⟨fun hstore a => by rw [frame.mem hstore], frame.log⟩

end Sys2Proof.Spec
end

section
/-! PROOFS. Two states that memory accesses cannot tell apart answer alike, said once for every relation between states; and
of these, states that differ in the protection flags alone, which step alike (20_memory.md R75, R77). -/
namespace Sys2Proof.Spec
open Sys2Proof.Machine

/-! ### Relations that memory accesses respect -/

/-- The results are the same fault, or related values. -/
def ResultsAgree {α : Type} (R : α → α → Prop) (r r' : Except Fault α) : Prop :=
  (∃ f, r = .error f ∧ r' = .error f) ∨ ∃ a b, r = .ok a ∧ r' = .ok b ∧ R a b

/-- The same value beside related states. -/
def ValueAgree {α : Type} (R : State → State → Prop) (p q : α × State) : Prop := p.1 = q.1 ∧ R p.2 q.2

theorem ResultsAgree.error {α : Type} {R : α → α → Prop} (f : Fault) : ResultsAgree R (.error f) (.error f) :=
  .inl ⟨f, rfl, rfl⟩

theorem ResultsAgree.ok {α : Type} {R : α → α → Prop} {a b : α} (h : R a b) : ResultsAgree R (.ok a) (.ok b) :=
  .inr ⟨a, b, rfl, rfl, h⟩

theorem ResultsAgree.value {α : Type} {R : State → State → Prop} {s t : State} (v : α) (h : R s t) :
    ResultsAgree (ValueAgree R) (.ok (v, s)) (.ok (v, t)) := .ok ⟨rfl, h⟩

theorem ResultsAgree.value_cases {α : Type} {R : State → State → Prop} {r r' : Except Fault (α × State)}
    (h : ResultsAgree (ValueAgree R) r r') :
    (∃ f, r = .error f ∧ r' = .error f) ∨ ∃ v s t, r = .ok (v, s) ∧ r' = .ok (v, t) ∧ R s t := by
  rcases h with hf | ⟨⟨v, s⟩, ⟨v', t⟩, hr, hr', hv, hst⟩
  · exact .inl hf
  · obtain rfl : v = v' := hv
    exact .inr ⟨v, s, t, hr, hr', hst⟩

theorem ResultsAgree.finish {R : State → State → Prop} {r r' : Except Fault State} (h : ResultsAgree R r r') :
    AnswersAgree R (finish r) (finish r') := by
  rcases h with ⟨f, rfl, rfl⟩ | ⟨s, t, rfl, rfl, h⟩
  · exact rfl
  · exact h

/-- Related states have the same parameters, registers, memory and device log and translate alike, and stay related under
the three updates that memory accesses make. -/
structure AccessCongruence (R : State → State → Prop) : Prop where
  params : ∀ {s t}, R s t → t.params = s.params
  reg : ∀ {s t}, R s t → ∀ r, t.reg r = s.reg r
  mem : ∀ {s t}, R s t → t.mem = s.mem
  devLog : ∀ {s t}, R s t → t.devLog = s.devLog
  translate : ∀ {s t}, R s t → ∀ va, t.translate va = s.translate va
  setReg : ∀ {s t}, R s t → ∀ r v, R (s.setReg r v) (t.setReg r v)
  logCalls : ∀ {s t}, R s t → ∀ calls, R (s.logCalls calls) (t.logCalls calls)
  setMem : ∀ {s t}, R s t → ∀ m, R (s.setMem m) (t.setMem m)

namespace AccessCongruence

variable {R : State → State → Prop} {s t : State}

theorem isSpecial (hR : AccessCongruence R) (h : R s t) (pa : Nat) : t.isSpecial pa = s.isSpecial pa :=
  State.isSpecial_congr (hR.params h) pa

theorem pc (hR : AccessCongruence R) (h : R s t) : t.pc = s.pc := by
  simp only [State.pc, hR.params h, hR.reg h]

theorem val (hR : AccessCongruence R) (h : R s t) (r : Sel) : t.val r = s.val r := by
  cases r with
  | none => rfl
  | some r => exact hR.reg h r

theorem physRead8 (hR : AccessCongruence R) (h : R s t) (pa : Nat) :
    ResultsAgree (ValueAgree R) (s.physRead8 pa) (t.physRead8 pa) := by
  have hdrawn : s.drawnByte pa = t.drawnByte pa := by simp only [State.drawnByte, hR.devLog h]
  simp only [State.physRead8, hR.params h, hR.isSpecial h, hR.mem h]
  split
  · exact .error _
  · split
    · exact .ok ⟨hdrawn, hR.logCalls h _⟩
    · exact .value _ h

theorem physWrite8 (hR : AccessCongruence R) (h : R s t) (pa : Nat) (b : Byte) :
    ResultsAgree R (s.physWrite8 pa b) (t.physWrite8 pa b) := by
  simp only [State.physWrite8, hR.params h, hR.isSpecial h, hR.mem h]
  split
  · exact .error _
  · split
    · exact .ok (hR.logCalls h _)
    · exact .ok (hR.setMem h _)

theorem readByte (hR : AccessCongruence R) (h : R s t) (va : Nat) :
    ResultsAgree (ValueAgree R) (s.readByte va) (t.readByte va) := by
  simp only [State.readByte, hR.translate h]
  split
  · exact .error _
  · exact hR.physRead8 h _

theorem writeByte (hR : AccessCongruence R) (h : R s t) (va : Nat) (b : Byte) :
    ResultsAgree R (s.writeByte va b) (t.writeByte va b) := by
  simp only [State.writeByte, hR.translate h]
  split
  · exact .error _
  · exact hR.physWrite8 h _ b

theorem readBytes (hR : AccessCongruence R) (h : R s t) (n va : Nat) :
    ResultsAgree (ValueAgree R) (readBytes n va s) (readBytes n va t) := by
  induction n generalizing va s t with
  | zero => exact .value [] h
  | succ n ih =>
    rcases (hR.readByte h va).value_cases with ⟨f, hs, ht⟩ | ⟨b, s1, t1, hs, ht, h1⟩
    · simp only [Machine.readBytes, hs, ht]
      exact .error f
    · simp only [Machine.readBytes, hs, ht]
      rcases (ih h1 (va + 1)).value_cases with ⟨f, hs', ht'⟩ | ⟨bs, s2, t2, hs', ht', h2⟩
      · simp only [hs', ht']
        exact .error f
      · simp only [hs', ht']
        exact .value _ h2

theorem writeBytes (hR : AccessCongruence R) (h : R s t) (bs : List Byte) (va : Nat) :
    ResultsAgree R (writeBytes bs va s) (writeBytes bs va t) := by
  induction bs generalizing va s t with
  | nil => exact .ok h
  | cons b bs ih =>
    rcases hR.writeByte h va b with ⟨f, hs, ht⟩ | ⟨s1, t1, hs, ht, h1⟩
    · simp only [Machine.writeBytes, hs, ht]
      exact .error f
    · simp only [Machine.writeBytes, hs, ht]
      exact ih h1 (va + 1)

theorem memRead (hR : AccessCongruence R) (h : R s t) (va n : Nat) :
    ResultsAgree (ValueAgree R) (s.memRead va n) (t.memRead va n) := by
  rcases (hR.readBytes h n va).value_cases with ⟨f, hs, ht⟩ | ⟨bs, s1, t1, hs, ht, h1⟩
  · simp only [State.memRead, hs, ht]
    exact .error f
  · simp only [State.memRead, hs, ht]
    exact .value _ h1

theorem memWrite (hR : AccessCongruence R) (h : R s t) (va n : Nat) (v : Word) :
    ResultsAgree R (s.memWrite va n v) (t.memWrite va n v) := hR.writeBytes h _ va

/-! The operations that meanings and the step share. -/

theorem loadInto (hR : AccessCongruence R) (h : R s t) (d : RegIdx) (ea n : Nat) :
    ResultsAgree R (s.loadInto d ea n) (t.loadInto d ea n) := by
  rcases (hR.memRead h ea n).value_cases with ⟨f, hs, ht⟩ | ⟨v, s1, t1, hs, ht, h1⟩
  · simp only [State.loadInto, hs, ht]
    exact .error f
  · simp only [State.loadInto, hs, ht]
    exact .ok (hR.setReg h1 d v)

theorem pushWord (hR : AccessCongruence R) (h : R s t) (p : RegIdx) (v : Word) :
    ResultsAgree R (s.pushWord p v) (t.pushWord p v) := by
  have hdec : R (s.decrementPtr p) (t.decrementPtr p) := by
    unfold State.decrementPtr
    rw [hR.reg h]
    exact hR.setReg h p _
  simp only [State.pushWord, hR.params h, hR.reg h, hR.reg hdec]
  split
  · exact .error _
  · exact hR.memWrite hdec _ _ v

theorem popWord (hR : AccessCongruence R) (h : R s t) (p d : RegIdx) :
    ResultsAgree R (s.popWord p d) (t.popWord p d) := by
  simp only [State.popWord, hR.params h, hR.reg h]
  split
  · exact .error _
  · rcases (hR.memRead h (s.reg p).toNat Config.wordSize).value_cases with ⟨f, hs, ht⟩ | ⟨v, s1, t1, hs, ht, h1⟩
    · simp only [hs, ht]
      exact .error f
    · simp only [hs, ht]
      exact .ok (hR.setReg (hR.setReg h1 p _) d v)

theorem arithInto (hR : AccessCongruence R) (h : R s t) (op : Nat → Nat → Nat → Except Fault Int) (rx ry : Sel)
    (ib : Nat) : ResultsAgree R (s.arithInto op rx ry ib) (t.arithInto op rx ry ib) := by
  simp only [State.arithInto, hR.val h]
  split
  · exact .error _
  · exact .ok (hR.setReg h _ _)

theorem fetchWord (hR : AccessCongruence R) (h : R s t) : ResultsAgree (ValueAgree R) s.fetchWord t.fetchWord := by
  have hpast : ∀ {s1 t1 : State}, R s1 t1 → t1.fetchPastTop = s1.fetchPastTop := fun h1 => by
    simp only [State.fetchPastTop, hR.translate h1]
  simp only [State.fetchWord, hR.pc h]
  split
  · exact hR.memRead h _ _
  · rcases (hR.memRead h s.pc.toNat (addressLimit - s.pc.toNat)).value_cases with ⟨f, hs, ht⟩ | ⟨v, s1, t1, hs, ht, h1⟩
    · simp only [hs, ht]
      exact .error f
    · simp only [hs, ht, hpast h1]
      exact .error _

theorem fetch (hR : AccessCongruence R) (h : R s t) : ResultsAgree (ValueAgree R) s.fetch t.fetch := by
  rcases (hR.fetchWord h).value_cases with ⟨f, hs, ht⟩ | ⟨w, s1, t1, hs, ht, h1⟩
  · simp only [State.fetch, hs, ht]
    exact .error f
  · simp only [State.fetch, hs, ht, State.advancePc, State.setPc, hR.params h1, hR.pc h1]
    exact .value w (hR.setReg h1 _ _)

/-- When a decoded instruction answers alike on related states, so do fetch, decode and execute. -/
theorem fetchDecodeExecute (hR : AccessCongruence R) (hexec : ∀ i {s t}, R s t → AnswersAgree R (exec i s) (exec i t))
    (h : R s t) : AnswersAgree R (fetchDecodeExecute s) (fetchDecodeExecute t) := by
  rcases (hR.fetch h).value_cases with ⟨f, hs, ht⟩ | ⟨w, s1, t1, hs, ht, h1⟩
  · simp only [Machine.fetchDecodeExecute, hs, ht, AnswersAgree]
  · simp only [Machine.fetchDecodeExecute, hs, ht, decodeExecute, hR.params h1]
    split
    · exact hexec _ h1
    · exact rfl

end AccessCongruence

/-! ### States that differ in the protection flags alone -/

/-- The mappings are the same but for their flags. -/
def SameRanges (ms ms' : List Mapping) : Prop :=
  ms'.map (fun m => (m.vaddr, m.size, m.pbase)) = ms.map (fun m => (m.vaddr, m.size, m.pbase))

/-- The lookup reads a mapping's base, size and physical base alone (20_memory.md R75, R77). -/
theorem lookupMapping_of_sameRanges {ms ms' : List Mapping} (h : SameRanges ms ms') (va : Nat) :
    lookupMapping ms' va = lookupMapping ms va := by
  induction ms generalizing ms' with
  | nil => rw [List.map_eq_nil_iff.mp h]
  | cons m ms ih =>
    obtain ⟨m', rest, rfl, hm, hrest⟩ := List.map_eq_cons_iff.mp h
    obtain ⟨hvaddr, hsize, hpbase⟩ : m'.vaddr = m.vaddr ∧ m'.size = m.size ∧ m'.pbase = m.pbase := by simpa using hm
    have hcovers : m'.covers va = m.covers va := by simp only [Mapping.covers, hvaddr, hsize]
    simp only [lookupMapping, hcovers, hvaddr, hpbase, ih hrest]

theorem sameButFlags_iff (s t : State) :
    SameButFlags s t ↔ ∃ ms, SameRanges s.mmuTable ms ∧ t = { s with mmuTable := ms } := by
  refine ⟨fun ⟨ht, hms⟩ => ⟨t.mmuTable, hms, ht⟩, ?_⟩
  rintro ⟨ms, hms, rfl⟩
  exact ⟨rfl, hms⟩

theorem accessCongruence_sameButFlags : AccessCongruence SameButFlags where
  params h := by obtain ⟨ms, hms, rfl⟩ := (sameButFlags_iff _ _).mp h; rfl
  reg h r := by obtain ⟨ms, hms, rfl⟩ := (sameButFlags_iff _ _).mp h; rfl
  mem h := by obtain ⟨ms, hms, rfl⟩ := (sameButFlags_iff _ _).mp h; rfl
  devLog h := by obtain ⟨ms, hms, rfl⟩ := (sameButFlags_iff _ _).mp h; rfl
  translate h va := by
    obtain ⟨ms, hms, rfl⟩ := (sameButFlags_iff _ _).mp h
    simp only [State.translate, lookupMapping_of_sameRanges hms]
  setReg h r v := by obtain ⟨ms, hms, rfl⟩ := (sameButFlags_iff _ _).mp h; exact ⟨rfl, hms⟩
  logCalls h calls := by obtain ⟨ms, hms, rfl⟩ := (sameButFlags_iff _ _).mp h; exact ⟨rfl, hms⟩
  setMem h m := by obtain ⟨ms, hms, rfl⟩ := (sameButFlags_iff _ _).mp h; exact ⟨rfl, hms⟩

theorem SameButFlags.branchIf {s t : State} (h : SameButFlags s t) (c : Bool) (target : Word) :
    SameButFlags (s.branchIf c target) (t.branchIf c target) := by
  obtain ⟨ms, hms, rfl⟩ := (sameButFlags_iff _ _).mp h
  cases c <;> exact ⟨rfl, hms⟩

/-- A new table is built from memory and registers alone, and none of the old one's mappings stays (20_memory.md R72). -/
theorem SameButFlags.initializeMmu {s t : State} (h : SameButFlags s t) (rx ry : Sel) :
    ResultsAgree SameButFlags (s.initializeMmu rx ry) (t.initializeMmu rx ry) := by
  cases rx with
  | none => exact .ok h
  | some r =>
    simp only [State.initializeMmu, accessCongruence_sameButFlags.val h]
    obtain ⟨ms, _, rfl⟩ := (sameButFlags_iff _ _).mp h
    unfold State.mmuInit
    cases expandTable s.params.memSize s.mem tableDepth [] (s.val (some r)).toNat (s.val ry).toNat ⟨[], 0⟩ with
    | error f => exact .error f
    | ok w => exact .ok ⟨rfl, rfl⟩

theorem SameButFlags.execMmucfg {s t : State} (h : SameButFlags s t) (rx ry : Sel) (ib : Nat) :
    AnswersAgree SameButFlags (execMmucfg rx ry ib s) (execMmucfg rx ry ib t) := by
  rcases h.initializeMmu rx ry with ⟨f, hs, ht⟩ | ⟨s1, t1, hs, ht, h1⟩
  · simp only [Machine.execMmucfg, hs, ht, AnswersAgree]
  · simp only [Machine.execMmucfg, hs, ht]
    obtain ⟨ms, hms, rfl⟩ := (sameButFlags_iff _ _).mp h1
    exact ⟨rfl, hms⟩

/-- Accesses agree because translation does, MMUCFG because it reads no mapping, and no other instruction sees the table. -/
theorem SameButFlags.exec (i : Instr) {s t : State} (h : SameButFlags s t) :
    AnswersAgree SameButFlags (exec i s) (exec i t) := by
  have hR := accessCongruence_sameButFlags
  obtain ⟨ms, hms, rfl⟩ := (sameButFlags_iff _ _).mp h
  cases i with
  | load8i _ | load16i _ | loadi _ | load8 _ _ _ | load16 _ _ _ | load _ _ _ => exact (hR.loadInto h _ _ _).finish
  | store8i _ | store16i _ | storei _ | store8 _ _ _ | store16 _ _ _ | store _ _ _ => exact (hR.memWrite h _ _ _).finish
  | div _ _ _ | mod _ _ _ => exact (hR.arithInto h _ _ _ _).finish
  | push _ _ => exact (hR.pushWord h _ _).finish
  | pop _ _ => exact (hR.popWord h _ _).finish
  | mmucfg rx ry ib => exact h.execMmucfg rx ry ib
  | bzi _ | bnzi _ | bz _ _ | bnz _ _ | beq _ _ _ | bne _ _ _ | brz _ _ _ => exact h.branchIf _ _
  | stop | iret | add _ _ _ | sub _ _ _ | mul _ _ _ | mov _ _ _ | movi _ | swap _ _ _ | shl _ _ _ | shr _ _ _
  | and _ _ _ | or _ _ _ | xor _ _ _ | not _ | bi _ | b _ | bsri _ | bsr _ | rts | intvec _ _ _ | seti | clri =>
    exact ⟨rfl, hms⟩

/-- The drain reads and changes the queue and registers alone. -/
theorem SameButFlags.drain {s t : State} (h : SameButFlags s t) : ResultsAgree SameButFlags s.drain t.drain := by
  obtain ⟨ms, hms, rfl⟩ := (sameButFlags_iff _ _).mp h
  simp only [State.drain]
  split
  · exact .ok h
  · split
    · exact .error _
    · exact .ok ⟨rfl, hms⟩

/-- Settles O59, phase by phase: the drain, and then fetch, decode and execute. -/
theorem protectionFlagsAreNotEnforced : Obligations.ProtectionFlagsAreNotEnforced := by
  intro s t hs h
  have ht : t.run = .running := by
    obtain ⟨_, _, rfl⟩ := (sameButFlags_iff _ _).mp h
    exact hs
  simp only [step, cycle, hs, ht]
  rcases h.drain with ⟨f, hds, hdt⟩ | ⟨s1, t1, hds, hdt, h1⟩
  · simp only [hds, hdt, AnswersAgree]
  · simp only [hds, hdt]
    exact accessCongruence_sameButFlags.fetchDecodeExecute (fun i _ _ h => h.exec i) h1

end Sys2Proof.Spec
end

section
/-! PROOFS. The page-table walk: the scan of listed cells as the loop over a table's entries, and the walk that MMUCFG runs as
the recursive `Expand` of R72, in both directions (20_memory.md R70 to R74). -/
namespace Sys2Proof.Spec
open Sys2Proof.Machine

/-! ### The scan of a table's present entries -/

/-- The addresses of the present entries, as the scan of the listed cells finds them. -/
def scannedAddrs (m : Memory) (pos n : Nat) : List Nat :=
  m.filterMap fun c =>
    if pos < c.1 ∧ c.1 < pos + 4 * n ∧ (c.1 - pos) % 4 = 1 ∧ c.2.getLsbD 0 = true then some (c.1 - 1) else none

/-- The addresses of the present entries, as the loop over all entries finds them. -/
def loopedAddrs (m : Memory) (pos n : Nat) : List Nat :=
  ((List.range n).map fun k => pos + 4 * k).filter fun a => isPresent (tableWord m a)

theorem presentEntries_eq_map_scanned (m : Memory) (pos n : Nat) :
    presentEntries m pos n = (scannedAddrs m pos n).map (tableWord m) := by
  unfold presentEntries scannedAddrs
  rw [List.map_filterMap]
  congr 1
  funext c
  split <;> rfl

/-- The present bit of an entry is bit 0 of its second byte (20_memory.md R70, R74). -/
theorem isPresent_tableWord (m : Memory) (a : Nat) : isPresent (tableWord m a) = (m.read (a + 1)).getLsbD 0 := by
  simp [isPresent, tableWord, wordOfBytes]

theorem mem_scannedAddrs (m : Memory) (hm : m.wf) (pos n a : Nat) :
    a ∈ scannedAddrs m pos n ↔ ∃ k, k < n ∧ pos + 4 * k = a ∧ isPresent (tableWord m a) = true := by
  simp only [scannedAddrs, List.mem_filterMap, Option.ite_none_right_eq_some, Option.some.injEq, isPresent_tableWord]
  constructor
  · rintro ⟨c, hc, ⟨hlow, hhigh, hmod, hbit⟩, rfl⟩
    have hc1 : c.1 - 1 + 1 = c.1 := by omega
    exact ⟨(c.1 - pos) / 4, by omega, by omega, by rw [hc1, Memory.read_of_mem m hm c hc, hbit]⟩
  · rintro ⟨k, hk, rfl, hbit⟩
    have hlisted : m.read (pos + 4 * k + 1) ≠ unwrittenByte := fun h => by simp [h, unwrittenByte] at hbit
    exact ⟨_, Memory.mem_of_read m _ hlisted, ⟨by omega, by omega, by omega, hbit⟩, by omega⟩

theorem mem_loopedAddrs (m : Memory) (pos n a : Nat) :
    a ∈ loopedAddrs m pos n ↔ ∃ k, k < n ∧ pos + 4 * k = a ∧ isPresent (tableWord m a) = true := by
  simp only [loopedAddrs, List.mem_filter, List.mem_map, List.mem_range]
  tauto

/-- On canonical memory the cells are listed with rising addresses, and so are the entries scanned. -/
theorem pairwise_scannedAddrs (m : Memory) (hm : m.wf) (pos n : Nat) : (scannedAddrs m pos n).Pairwise (· < ·) := by
  refine List.Pairwise.filterMap _ (fun c d hcd a ha b hb => ?_) hm.1
  simp only [Option.ite_none_right_eq_some, Option.some.injEq] at ha hb
  omega

theorem pairwise_loopedAddrs (m : Memory) (pos n : Nat) : (loopedAddrs m pos n).Pairwise (· < ·) :=
  ((List.pairwise_lt_range).map _ fun j k hjk => by omega).filter _

/-- Two strictly rising lists of the same addresses are the same. -/
theorem scannedAddrs_eq_loopedAddrs (m : Memory) (hm : m.wf) (pos n : Nat) : scannedAddrs m pos n = loopedAddrs m pos n := by
  have hscan := pairwise_scannedAddrs m hm pos n
  have hloop := pairwise_loopedAddrs m pos n
  have hperm := (List.perm_ext_iff_of_nodup hscan.nodup hloop.nodup).mpr fun a =>
    (mem_scannedAddrs m hm pos n a).trans (mem_loopedAddrs m pos n a).symm
  exact List.Perm.eq_of_pairwise (fun a b _ _ hab hba => absurd hab (Nat.lt_asymm hba)) hscan hloop hperm

/-- THE SCAN IS THE LOOP (log entry 8). -/
theorem presentEntries_eq_looped (m : Memory) (hm : m.wf) (pos n : Nat) :
    presentEntries m pos n = (loopedAddrs m pos n).map (tableWord m) := by
  rw [presentEntries_eq_map_scanned, scannedAddrs_eq_loopedAddrs m hm]

theorem mem_presentEntries (m : Memory) (hm : m.wf) (pos n : Nat) (e : Word) :
    e ∈ presentEntries m pos n ↔ ∃ k, k < n ∧ tableWord m (pos + 4 * k) = e ∧ isPresent e = true := by
  simp only [presentEntries_eq_looped m hm, List.mem_map, mem_loopedAddrs]
  constructor
  · rintro ⟨_, ⟨k, hk, rfl, hp⟩, rfl⟩
    exact ⟨k, hk, rfl, hp⟩
  · rintro ⟨k, hk, rfl, hp⟩
    exact ⟨_, ⟨k, hk, rfl, hp⟩, rfl⟩

theorem presentEntries_zero (m : Memory) (hm : m.wf) (pos : Nat) : presentEntries m pos 0 = [] := by
  simp [presentEntries_eq_looped m hm, loopedAddrs]

/-- The present entries of a table are its first entry, when present, and those of the rest. -/
theorem presentEntries_succ (m : Memory) (hm : m.wf) (pos n : Nat) :
    presentEntries m pos (n + 1) =
      if isPresent (tableWord m pos) then tableWord m pos :: presentEntries m (pos + 4) n
      else presentEntries m (pos + 4) n := by
  have hlooped : loopedAddrs m pos (n + 1) =
      if isPresent (tableWord m pos) then pos :: loopedAddrs m (pos + 4) n else loopedAddrs m (pos + 4) n := by
    have hrest : (fun k => pos + 4 * k) ∘ Nat.succ = fun k => pos + 4 + 4 * k := by
      funext k
      simp only [Function.comp_apply]
      omega
    rw [loopedAddrs, List.range_succ_eq_map, List.map_cons, List.map_map, hrest, Nat.mul_zero, Nat.add_zero, List.filter_cons]
    rfl
  rw [presentEntries_eq_looped m hm, presentEntries_eq_looped m hm, hlooped]
  split <;> rfl

/-! ### Which entries lie inside memory -/

theorem tableRead32_eq_ok (memSize : Nat) (m : Memory) (pos : Nat) (e : Word) :
    tableRead32 memSize m pos = .ok e ↔ pos + 3 < memSize ∧ tableWord m pos = e := by
  unfold tableRead32
  split
  · simp; omega
  · simp; omega

theorem readableEntries_eq_count (memSize pos count : Nat) :
    readableEntries memSize pos count = count ↔ ∀ k, k < count → pos + 4 * k + 3 < memSize := by
  unfold readableEntries
  constructor
  · intro h k hk
    omega
  · intro h
    cases count with
    | zero => exact Nat.zero_min _
    | succ k =>
      have hlast := h k (Nat.lt_succ_self k)
      omega

theorem readableEntries_eq_of_beyond {memSize pos count n : Nat} (hn : n < count)
    (hin : ∀ k, k < n → pos + 4 * k + 3 < memSize) (hout : memSize ≤ pos + 4 * n + 3) :
    readableEntries memSize pos count = n := by
  have hread := (readableEntries_eq_count memSize pos n).mpr hin
  unfold readableEntries at *
  omega

/-- A table lies inside memory when its first entry and the rest do. -/
theorem inside_succ {memSize pos count : Nat} (hpos : pos + 3 < memSize)
    (hin : ∀ k, k < count → pos + 4 + 4 * k + 3 < memSize) (k : Nat) (hk : k < count + 1) : pos + 4 * k + 3 < memSize := by
  cases k with
  | zero => exact hpos
  | succ k =>
    have hk' := hin k (by omega)
    omega

/-! ### The walk over a table's present entries -/

section Walk

variable {sub : Word → Walk → Except Fault Walk} {e : Word} {es : List Word} {w w' w1 : Walk}

theorem walkEntries_leaf (hs : isSubtable e = false) : walkEntries sub (e :: es) w = walkEntries sub es (w.addLeaf e) := by
  simp [walkEntries, hs]

theorem walkEntries_subtable (hs : isSubtable e = true) (h : sub e w = .ok w1) :
    walkEntries sub (e :: es) w = walkEntries sub es w1 := by
  simp [walkEntries, hs, h]

theorem walkEntries_subtable_ok (hs : isSubtable e = true) (h : walkEntries sub (e :: es) w = .ok w') :
    ∃ w1, sub e w = .ok w1 ∧ walkEntries sub es w1 = .ok w' := by
  simp only [walkEntries, hs, if_true] at h
  split at h
  · simp at h
  · rename_i w1 h1
    exact ⟨w1, h1, h⟩

/-- Leaves are appended one after another. -/
theorem walkEntries_leaves (es : List Word) (w : Walk) (h : ∀ e ∈ es, isSubtable e = false) :
    walkEntries sub es w = .ok (es.foldl Walk.addLeaf w) := by
  induction es generalizing w with
  | nil => rfl
  | cons e es ih =>
    rw [walkEntries_leaf (h e List.mem_cons_self)]
    exact ih _ fun e' he' => h e' (List.mem_cons_of_mem e he')

end Walk

/-- How the walk expands a subtable it meets: stuck when that is being expanded already, else as a table of its own. -/
def expandSubtable (memSize : Nat) (m : Memory) (fuel : Nat) (path : List TableKey) (e : Word) (w : Walk) : Except Fault Walk :=
  if path.contains (tableKey e) then .error .tableNeverEnds
  else expandTable memSize m fuel (tableKey e :: path) (entryAddr e).toNat (subCount (sizeClass e)) w

theorem expandSubtable_of_not_mem {memSize : Nat} {m : Memory} {fuel : Nat} {path : List TableKey} {e : Word} {w : Walk}
    (h : tableKey e ∉ path) : expandSubtable memSize m fuel path e w =
      expandTable memSize m fuel (tableKey e :: path) (entryAddr e).toNat (subCount (sizeClass e)) w := by
  simp [expandSubtable, h]

/-- A subtable that expands is not being expanded already. -/
theorem expandSubtable_ok {memSize : Nat} {m : Memory} {fuel : Nat} {path : List TableKey} {e : Word} {w w' : Walk}
    (h : expandSubtable memSize m fuel path e w = .ok w') :
    expandTable memSize m fuel (tableKey e :: path) (entryAddr e).toNat (subCount (sizeClass e)) w = .ok w' := by
  unfold expandSubtable at h
  split at h
  · simp at h
  · exact h

/-- A table's present entries inside memory are walked, and then its first entry beyond memory, if there is one, faults. -/
theorem expandTable_succ (memSize : Nat) (m : Memory) (fuel : Nat) (path : List TableKey) (pos count : Nat) (w : Walk) :
    expandTable memSize m (fuel + 1) path pos count w =
      (walkEntries (expandSubtable memSize m fuel path) (presentEntries m pos (readableEntries memSize pos count)) w).bind
        fun w' =>
          if readableEntries memSize pos count < count then
            .error (.addressError (pos + 4 * readableEntries memSize pos count))
          else .ok w' := by
  rw [expandTable]
  cases hwalk : walkEntries (expandSubtable memSize m fuel path)
      (presentEntries m pos (readableEntries memSize pos count)) w with
  | error _ | ok _ =>
    unfold expandSubtable at hwalk
    rw [hwalk]
    rfl

/-- A table expands when all its entries lie inside memory and the walk over the present ones ends. -/
theorem expandTable_succ_eq_ok (memSize : Nat) (m : Memory) (fuel : Nat) (path : List TableKey) (pos count : Nat)
    (w w' : Walk) : expandTable memSize m (fuel + 1) path pos count w = .ok w' ↔
      (∀ k, k < count → pos + 4 * k + 3 < memSize) ∧
        walkEntries (expandSubtable memSize m fuel path) (presentEntries m pos count) w = .ok w' := by
  rw [← readableEntries_eq_count, expandTable_succ]
  have hle : readableEntries memSize pos count ≤ count := Nat.min_le_left _ _
  rcases hle.eq_or_lt with heq | hlt
  · rw [heq]
    simp only [Nat.lt_irrefl, if_false, true_and]
    cases walkEntries (expandSubtable memSize m fuel path) (presentEntries m pos count) w <;> simp [Except.bind]
  · simp only [hlt, if_true, hlt.ne, false_and, iff_false]
    cases walkEntries (expandSubtable memSize m fuel path) (presentEntries m pos (readableEntries memSize pos count)) w <;>
      simp [Except.bind]

/-- The entries inside memory walked, the first one beyond it faults (20_memory.md R74). -/
theorem expandTable_succ_beyond {memSize : Nat} {m : Memory} {fuel : Nat} {path : List TableKey} {pos count n : Nat}
    {w w' : Walk} (hn : n < count) (hin : ∀ k, k < n → pos + 4 * k + 3 < memSize) (hout : memSize ≤ pos + 4 * n + 3)
    (h : walkEntries (expandSubtable memSize m fuel path) (presentEntries m pos n) w = .ok w') :
    expandTable memSize m (fuel + 1) path pos count w = .error (.addressError (pos + 4 * n)) := by
  rw [expandTable_succ, readableEntries_eq_of_beyond hn hin hout, h]
  exact if_pos hn

/-! ### What MMUCFG's walk builds is what `Expand` builds -/

/-- If subtables expand as `Expand` does, so does a table whose entries all lie inside memory. -/
theorem expands_of_walkEntries {memSize : Nat} {m : Memory} (hm : m.wf) {sub : Word → Walk → Except Fault Walk}
    (hsub : ∀ e w w', sub e w = .ok w' → Expands memSize m (entryAddr e).toNat (subCount (sizeClass e)) w w')
    (count pos : Nat) (w w' : Walk) (hin : ∀ k, k < count → pos + 4 * k + 3 < memSize)
    (h : walkEntries sub (presentEntries m pos count) w = .ok w') : Expands memSize m pos count w w' := by
  induction count generalizing pos w with
  | zero =>
    rw [presentEntries_zero m hm] at h
    rw [Except.ok.inj h]
    exact .done pos w'
  | succ count ih =>
    have hread : tableRead32 memSize m pos = .ok (tableWord m pos) :=
      (tableRead32_eq_ok memSize m pos _).mpr ⟨hin 0 (by omega), rfl⟩
    have hrest : ∀ k, k < count → pos + 4 + 4 * k + 3 < memSize := fun k hk => by
      have := hin (k + 1) (by omega)
      omega
    rw [presentEntries_succ m hm] at h
    cases hp : isPresent (tableWord m pos) with
    | false =>
      rw [hp] at h
      exact .absent pos count _ w w' hread hp (ih (pos + 4) w hrest h)
    | true =>
      rw [hp, if_pos rfl] at h
      cases hs : isSubtable (tableWord m pos) with
      | false =>
        rw [walkEntries_leaf hs] at h
        exact .leaf pos count _ w w' hread hp hs (ih (pos + 4) _ hrest h)
      | true =>
        obtain ⟨w1, h1, h2⟩ := walkEntries_subtable_ok hs h
        exact .subtable pos count _ w w1 w' hread hp hs (hsub _ _ _ h1) (ih (pos + 4) w1 hrest h2)

theorem expands_of_expandTable {memSize : Nat} {m : Memory} (hm : m.wf) (fuel : Nat) (path : List TableKey)
    (pos count : Nat) (w w' : Walk) (h : expandTable memSize m fuel path pos count w = .ok w') :
    Expands memSize m pos count w w' := by
  induction fuel generalizing path pos count w w' with
  | zero => simp [expandTable] at h
  | succ fuel ih =>
    obtain ⟨hin, hwalk⟩ := (expandTable_succ_eq_ok memSize m fuel path pos count w w').mp h
    exact expands_of_walkEntries hm (fun e v v' hv => ih _ _ _ v v' (expandSubtable_ok hv)) count pos w w' hin hwalk

/-! ### Which tables a table reaches

`Expand` ends only where no table reaches itself; there MMUCFG's walk meets no table twice on one path, and its fuel, one
more than there are tables, lasts. -/

/-- The table that a key names begins here. -/
def tablePos (key : TableKey) : Nat := (key.1 ++ 0#12).toNat

/-- The table that a key names has this many entries. -/
def tableCount (key : TableKey) : Nat := subCount key.2

/-- One of the `count` entries at `pos` is present and names the subtable `key`. -/
def HasSubtable (m : Memory) (pos count : Nat) (key : TableKey) : Prop :=
  ∃ k, k < count ∧ isPresent (tableWord m (pos + 4 * k)) = true ∧ isSubtable (tableWord m (pos + 4 * k)) = true ∧
    tableKey (tableWord m (pos + 4 * k)) = key

/-- The first nested table is named by an entry of the second. -/
def Nested (m : Memory) (inner outer : TableKey) : Prop := HasSubtable m (tablePos outer) (tableCount outer) inner

theorem entryAddr_eq_append (e : Word) : entryAddr e = (tableKey e).1 ++ 0#12 := by
  have hmask : ∀ i, i < 32 → (0xFFFFF000 : Word).getLsbD i = !decide (i < 12) := by decide
  refine BitVec.eq_of_getLsbD_eq fun i hi => ?_
  rw [entryAddr, BitVec.getLsbD_and, hmask i hi, BitVec.getLsbD_append]
  by_cases h : i < 12
  · simp [h]
  · have hfield : i - 12 < 20 := by omega
    have hback : 12 + (i - 12) = i := by omega
    simp [tableKey, h, hfield, hback]

theorem tablePos_tableKey (e : Word) : tablePos (tableKey e) = (entryAddr e).toNat :=
  congrArg BitVec.toNat (entryAddr_eq_append e).symm

theorem hasSubtable_succ (m : Memory) (pos count : Nat) (key : TableKey) :
    HasSubtable m pos (count + 1) key ↔
      (isPresent (tableWord m pos) = true ∧ isSubtable (tableWord m pos) = true ∧ tableKey (tableWord m pos) = key) ∨
        HasSubtable m (pos + 4) count key := by
  have hrest : ∀ k, pos + 4 * (k + 1) = pos + 4 + 4 * k := fun k => by omega
  constructor
  · rintro ⟨k, hk, h⟩
    cases k with
    | zero => exact .inl h
    | succ k => exact .inr ⟨k, by omega, hrest k ▸ h⟩
  · rintro (h | ⟨k, hk, h⟩)
    · exact ⟨0, by omega, h⟩
    · exact ⟨k + 1, by omega, hrest k ▸ h⟩

/-- Where `Expand` ends, no chain of nested tables goes down forever. -/
theorem acc_of_expands {memSize : Nat} {m : Memory} {pos count : Nat} {w w' : Walk} (h : Expands memSize m pos count w w')
    (key : TableKey) (hkey : HasSubtable m pos count key) : Acc (Nested m) key := by
  induction h generalizing key with
  | done pos w =>
    obtain ⟨k, hk, _⟩ := hkey
    exact absurd hk (Nat.not_lt_zero k)
  | absent pos count e w w' hread hp _ ih =>
    obtain ⟨_, rfl⟩ := (tableRead32_eq_ok memSize m pos e).mp hread
    rcases (hasSubtable_succ m pos count key).mp hkey with ⟨hp', _⟩ | hrest
    · simp [hp] at hp'
    · exact ih key hrest
  | leaf pos count e w w' hread _ hs _ ih =>
    obtain ⟨_, rfl⟩ := (tableRead32_eq_ok memSize m pos e).mp hread
    rcases (hasSubtable_succ m pos count key).mp hkey with ⟨_, hs', _⟩ | hrest
    · simp [hs] at hs'
    · exact ih key hrest
  | subtable pos count e w w1 w' hread _ _ _ _ ihsub ih =>
    obtain ⟨_, rfl⟩ := (tableRead32_eq_ok memSize m pos e).mp hread
    rcases (hasSubtable_succ m pos count key).mp hkey with ⟨_, _, rfl⟩ | hrest
    · exact .intro _ fun inner hinner => ihsub inner (tablePos_tableKey _ ▸ hinner)
    · exact ih key hrest

theorem not_transGen_self_of_acc {α : Type} {r : α → α → Prop} {a : α} (h : Acc r a) : ¬ Relation.TransGen r a a := by
  have hclosed : Acc (Relation.TransGen r) a := acc_transGen_iff.mpr h
  clear h
  induction hclosed with
  | intro b _ ih => exact fun hb => ih b hb hb

/-- No table on the path is reached from the entries at `pos`. -/
def Avoids (m : Memory) (path : List TableKey) (pos count : Nat) : Prop :=
  ∀ outer ∈ path, ∀ key, HasSubtable m pos count key → ¬ Relation.ReflTransGen (Nested m) outer key

theorem Avoids.rest {m : Memory} {path : List TableKey} {pos count : Nat} (h : Avoids m path pos (count + 1)) :
    Avoids m path (pos + 4) count :=
  fun outer ho key hkey => h outer ho key ((hasSubtable_succ m pos count key).mpr (.inr hkey))

/-- A subtable met is not on the path, and its own entries avoid the path that it extends: a way back to a table on the path
would reach that from here, and a way back to the subtable itself would be a loop. -/
theorem Avoids.subtable {m : Memory} {path : List TableKey} {pos count : Nat} {key : TableKey} (h : Avoids m path pos count)
    (hkey : HasSubtable m pos count key) (hacc : Acc (Nested m) key) :
    key ∉ path ∧ Avoids m (key :: path) (tablePos key) (tableCount key) := by
  refine ⟨fun hmem => h key hmem key hkey .refl, fun outer ho inner (hinner : Nested m inner key) hreach => ?_⟩
  rcases List.mem_cons.mp ho with rfl | ho
  · exact not_transGen_self_of_acc hacc (.tail' hreach hinner)
  · exact h outer ho key hkey (hreach.tail hinner)

theorem card_tableKey : Fintype.card TableKey = 2 ^ 22 := by
  rw [Fintype.card_prod, ← FinEnum.card_eq_fintypeCard, ← FinEnum.card_eq_fintypeCard, FinEnum.card_bitVec,
    FinEnum.card_bitVec, ← pow_add]

/-- What `Expand` builds is what the walk builds, from every path that the table avoids, while the fuel left and the path
together make up the number of tables. -/
theorem walkEntries_of_expands {memSize : Nat} {m : Memory} (hm : m.wf) {pos count : Nat} {w w' : Walk}
    (h : Expands memSize m pos count w w') (fuel : Nat) (path : List TableKey) (hnodup : path.Nodup)
    (hfuel : 2 ^ 22 ≤ fuel + path.length) (havoid : Avoids m path pos count) :
    (∀ k, k < count → pos + 4 * k + 3 < memSize) ∧
      walkEntries (expandSubtable memSize m fuel path) (presentEntries m pos count) w = .ok w' := by
  induction h generalizing fuel path with
  | done pos w => exact ⟨fun k hk => absurd hk (Nat.not_lt_zero k), by rw [presentEntries_zero m hm]; rfl⟩
  | absent pos count e w w' hread hp _ ih =>
    obtain ⟨hpos, rfl⟩ := (tableRead32_eq_ok memSize m pos e).mp hread
    obtain ⟨hin, hwalk⟩ := ih fuel path hnodup hfuel havoid.rest
    refine ⟨inside_succ hpos hin, ?_⟩
    rw [presentEntries_succ m hm, hp]
    exact hwalk
  | leaf pos count e w w' hread hp hs _ ih =>
    obtain ⟨hpos, rfl⟩ := (tableRead32_eq_ok memSize m pos e).mp hread
    obtain ⟨hin, hwalk⟩ := ih fuel path hnodup hfuel havoid.rest
    refine ⟨inside_succ hpos hin, ?_⟩
    rw [presentEntries_succ m hm, hp, if_pos rfl, walkEntries_leaf hs]
    exact hwalk
  | subtable pos count e w w1 w' hread hp hs hsub _ ihsub ih =>
    obtain ⟨hpos, rfl⟩ := (tableRead32_eq_ok memSize m pos e).mp hread
    obtain ⟨hin, hwalk⟩ := ih fuel path hnodup hfuel havoid.rest
    have hkey : HasSubtable m pos (count + 1) (tableKey (tableWord m pos)) :=
      (hasSubtable_succ m pos count _).mpr (.inl ⟨hp, hs, rfl⟩)
    have hacc : Acc (Nested m) (tableKey (tableWord m pos)) :=
      .intro _ fun inner hinner => acc_of_expands hsub inner (tablePos_tableKey _ ▸ hinner)
    obtain ⟨hnew, havoid'⟩ := havoid.subtable hkey hacc
    have hnodup' : (tableKey (tableWord m pos) :: path).Nodup := List.nodup_cons.mpr ⟨hnew, hnodup⟩
    have hlength : path.length + 1 ≤ 2 ^ 22 := card_tableKey ▸ hnodup'.length_le_card
    obtain ⟨fuel', rfl⟩ := Nat.exists_eq_succ_of_ne_zero (show fuel ≠ 0 by omega)
    have hexpand : expandSubtable memSize m (fuel' + 1) path (tableWord m pos) w = .ok w1 := by
      rw [expandSubtable_of_not_mem hnew, expandTable_succ_eq_ok]
      exact ihsub fuel' _ hnodup' (by rw [List.length_cons]; omega) (tablePos_tableKey (tableWord m pos) ▸ havoid')
    refine ⟨inside_succ hpos hin, ?_⟩
    rw [presentEntries_succ m hm, hp, if_pos rfl, walkEntries_subtable hs hexpand]
    exact hwalk

/-- MMUCFG's walk of a table is `Expand`, in both directions (20_memory.md R72). -/
theorem expandTable_eq_ok_iff {memSize : Nat} {m : Memory} (hm : m.wf) (pos count : Nat) (w w' : Walk) :
    expandTable memSize m tableDepth [] pos count w = .ok w' ↔ Expands memSize m pos count w w' := by
  refine ⟨expands_of_expandTable hm tableDepth [] pos count w w', fun h => ?_⟩
  have havoid : Avoids m [] pos count := fun _ hmem => absurd hmem List.not_mem_nil
  exact (expandTable_succ_eq_ok memSize m (2 ^ 22) [] pos count w w').mpr
    (walkEntries_of_expands hm h (2 ^ 22) [] .nil (Nat.le_add_right _ _) havoid)

end Sys2Proof.Spec
end

section
/-! PROOFS. MMUCFG with a table: when it completes and what it installs, the table that runs past memory, and the table of one
leaf (20_memory.md R72 to R75, R79, 47_mmu_config.md R250). -/
namespace Sys2Proof.Spec
open Sys2Proof.Machine

theorem switchPaging_eq (s : State) (ib : Nat) : s.switchPaging ib =
    { s with mmuEnabled := if ib / 2 % 2 = 1 then false else if ib % 2 = 1 then true else s.mmuEnabled } := by
  simp only [State.switchPaging, enablesPaging, disablesPaging, Nat.testBit_eq_decide_div_mod_eq, decide_eq_true_eq,
    Nat.pow_zero, Nat.pow_one, Nat.div_one]

/-- A table that expands is installed, and paging switched. -/
theorem exec_mmucfg_of_ok {s : State} {r : RegIdx} {ry : Sel} {w : Walk} (ib : Nat)
    (h : expandTable s.params.memSize s.mem tableDepth [] (s.reg r).toNat (s.val ry).toNat ⟨[], 0⟩ = .ok w) :
    exec (.mmucfg (some r) ry ib) s =
      .next { s with
        mmuTable := w.table
        mmuEnabled := if ib / 2 % 2 = 1 then false else if ib % 2 = 1 then true else s.mmuEnabled } := by
  have hinit : s.initializeMmu (some r) ry = .ok { s with mmuTable := w.table } := by
    have hval : s.val (some r) = s.reg r := rfl
    simp only [State.initializeMmu, State.mmuInit, hval, h]
  simp only [exec, execMmucfg, hinit, switchPaging_eq]

/-- A table whose expansion faults makes MMUCFG fault. -/
theorem exec_mmucfg_of_error {s : State} {r : RegIdx} {ry : Sel} {f : Fault} (ib : Nat)
    (h : expandTable s.params.memSize s.mem tableDepth [] (s.reg r).toNat (s.val ry).toNat ⟨[], 0⟩ = .error f) :
    exec (.mmucfg (some r) ry ib) s = .fault f := by
  have hinit : s.initializeMmu (some r) ry = .error f := by
    have hval : s.val (some r) = s.reg r := rfl
    simp only [State.initializeMmu, State.mmuInit, hval, h]
  simp only [exec, execMmucfg, hinit]

/-- Settles O39, from `expandTable_eq_ok_iff`: MMUCFG completes exactly when its walk answers. -/
theorem mmucfgInstallsTheExpandedTable : Obligations.MmucfgInstallsTheExpandedTable := by
  intro s r ry ib hm
  refine ⟨fun w hw => exec_mmucfg_of_ok ib ((expandTable_eq_ok_iff hm _ _ _ w).mpr hw), fun ⟨t, ht⟩ => ?_⟩
  cases hwalk : expandTable s.params.memSize s.mem tableDepth [] (s.reg r).toNat (s.val ry).toNat ⟨[], 0⟩ with
  | ok w => exact ⟨w, (expandTable_eq_ok_iff hm _ _ _ w).mp hwalk⟩
  | error f =>
    simp [exec_mmucfg_of_error ib hwalk] at ht

/-- Settles O40: the entries inside memory are leaves, which the walk appends without fault, and the next one is beyond. -/
theorem tableBeyondMemoryFaults : Obligations.TableBeyondMemoryFaults := by
  intro s r ry ib n hm hn hin hout
  have hleaves : ∀ e ∈ presentEntries s.mem (s.reg r).toNat n, isSubtable e = false := fun e he => by
    obtain ⟨k, hk, rfl, hp⟩ := (mem_presentEntries s.mem hm _ n e).mp he
    exact (hin k hk).2 hp
  exact exec_mmucfg_of_error ib
    (expandTable_succ_beyond hn (fun k hk => (hin k hk).1) hout (walkEntries_leaves _ ⟨[], 0⟩ hleaves))

/-- A table of one present leaf expands to that leaf alone. -/
theorem expands_single_leaf {memSize : Nat} {m : Memory} {pos : Nat} {e : Word} (hin : pos + 3 < memSize)
    (he : tableWord m pos = e) (hp : isPresent e = true) (hs : isSubtable e = false) (w : Walk) :
    Expands memSize m pos 1 w (w.addLeaf e) :=
  .leaf pos 0 e w _ ((tableRead32_eq_ok memSize m pos e).mpr ⟨hin, he⟩) hp hs (.done (pos + 4) _)

/-- With paging on and one mapping alone, its addresses translate from its physical base up and no other address does. -/
theorem translate_of_single {s : State} {m : Mapping} (hon : s.mmuEnabled = true) (htable : s.mmuTable = [m]) :
    (∀ k, k < m.size → s.translate (m.vaddr.toNat + k) = .ok (m.pbase + k)) ∧
      s.translate (m.vaddr.toNat + m.size) = .error (.unmappedPage (m.vaddr.toNat + m.size)) := by
  refine ⟨fun k hk => ?_, translate_of_none hon fun m' hm' => ?_⟩
  · have hfirst := translate_of_first (va := m.vaddr.toNat + k) (before := []) hon htable (by simp) (by omega) (by omega)
    rwa [Nat.add_sub_cancel_left] at hfirst
  · rw [htable, List.mem_singleton] at hm'
    subst hm'
    omega

theorem leafSize_pos (sc : BitVec 2) : 0 < leafSize sc := by
  revert sc
  decide

/-- Settles O43: the one mapping installed has the leaf's base and size and the physical base 0. -/
theorem singleLeafTranslates : Obligations.SingleLeafTranslates := by
  intro s r ry e hm hcount hin he hp hs
  have hexpands : Expands s.params.memSize s.mem (s.reg r).toNat (s.val (some ry)).toNat ⟨[], 0⟩
      (Walk.addLeaf ⟨[], 0⟩ e) := by
    have hone : (s.val (some ry)).toNat = 1 := congrArg BitVec.toNat hcount
    rw [hone]
    exact expands_single_leaf hin he hp hs _
  refine ⟨_, (mmucfgInstallsTheExpandedTable s r (some ry) 1 hm).1 _ hexpands, ?_⟩
  have hpos := leafSize_pos (sizeClass e)
  have hlast : (entryAddr e).toNat + leafSize (sizeClass e) - 1 = (entryAddr e).toNat + (leafSize (sizeClass e) - 1) := by
    omega
  obtain ⟨hinside, hbeyond⟩ := translate_of_single (s := { s with mmuTable := _, mmuEnabled := true }) rfl rfl
  refine ⟨hinside 0 hpos, ?_, hbeyond⟩
  rw [hlast]
  exact (hinside (leafSize (sizeClass e) - 1) (Nat.sub_lt hpos Nat.one_pos)).trans (congrArg Except.ok (Nat.zero_add _))

end Sys2Proof.Spec
end

section
/-! PROOFS. The encoding: the fields of a word, the round trip of encoding and decoding, and the words that decode to
nothing (30_encoding.md R101 to R112). -/
namespace Sys2Proof.Spec
open Sys2Proof.Machine

/-! ### Packing a word -/

/-- The packed word as a number, its two fields clipped and side by side (30_encoding.md R106). -/
theorem toNat_packWord (op bits : Nat) : (packWord op bits).toNat = op % 256 + bits % 2 ^ 24 * 256 := by
  rw [packWord, BitVec.toNat_ofNat]
  omega

theorem packWord_eq_or (op bits : Nat) :
    packWord op bits = BitVec.ofNat 32 ((op &&& 0xFF) ||| ((bits &&& 0xFFFFFF) <<< 8)) := by
  have hop : op &&& 0xFF = op % 2 ^ 8 := Nat.and_two_pow_sub_one_eq_mod op 8
  have hbits : bits &&& 0xFFFFFF = bits % 2 ^ 24 := Nat.and_two_pow_sub_one_eq_mod bits 24
  have hlow : op % 2 ^ 8 < 2 ^ 8 := Nat.mod_lt op (by decide)
  rw [hop, hbits, Nat.or_comm, ← Nat.shiftLeft_add_eq_or_of_lt hlow, Nat.shiftLeft_eq, Nat.add_comm, packWord]

/-- The two fields of a word, packed again, are the word. -/
theorem packWord_fields (w : Word) : packWord (opcodeField w).toNat (operandField w).toNat = w := by
  apply BitVec.eq_of_toNat_eq
  simp only [toNat_packWord, opcodeField, operandField, BitVec.extractLsb'_toNat, Nat.shiftRight_eq_div_pow]
  omega

/-! ### The fields of an encoded word -/

theorem operandField_packWord (op bits : Nat) : operandField (packWord op bits) = BitVec.ofNat 24 bits := by
  apply BitVec.eq_of_toNat_eq
  simp only [operandField, BitVec.extractLsb'_toNat, toNat_packWord, BitVec.toNat_ofNat, Nat.shiftRight_eq_div_pow]
  omega

theorem imm24Field_encodeI (map : OpcodeMap) (m : Mnemonic) {imm : Nat} (h : imm24Fits imm) :
    imm24Field (encodeI map m imm) = imm := by
  rw [imm24Field, encodeI, operandField_packWord, BitVec.toNat_ofNat, Nat.mod_eq_of_lt h]

theorem selByte_lt (r : Sel) : selByte r < 256 := by
  cases r with
  | none => decide
  | some r => exact Nat.succ_lt_succ r.isLt

/-- A selector byte names the operand it was made from (30_encoding.md R103). -/
theorem selOfByte_selByte (r : Sel) : selOfByte (BitVec.ofNat 8 (selByte r)) = r := by
  have hbyte : (BitVec.ofNat 8 (selByte r)).toNat = selByte r := Nat.mod_eq_of_lt (selByte_lt r)
  cases r with
  | none => rfl
  | some r =>
    simp only [selOfByte, hbyte]
    simp [selByte]

/-- The operand bits of format R, the three bytes side by side (30_encoding.md R103, R106). -/
theorem operandBits_eq (rx ry : Sel) (ib : Nat) :
    selByte rx ||| (selByte ry <<< 8) ||| (ib <<< 16) = selByte rx + selByte ry * 2 ^ 8 + ib * 2 ^ 16 := by
  have hx : selByte rx < 2 ^ 8 := selByte_lt rx
  have hy : selByte ry < 2 ^ 8 := selByte_lt ry
  have hxy : selByte ry <<< 8 + selByte rx < 2 ^ 16 := by
    rw [Nat.shiftLeft_eq]
    omega
  rw [Nat.or_comm (selByte rx), ← Nat.shiftLeft_add_eq_or_of_lt hx, Nat.or_comm, ← Nat.shiftLeft_add_eq_or_of_lt hxy,
    Nat.shiftLeft_eq, Nat.shiftLeft_eq]
  omega

/-- A format R word as a number: from the low byte up, the opcode, `sx`, `sy` and the clipped `ib`. -/
theorem toNat_encodeR (map : OpcodeMap) (m : Mnemonic) (rx ry : Sel) (ib : Nat) :
    (encodeR map m rx ry ib).toNat =
      (map.byte m).toNat + selByte rx * 2 ^ 8 + selByte ry * 2 ^ 16 + ib % 2 ^ 8 * 2 ^ 24 := by
  have hop := (map.byte m).isLt
  have hx := selByte_lt rx
  have hy := selByte_lt ry
  rw [encodeR, operandBits_eq, toNat_packWord]
  omega

theorem rxField_encodeR (map : OpcodeMap) (m : Mnemonic) (rx ry : Sel) (ib : Nat) :
    rxField (encodeR map m rx ry ib) = rx := by
  have hbyte : (encodeR map m rx ry ib).extractLsb' 8 8 = BitVec.ofNat 8 (selByte rx) := by
    apply BitVec.eq_of_toNat_eq
    rw [BitVec.extractLsb'_toNat, BitVec.toNat_ofNat, Nat.shiftRight_eq_div_pow, toNat_encodeR]
    have hop := (map.byte m).isLt
    omega
  rw [rxField, hbyte, selOfByte_selByte]

theorem ryField_encodeR (map : OpcodeMap) (m : Mnemonic) (rx ry : Sel) (ib : Nat) :
    ryField (encodeR map m rx ry ib) = ry := by
  have hbyte : (encodeR map m rx ry ib).extractLsb' 16 8 = BitVec.ofNat 8 (selByte ry) := by
    apply BitVec.eq_of_toNat_eq
    rw [BitVec.extractLsb'_toNat, BitVec.toNat_ofNat, Nat.shiftRight_eq_div_pow, toNat_encodeR]
    have hop := (map.byte m).isLt
    have hx := selByte_lt rx
    omega
  rw [ryField, hbyte, selOfByte_selByte]

theorem ibField_encodeR (map : OpcodeMap) (m : Mnemonic) (rx ry : Sel) {ib : Nat} (h : imm8Fits ib) :
    ibField (encodeR map m rx ry ib) = ib := by
  have hop := (map.byte m).isLt
  have hx := selByte_lt rx
  have hy := selByte_lt ry
  rw [ibField, BitVec.extractLsb'_toNat, Nat.shiftRight_eq_div_pow, toNat_encodeR]
  omega

/-! ### Encoding and decoding -/

theorem opcodeField_encode (map : OpcodeMap) (i : Instr) :
    opcodeField (encode map i) = map.byte (Laws.OpcodeInLowByte.mnemonic i) := by
  cases i <;> exact Laws.opcodeField_pack map _ _

/-- The operands that stand in an instruction's word, format by format, are its own. -/
theorem instrOf_encode (map : OpcodeMap) (i : Instr) (h : i.WellFormed) :
    instrOf (Laws.OpcodeInLowByte.mnemonic i) (encode map i) = i := by
  cases i with
  | stop | iret | rts | seti | clri => rfl
  | load8i imm | load16i imm | loadi imm | store8i imm | store16i imm | storei imm | movi imm | bi imm | bzi imm
  | bnzi imm | bsri imm =>
    simp only [Laws.OpcodeInLowByte.mnemonic, instrOf, encode, imm24Field_encodeI map _ h]
  | not rx | b rx | bsr rx =>
    simp only [Laws.OpcodeInLowByte.mnemonic, instrOf, encode, rxField_encodeR]
  | bz rx ry | bnz rx ry | push rx ry | pop rx ry =>
    simp only [Laws.OpcodeInLowByte.mnemonic, instrOf, encode, rxField_encodeR, ryField_encodeR]
  | load8 rx ry ib | load16 rx ry ib | load rx ry ib | store8 rx ry ib | store16 rx ry ib | store rx ry ib
  | mov rx ry ib | swap rx ry ib | add rx ry ib | sub rx ry ib | mul rx ry ib | div rx ry ib | mod rx ry ib
  | shl rx ry ib | shr rx ry ib | and rx ry ib | or rx ry ib | xor rx ry ib | beq rx ry ib | bne rx ry ib
  | brz rx ry ib | intvec rx ry ib | mmucfg rx ry ib =>
    simp only [Laws.OpcodeInLowByte.mnemonic, instrOf, encode, rxField_encodeR, ryField_encodeR,
      ibField_encodeR map _ rx ry h]

/-- Settles O1: the low byte selects the instruction's mnemonic, and the operand fields hold its operands. -/
theorem decodeOfEncodeIsTheInstruction : Obligations.DecodeOfEncodeIsTheInstruction := by
  intro map hmap i hi
  rw [hmap.decodeWord_of_byte _ _ (opcodeField_encode map i), instrOf_encode map i hi]

theorem imm24Field_fits (w : Word) : imm24Fits (imm24Field w) := (operandField w).isLt

theorem ibField_fits (w : Word) : imm8Fits (ibField w) := (w.extractLsb' 24 8).isLt

/-- An instruction's immediate, read from a field of its width, fits it (30_encoding.md R102, R103). -/
theorem wellFormed_instrOf (m : Mnemonic) (w : Word) : (instrOf m w).WellFormed := by
  cases m with
  | stop | iret | rts | seti | clri | not | b | bsr | bz | bnz | push | pop => trivial
  | load8i | load16i | loadi | store8i | store16i | storei | movi | bi | bzi | bnzi | bsri => exact imm24Field_fits w
  | load8 | load16 | load | store8 | store16 | store | mov | swap | add | sub | mul | div | mod | shl | shr | and | or
  | xor | beq | bne | brz | intvec | mmucfg => exact ibField_fits w

/-- What decoding gives is the selected mnemonic's instruction. -/
theorem exists_instrOf_of_decodeWord {map : OpcodeMap} {w : Word} {i : Instr} (h : decodeWord map w = .ok i) :
    ∃ m, i = instrOf m w := by
  obtain ⟨m, _, hok⟩ | ⟨_, herror⟩ := decodeWord_cases map w
  · exact ⟨m, Except.ok.inj (h.symm.trans hok)⟩
  · exact absurd (h.symm.trans herror) (by simp)

/-- Settles O2: the second clause is how `encodeR` is defined, the others are lemmas on `packWord` and `instrOf`. -/
theorem packingClipsAndRoundTrips : Obligations.PackingClipsAndRoundTrips := by
  refine ⟨packWord_eq_or, fun _ _ _ _ _ => rfl, packWord_fields, fun map w i h => ?_⟩
  obtain ⟨m, rfl⟩ := exists_instrOf_of_decodeWord h
  exact wellFormed_instrOf m w

/-! ### The default opcode map -/

theorem byte_defaultOpcodes (m : Mnemonic) : defaultOpcodes.byte m = opcode m := by
  cases m <;> rfl

theorem defaultOpcodes_injective : defaultOpcodes.Injective := defaultOpcodes.injective_of_nodup nodup_defaultOpcodes

/-- Settles O4: the default map's 46 bytes are pairwise different. -/
theorem opcodeMapIsInjective : Obligations.OpcodeMapIsInjective :=
  ⟨byte_defaultOpcodes, fun m m' h => defaultOpcodes_injective m m' (by rw [byte_defaultOpcodes, byte_defaultOpcodes, h])⟩

/-! ### Bytes that no mnemonic has -/

/-- The list of R110 is ascending, each of its ranges lying above the ones before it. -/
theorem illegalBytes_ascending : illegalBytes.Pairwise (· < ·) := by
  simp only [illegalBytes, List.pairwise_append, List.pairwise_lt_range', List.mem_append, List.mem_range'_1,
    List.mem_singleton, List.pairwise_singleton, true_and, Nat.one_pos]
  and_intros <;> intros <;> omega

theorem illegalBytes_nodup : illegalBytes.Nodup := illegalBytes_ascending.imp Nat.ne_of_lt

theorem illegalBytes_length : illegalBytes.length = 210 := by
  simp only [illegalBytes, List.length_append, List.length_range', List.length_singleton]

/-- The bytes of R108's table, range by range: the gaps between the ranges of R110. -/
theorem opcode_ranges : allMnemonics.map (fun m => (opcode m).toNat) =
    List.range' 0x01 2 ++ List.range' 0x10 12 ++ List.range' 0x20 3 ++ List.range' 0x30 5 ++ List.range' 0x40 6 ++
      List.range' 0x50 12 ++ List.range' 0x60 3 ++ [0x70] ++ List.range' 0x80 2 := rfl

theorem exists_opcode_iff (b : Byte) :
    (∃ m, opcode m = b) ↔ b.toNat ∈ allMnemonics.map (fun m => (opcode m).toNat) := by
  simp only [List.mem_map, mem_allMnemonics, true_and, BitVec.toNat_inj]

/-- The ranges of R108 and those of R110 together are every byte once. -/
theorem unclaimed_iff_illegal (b : Byte) : (∀ m, opcode m ≠ b) ↔ b.toNat ∈ illegalBytes := by
  have hb : b.toNat < 256 := b.isLt
  rw [← not_exists, exists_opcode_iff, opcode_ranges, illegalBytes]
  simp only [List.mem_append, List.mem_range'_1, List.mem_singleton]
  omega

theorem opcodeField_eq_ofNat (w : Word) : opcodeField w = BitVec.ofNat 8 w.toNat := by
  apply BitVec.eq_of_toNat_eq
  rw [opcodeField, BitVec.extractLsb'_toNat, BitVec.toNat_ofNat, Nat.shiftRight_zero]

/-- A fetched word whose byte the machine's map gives no mnemonic faults with that byte (30_encoding.md R110). -/
theorem fetchedFaults_of_unclaimed {s s1 : State} {w : Word} (hfetch : s.fetch = .ok (w, s1))
    (h : ∀ m, s.params.opcodes.byte m ≠ opcodeField w) : FetchedFaults s (.illegalInstruction (opcodeField w)) := by
  have hdecode : decodeWord s1.params.opcodes w = .error (.illegalOpcode (opcodeField w)) := by
    rw [s.fetch_params s1 w hfetch, decodeWord, (mnemonicOf_eq_none _ _).mpr h]
  have hfde : fetchDecodeExecute s = .fault (.illegalInstruction (opcodeField w)) := by
    simp only [fetchDecodeExecute, hfetch, decodeExecute, hdecode]
  exact ⟨hfde, fun hrun hqueue => (step_eq_fetchDecodeExecute s hrun hqueue).trans hfde⟩

/-- Under the default map the bytes of R110's list are unclaimed. -/
theorem fetchedFaults_of_illegal {s s1 : State} {w : Word} (hdefault : s.params.opcodes = defaultOpcodes)
    (hfetch : s.fetch = .ok (w, s1)) (h : w.toNat % 256 ∈ illegalBytes) :
    FetchedFaults s (.illegalInstruction (opcodeField w)) := by
  have hillegal : (opcodeField w).toNat ∈ illegalBytes := by rwa [opcodeField_eq_ofNat, BitVec.toNat_ofNat]
  refine fetchedFaults_of_unclaimed hfetch fun m => ?_
  rw [hdefault, byte_defaultOpcodes]
  exact (unclaimed_iff_illegal _).mpr hillegal m

/-- Settles O3: the two lists of ranges are complements, and an unclaimed byte faults; the zero word's byte is listed. -/
theorem unclaimedOpcodesAreIllegal : Obligations.UnclaimedOpcodesAreIllegal := by
  simp only [Obligations.UnclaimedOpcodesAreIllegal, ← opcodeField_eq_ofNat]
  have hzero : (0#32 : Word).toNat % 256 ∈ illegalBytes := by decide
  exact ⟨unclaimed_iff_illegal, illegalBytes_nodup, illegalBytes_length, fun _ _ _ => fetchedFaults_of_unclaimed,
    fun _ _ _ => fetchedFaults_of_illegal, fun _ _ hdefault hfetch => fetchedFaults_of_illegal hdefault hfetch hzero⟩

/-! ### Fields an instruction does not use -/

/-- `sx` and `sy` stand side by side in bits 8 to 23 of the word (30_encoding.md R103). -/
theorem extractLsb'_selectors (w : Word) (k : Nat) (h : k + 8 ≤ 16) :
    (w.extractLsb' 8 16).extractLsb' k 8 = w.extractLsb' (8 + k) 8 := by
  ext i hi
  have hlt : k + i < 16 := by omega
  simp [hlt, Nat.add_assoc]

theorem rxField_eq_of_selectors {w w' : Word} (h : w.extractLsb' 8 16 = w'.extractLsb' 8 16) : rxField w = rxField w' := by
  rw [rxField, rxField, ← extractLsb'_selectors w 0 (by decide), h, extractLsb'_selectors w' 0 (by decide)]

theorem ryField_eq_of_selectors {w w' : Word} (h : w.extractLsb' 8 16 = w'.extractLsb' 8 16) : ryField w = ryField w' := by
  rw [ryField, ryField, ← extractLsb'_selectors w 8 (by decide), h, extractLsb'_selectors w' 8 (by decide)]

/-- The classes of R112: format N has no operand, ... -/
theorem instrOf_noField {m : Mnemonic} (hm : m ∈ [.stop, .iret, .rts, .seti, .clri]) (w w' : Word) :
    instrOf m w = instrOf m w' := by
  simp only [List.mem_cons, List.not_mem_nil, or_false] at hm
  rcases hm with rfl | rfl | rfl | rfl | rfl <;> rfl

/-- ... B, BSR and NOT have `rx` alone, ... -/
theorem instrOf_rxOnly {m : Mnemonic} (hm : m ∈ [.b, .bsr, .not]) {w w' : Word} (hx : rxField w = rxField w') :
    instrOf m w = instrOf m w' := by
  simp only [List.mem_cons, List.not_mem_nil, or_false] at hm
  rcases hm with rfl | rfl | rfl <;> simp only [instrOf, hx]

/-- ... BZ, BNZ, PUSH and POP the two selectors and no immediate. -/
theorem instrOf_selectorsOnly {m : Mnemonic} (hm : m ∈ [.bz, .bnz, .push, .pop]) {w w' : Word}
    (hx : rxField w = rxField w') (hy : ryField w = ryField w') : instrOf m w = instrOf m w' := by
  simp only [List.mem_cons, List.not_mem_nil, or_false] at hm
  rcases hm with rfl | rfl | rfl | rfl <;> simp only [instrOf, hx, hy]

/-- Settles O5: both words decode to their mnemonic's instruction, which reads only the fields it uses. -/
theorem unusedFieldsAreIgnored : Obligations.UnusedFieldsAreIgnored := by
  intro map hmap w w' m hw hw'
  rw [hmap.decodeWord_of_byte w m hw, hmap.decodeWord_of_byte w' m hw']
  refine ⟨fun hm => ?_, fun hm hsx => ?_, fun hm hsel => ?_, instrOf m w, rfl⟩
  · rw [instrOf_noField hm w w']
  · rw [instrOf_rxOnly hm (congrArg selOfByte hsx)]
  · rw [instrOf_selectorsOnly hm (rxField_eq_of_selectors hsel) (ryField_eq_of_selectors hsel)]

/-! ### Words and selectors -/

/-- Settles O6: the words are closed, so running the decoder on each decides it. -/
theorem specWordsDecode : Obligations.SpecWordsDecode := by
  unfold Obligations.SpecWordsDecode
  decide

/-- Settles O7: each clause is how `val`, `acc` or `tgt` is defined, the accumulator being register 0 (10_state.md R22). -/
theorem selectorsResolve : Obligations.SelectorsResolve := fun _ _ => ⟨rfl, rfl, rfl, rfl, rfl, rfl⟩

end Sys2Proof.Spec
end

section
/-! PROOFS. The phases of the main loop in sequence: an interrupt is delivered before the fetch, and STOP ends the run
(40_fetch_dispatch.md R130, R131, R138, R139; 60_exceptions.md R285). -/
namespace Sys2Proof.Spec
open Sys2Proof.Machine

/-! ### Delivering an interrupt -/

theorem drain_of_lt_ivSlots {s : State} {n : Nat} {rest : List Nat} (hqueue : s.ivQueue = n :: rest)
    (hlt : n < s.params.ivSlots) : s.drain = .ok ({ s with ivQueue := rest }.enterInterrupt n) := by
  simp only [State.drain, hqueue, if_neg (Nat.not_le.mpr hlt)]

theorem drain_of_ivSlots_le {s : State} {n : Nat} {rest : List Nat} (hqueue : s.ivQueue = n :: rest)
    (hle : s.params.ivSlots ≤ n) : s.drain = .error (.badInterruptNumber n) := by
  simp only [State.drain, hqueue, if_pos hle]

/-- Fetch, decode and execute go on in the same step, from the drained state (40_fetch_dispatch.md R130). -/
theorem step_of_drain_ok {s t : State} (hrun : s.run = .running) (h : s.drain = .ok t) : step s = fetchDecodeExecute t := by
  simp only [step, cycle, hrun, h]

theorem step_of_drain_error {s : State} {f : Fault} (hrun : s.run = .running) (h : s.drain = .error f) :
    step s = .fault f := by
  simp only [step, cycle, hrun, h]

/-- A slot's address as a number (60_exceptions.md R284). -/
theorem handlerAddress_toNat (s : State) (n : Nat) : (s.handlerAddress n).toNat = (s.ivBase.toNat + n * 4) % 2 ^ 32 := by
  simp only [State.handlerAddress, Config.wordSize, BitVec.toNat_add, BitVec.toNat_ofNat, Nat.add_mod_mod]

theorem enterInterrupt_pc (s : State) (n : Nat) : (s.enterInterrupt n).pc = s.handlerAddress n := State.pc_setPc _ _

/-- `pc` is written last, so that the return register keeps what it saved only when it is another register
(10_state.md R23). -/
theorem enterInterrupt_ret (s : State) (n : Nat) (h : s.params.regPc ≠ s.params.regRet) :
    (s.enterInterrupt n).ret = s.pc := by
  simp only [State.ret, State.enterInterrupt_params, State.reg_enterInterrupt, if_neg h, if_true]

theorem enterInterrupt_regsSameBut (s : State) (n : Nat) :
    RegsSameBut [s.params.regPc, s.params.regRet] s (s.enterInterrupt n) := by
  intro r hr
  simp only [List.mem_cons, List.not_mem_nil, or_false, not_or] at hr
  obtain ⟨hpc, hret⟩ := hr
  rw [State.reg_enterInterrupt, if_neg (Ne.symm hpc), if_neg (Ne.symm hret)]

/-- Settles O9, from the three answers of the drain and what entering an interrupt writes. -/
theorem pendingInterruptIsDeliveredFirst : Obligations.PendingInterruptIsDeliveredFirst := by
  refine ⟨fun s n rest hrun hqueue hlt => ?_, fun s n rest hrun hqueue hle => ?_, step_eq_fetchDecodeExecute⟩
  · have hpc : ({ s with ivQueue := rest }.enterInterrupt n).pc.toNat = (s.ivBase.toNat + n * 4) % 2 ^ 32 := by
      rw [enterInterrupt_pc, handlerAddress_toNat]
    have hregs : RegsSameBut [s.params.regPc, s.params.regRet] s ({ s with ivQueue := rest }.enterInterrupt n) :=
      enterInterrupt_regsSameBut { s with ivQueue := rest } n
    exact ⟨_, step_of_drain_ok hrun (drain_of_lt_ivSlots hqueue hlt), enterInterrupt_ret _ n, hpc, rfl, hregs, rfl, rfl,
      rfl, rfl, ⟨rfl, rfl⟩, fun _ => rfl, rfl⟩
  · exact step_of_drain_error hrun (drain_of_ivSlots_le hqueue hle)

/-! ### Parameters and run state through a step -/

theorem drain_systemSame {s t : State} (h : s.drain = .ok t) : SystemSame s t := by
  rcases s.drain_ok t h with ⟨_, rfl⟩ | ⟨n, rest, _, _, rfl⟩ <;> exact ⟨rfl, rfl⟩

theorem fetch_systemSame {s t : State} {w : Word} (h : s.fetch = .ok (w, t)) : SystemSame s t := by
  obtain ⟨_, calls, _, _, rfl, rfl⟩ := s.fetch_ok t w h
  exact ⟨rfl, rfl⟩

/-- An instruction other than STOP changes neither a parameter nor the run state (40_fetch_dispatch.md R139). -/
theorem exec_systemSame {i : Instr} {s t : State} (h : exec i s = .next t) (hi : i ≠ .stop) : SystemSame s t := by
  cases exec_next i s t h with
  | data frame => exact frame.control.toSystemSame
  | stop => exact absurd rfl hi
  | mmucfg rx ry ib init =>
    obtain ⟨⟨ms, rfl⟩, _⟩ := s.initializeMmu_ok _ rx ry init
    exact ⟨rfl, rfl⟩
  | iret | intvec | seti | clri => exact ⟨rfl, rfl⟩

theorem exec_stop (s : State) : exec .stop s = .next { s with run := .halted } := rfl

/-- STOP is the one instruction that ends a run (40_fetch_dispatch.md R138, R139). -/
theorem exec_params_run {i : Instr} {s t : State} (h : exec i s = .next t) :
    t.params = s.params ∧ t.run = if i = .stop then .halted else s.run := by
  by_cases hi : i = .stop
  · subst hi
    obtain rfl := Host.Outcome.next.inj ((exec_stop s).symm.trans h)
    exact ⟨rfl, rfl⟩
  · have same := exec_systemSame h hi
    exact ⟨same.params, same.run.trans (if_neg hi).symm⟩

/-- A step that answers from running drained, fetched a word and ran the instruction it decodes to, and its run state says
whether that was STOP. -/
theorem step_next_of_running {s t : State} (hrun : s.run = .running) (h : step s = .next t) :
    ∃ s1 s2 w i, s.drain = .ok s1 ∧ s1.fetch = .ok (w, s2) ∧ decodeWord s.params.opcodes w = .ok i ∧
      t.params = s.params ∧ t.run = if i = .stop then .halted else .running := by
  rcases step_next s t h with ⟨hhalted, _⟩ | ⟨s1, s2, w, i, _, hdrain, hfetch, hdecode, hexec⟩
  · simp [hrun] at hhalted
  · have drained := drain_systemSame hdrain
    have fetched := fetch_systemSame hfetch
    have hparams : s2.params = s.params := fetched.params.trans drained.params
    have hrun2 : s2.run = .running := fetched.run.trans (drained.run.trans hrun)
    obtain ⟨hp, hr⟩ := exec_params_run hexec
    exact ⟨s1, s2, w, i, hdrain, hfetch, hparams ▸ hdecode, hp.trans hparams, hrun2 ▸ hr⟩

/-- With nothing pending the word a step runs is the one its own state fetches. -/
theorem step_halted_iff {s s1 t : State} {w : Word} (hrun : s.run = .running) (hqueue : s.ivQueue = [])
    (hfetch : s.fetch = .ok (w, s1)) (h : step s = .next t) :
    t.run = .halted ↔ decodeWord s.params.opcodes w = .ok .stop := by
  obtain ⟨s', s2, w', i, hdrain, hfetch', hdecode, _, hr⟩ := step_next_of_running hrun h
  have hempty : s.drain = .ok s := by simp only [State.drain, hqueue]
  obtain rfl : s = s' := Except.ok.inj (hempty.symm.trans hdrain)
  obtain ⟨rfl, _⟩ := Prod.mk.inj (Except.ok.inj (hfetch.symm.trans hfetch'))
  simp [hr, hdecode]

/-- Settles O57: what `exec` does to the run state, carried through the drain and the fetch to the step. -/
theorem onlyStopEndsARun : Obligations.OnlyStopEndsARun := by
  refine ⟨fun i s t h => (exec_params_run h).2, fun s t hrun h => ?_, fun s s1 t w => step_halted_iff⟩
  obtain ⟨_, _, _, i, _, _, _, hparams, hr⟩ := step_next_of_running hrun h
  exact ⟨hparams, fun f => by split at hr <;> simp [hr]⟩

/-- Settles O12: STOP's next state is the one before with another run state. -/
theorem stopHalts : Obligations.StopHalts := fun s =>
  ⟨{ s with run := .halted }, exec_stop s, rfl, fun _ _ => rfl, fun _ => rfl, rfl, rfl, rfl, rfl, rfl, rfl, rfl⟩

end Sys2Proof.Spec
end

section
/-! PROOFS. Loads and stores that complete: the bytes of a word read from memory, the bytes that a store leaves there, and with
them the twelve instructions (20_memory.md R53, R55, R59 to R61, 41_load_store.md R151 to R162). -/
namespace Sys2Proof.Spec
open Sys2Proof.Machine

/-! ### Bytes of a word -/

theorem byteOf_zero (v : Word) : byteOf v 0 = v.setWidth 8 := by
  ext i hi
  simp [byteOf]

/-- Shifting a word right by a byte drops its byte 0. -/
theorem byteOf_ushiftRight (v : Word) (k : Nat) : byteOf (v >>> 8) k = byteOf v (k + 1) := by
  ext i hi
  simp [byteOf, Nat.mul_add, Nat.add_comm, Nat.add_left_comm]

/-- Composing little-endian puts the byte at place `k` at byte `k` of the word, as long as the word reaches that far. -/
theorem byteOf_wordOfBytes (bs : List Byte) (k : Nat) (hk : k < bs.length) (hword : k < 4) :
    byteOf (wordOfBytes bs) k = bs[k] := by
  induction bs generalizing k with
  | nil => exact absurd hk (Nat.not_lt_zero k)
  | cons b bs ih =>
    cases k with
    | zero =>
      ext i hi
      have hbit : i < 32 := by omega
      simp [byteOf, wordOfBytes, hi, hbit]
    | succ k =>
      have htail : byteOf (wordOfBytes (b :: bs)) (k + 1) = byteOf (wordOfBytes bs) k := by
        ext i hi
        have hbit : 8 * (k + 1) + i < 32 := by omega
        have hlow : ¬ 8 * (k + 1) + i < 8 := by omega
        have hback : 8 * (k + 1) + i - 8 = 8 * k + i := by omega
        have hfirst : b.getLsbD (8 * (k + 1) + i) = false := BitVec.getLsbD_of_ge b _ (by omega)
        have hrest : 8 * k + i < 32 := by omega
        simp [byteOf, wordOfBytes, hbit, hlow, hback, hfirst, BitVec.getLsbD_eq_getElem hrest]
      exact htail.trans (ih k (by simpa using hk) (by omega))

/-- The bits above the composed bytes are zero (41_load_store.md R164). -/
theorem wordOfBytes_lt (bs : List Byte) : (wordOfBytes bs).toNat < 2 ^ (8 * bs.length) := by
  induction bs with
  | nil => simp [wordOfBytes]
  | cons b bs ih =>
    have hpow : 2 ^ (8 * (b :: bs).length) = 2 ^ (8 * bs.length) * 256 := by
      rw [List.length_cons, Nat.mul_add, Nat.pow_add]
    have hlow : (b.setWidth 32).toNat < 2 ^ (8 * (b :: bs).length) := by
      have hpos : 0 < 2 ^ (8 * bs.length) := Nat.two_pow_pos _
      have hb := b.isLt
      rw [BitVec.toNat_setWidth]
      omega
    have hhigh : (wordOfBytes bs <<< 8).toNat < 2 ^ (8 * (b :: bs).length) := by
      rw [BitVec.toNat_shiftLeft, Nat.shiftLeft_eq]
      omega
    rw [wordOfBytes, BitVec.toNat_or]
    exact Nat.or_lt_two_pow hlow hhigh

/-! ### Loads -/

/-- Each ordinary byte of a read that answers is memory's at its own translated address (20_memory.md R60). -/
theorem readBytes_getElem (n va : Nat) (s t : State) (bs : List Byte) (h : readBytes n va s = .ok (bs, t)) (k : Nat)
    (hk : k < bs.length) (pa : Nat) (htr : s.translate (va + k) = .ok pa) (hdev : s.isSpecial pa = false) :
    bs[k] = s.mem.read pa := by
  induction n generalizing va s t bs k with
  | zero =>
    obtain ⟨rfl, _⟩ := Prod.mk.inj (Except.ok.inj h)
    exact absurd hk (Nat.not_lt_zero k)
  | succ n ih =>
    simp only [readBytes] at h
    split at h
    · simp at h
    · rename_i b s1 hb
      obtain ⟨pa0, htr0, _, hbyte, rfl⟩ := s.readByte_ok s1 va b hb
      split at h
      · simp at h
      · rename_i bs' s2 hbs
        obtain ⟨rfl, _⟩ := Prod.mk.inj (Except.ok.inj h)
        cases k with
        | zero =>
          obtain rfl : pa0 = pa := Except.ok.inj (htr0.symm.trans htr)
          exact hbyte hdev
        | succ k =>
          have hva : va + (k + 1) = va + 1 + k := by omega
          exact ih (va + 1) _ s2 bs' hbs k (by simpa using hk) (hva ▸ htr) hdev

/-- A read of at most a word that answers gives the bytes of memory, zero-extended. -/
theorem memRead_readsAs {s t : State} {va n : Nat} {v : Word} (hn : n ≤ 4) (h : s.memRead va n = .ok (v, t)) :
    ReadsAs s va n v := by
  unfold State.memRead at h
  split at h
  · simp at h
  · rename_i bs s' hbs
    obtain ⟨rfl, _⟩ := Prod.mk.inj (Except.ok.inj h)
    obtain ⟨rfl, _⟩ := readBytes_ok n va s s' bs hbs
    refine ⟨fun k hk pa htr hdev => ?_, wordOfBytes_lt bs⟩
    rw [byteOf_wordOfBytes bs k hk (by omega)]
    exact readBytes_getElem _ va s s' bs hbs k hk pa htr hdev

/-- A load of at most a word from accessible bytes completes (41_load_store.md R151 to R153, R157 to R159). -/
theorem loadsInto_of_accessible {s : State} {ea n : Nat} (d : RegIdx) (hn : n ≤ 4) (h : Accessible s ea n) :
    LoadsInto (finish (s.loadInto d ea n)) s d ea n := by
  obtain ⟨v, s', hread⟩ := memRead_of_accessible s ea n h
  have hload : s.loadInto d ea n = .ok (s'.setReg d v) := by simp only [State.loadInto, hread]
  have frame : DataFrame [d] s (s'.setReg d v) := .loadInto hload
  have hvalue : ReadsAs s ea n ((s'.setReg d v).reg d) := by
    rw [State.reg_setReg_same]
    exact memRead_readsAs hn hread
  obtain rfl := memRead_getCalls s s' ea n v hread
  exact ⟨_, (finish_eq_next _ _).mpr hload, hvalue, frame.regs, frame.control, fun _ => rfl, rfl⟩

/-- Settles O14: each of the three is a load of its width into the accumulator. -/
theorem immediateLoads : Obligations.ImmediateLoads := fun _ _ =>
  ⟨loadsInto_of_accessible _ (by decide), loadsInto_of_accessible _ (by decide), loadsInto_of_accessible _ (by decide)⟩

/-- Settles O15: each of the three is a load of its width into `tgt(sy)`, the address being a sum of natural numbers. -/
theorem indexedLoads : Obligations.IndexedLoads := fun _ _ _ _ =>
  ⟨loadsInto_of_accessible _ (by decide), loadsInto_of_accessible _ (by decide), loadsInto_of_accessible _ (by decide)⟩

/-! ### Stores -/

/-- The calls of a write are those of its first byte and then those of the rest. -/
theorem setCalls_succ (s : State) (va n pa : Nat) (v : Word) (h : s.translate va = .ok pa) :
    setCalls s va (n + 1) v = s.setCall pa (byteOf v 0) ++ setCalls s (va + 1) n (v >>> 8) := by
  have hrest : ∀ k, va + 1 + k = va + Nat.succ k := fun k => by omega
  unfold setCalls State.setCall
  rw [List.range_succ_eq_map, List.filterMap_cons, List.filterMap_map]
  cases hs : s.isSpecial pa <;>
    simp only [Function.comp_def, Nat.add_zero, h, hs, hrest, byteOf_ushiftRight] <;> rfl

/-- Storing no byte leaves everything as it is. -/
theorem stored_zero (s : State) (ea : Nat) (v : Word) : Stored s s ea 0 v :=
  ⟨fun k hk => absurd hk (Nat.not_lt_zero k), fun _ _ => rfl, (List.append_nil _).symm⟩

/-- Storing byte 0 and then the bytes above it stores all of them: what the rest leaves alone includes byte 0, unless the rest
goes over it again (20_memory.md R61). -/
theorem stored_succ {s s1 t : State} {ea n : Nat} {v : Word} (hfirst : s.writeByte ea (byteOf v 0) = .ok s1)
    (hrest : Stored s1 t (ea + 1) n (v >>> 8)) : Stored s t ea (n + 1) v := by
  obtain ⟨pa, htr, _, rfl⟩ := s.writeByte_ok s1 ea _ hfirst
  obtain ⟨hbytes, hothers, hcalls⟩ := hrest
  have hea : ∀ k, ea + 1 + k = ea + (k + 1) := fun k => by omega
  refine ⟨fun k hk pb htrk hdev hlast => ?_, fun a ha => ?_, ?_⟩
  · cases k with
    | zero =>
      obtain rfl : pa = pb := Except.ok.inj (htr.symm.trans htrk)
      have hkept := hothers pa fun k hk htrk' =>
        absurd (hea k ▸ htrk') (hlast (k + 1) (by omega) (by omega))
      rw [hkept]
      simp [hdev]
    | succ k =>
      rw [← byteOf_ushiftRight]
      exact hbytes k (by omega) pb ((hea k).symm ▸ htrk) hdev fun j hj hjn => hea j ▸ hlast (j + 1) (by omega) (by omega)
  · have hkept := hothers a fun k hk htrk => ha (k + 1) (by omega) (hea k ▸ htrk)
    rw [hkept]
    cases hs : s.isSpecial pa with
    | true => simp
    | false =>
      have hne : a ≠ pa := by
        rintro rfl
        simp [ha 0 (by omega) htr] at hs
      simpa [hs] using Memory.read_write_ne _ _ _ _ hne
  · rw [hcalls, State.logCalls_devLog, State.setMem_devLog, List.append_assoc, setCalls_succ s ea n pa v htr]
    rfl

/-- A write that answers stored the low bytes of the word. -/
theorem memWrite_stored {s t : State} {ea n : Nat} {v : Word} (h : s.memWrite ea n v = .ok t) : Stored s t ea n v := by
  induction n generalizing s ea v with
  | zero =>
    obtain rfl : s = t := Except.ok.inj h
    exact stored_zero s ea v
  | succ n ih =>
    obtain ⟨s1, hfirst, hrest⟩ := writeBytes_cons h
    exact stored_succ (byteOf_zero v ▸ hfirst) (ih hrest)

theorem SameAccess.accessible {s t : State} (h : SameAccess s t) {va n : Nat} (hacc : Accessible s va n) :
    Accessible t va n := by
  simpa only [Accessible, h.translate, h.params] using hacc

/-- An accessible write answers. -/
theorem writeBytes_of_accessible (bs : List Byte) (va : Nat) (s : State) (h : Accessible s va bs.length) :
    ∃ t, writeBytes bs va s = .ok t := by
  induction bs generalizing va s with
  | nil => exact ⟨s, rfl⟩
  | cons b bs ih =>
    obtain ⟨⟨pa, htr, hlt⟩, hrest⟩ := (accessible_succ s va bs.length).mp h
    obtain ⟨s1, hb⟩ := s.writeByte_of_accessible va pa b htr hlt
    obtain ⟨t, ht⟩ := ih (va + 1) s1 ((writeByte_next hb).1.accessible hrest)
    exact ⟨t, by simp only [writeBytes, hb, ht]⟩

/-- A store to accessible bytes completes (41_load_store.md R154 to R156, R160 to R162). -/
theorem storesAt_of_accessible {s : State} {ea n : Nat} (v : Word) (h : Accessible s ea n) :
    StoresAt (finish (s.memWrite ea n v)) s ea n v := by
  obtain ⟨t, hwrite⟩ : ∃ t, s.memWrite ea n v = .ok t :=
    writeBytes_of_accessible _ ea s ((length_bytesOfWord n v).symm ▸ h)
  have frame : DataFrame [] s t := .memWrite hwrite
  exact ⟨t, (finish_eq_next _ _).mpr hwrite, memWrite_stored hwrite, frame.regs, frame.control⟩

/-- Settles O16: each of the three stores the accumulator's low bytes. -/
theorem immediateStores : Obligations.ImmediateStores := fun _ _ =>
  ⟨storesAt_of_accessible _, storesAt_of_accessible _, storesAt_of_accessible _⟩

/-- Settles O17: each of the three stores the low bytes of `acc(sy)`, the address being a sum of natural numbers. -/
theorem indexedStores : Obligations.IndexedStores := fun _ _ _ _ =>
  ⟨storesAt_of_accessible _, storesAt_of_accessible _, storesAt_of_accessible _, rfl⟩

end Sys2Proof.Spec
end

section
/-! PROOFS. Move and swap: what one register write answers, the wrapped sum of a register's value and the immediate, and with
them MOV, MOVi and SWAP (30_encoding.md R105, 42_move_swap.md R171 to R173). -/
namespace Sys2Proof.Spec
open Sys2Proof.Machine

/-! ### Register writes -/

/-- A data frame that leaves memory and the device log as they are changes nothing but its registers. -/
theorem DataFrame.onlyRegs {ds : List RegIdx} {s t : State} (frame : DataFrame ds s t) (hmem : t.mem = s.mem)
    (hdev : t.devLog = s.devLog) : OnlyRegs ds s t :=
  ⟨frame.regs, frame.control, fun a => congrArg (·.read a) hmem, hdev⟩

/-- An answer that writes one register sets it to the number of the word written. -/
theorem setsReg_next_setReg (s : State) (d : RegIdx) (v : Word) : SetsReg (.next (s.setReg d v)) s d v.toNat :=
  ⟨_, rfl, by rw [State.reg_setReg_same], (DataFrame.setReg s v (by simp)).onlyRegs rfl rfl⟩

/-! ### The immediate -/

/-- An immediate as a word (00_scope.md R9). -/
theorem immWord_toNat (imm : Nat) : (immWord imm).toNat = imm % 2 ^ 32 := BitVec.toNat_ofNat imm 32

/-- A word plus the immediate is the sum of natural numbers mod 2^32, however large the immediate. -/
theorem toNat_add_immWord (v : Word) (imm : Nat) : (v + immWord imm).toNat = (v.toNat + imm) % 2 ^ 32 := by
  rw [BitVec.toNat_add, immWord_toNat, Nat.add_mod_mod]

/-! ### MOV, MOVi and SWAP -/

/-- Settles O21: each of the two is one register write. -/
theorem moveResults : Obligations.MoveResults := fun s rx ry ib imm => by
  constructor
  · rw [← toNat_add_immWord]
    exact setsReg_next_setReg s (tgt rx) (s.val ry + immWord ib)
  · rw [← immWord_toNat]
    exact setsReg_next_setReg s Config.regAcc (immWord imm)

/-- Settles O22: both words come from the state before; the write of `ry` is the last, so it stays, and the write of `rx` stays
where it went to another register. -/
theorem swapExchanges : Obligations.SwapExchanges := fun s rx ry ib => by
  have frame : DataFrame [tgt rx, tgt ry] s
      ((s.setReg (tgt rx) (s.val ry + immWord ib)).setReg (tgt ry) (s.val rx + immWord ib)) :=
    (DataFrame.setReg s _ (by simp)).trans (.setReg _ _ (by simp))
  refine ⟨_, rfl, ?_, fun hne => ?_, frame.onlyRegs rfl rfl⟩
  · rw [State.reg_setReg_same, toNat_add_immWord]
  · rw [State.reg_setReg_ne _ _ _ _ hne, State.reg_setReg_same, toNat_add_immWord]

end Sys2Proof.Spec
end

section
/-! PROOFS. Arithmetic: what one arithmetic operation answers, in terms of the untruncated value its operation gives or the fault
it raises, and with it ADD, SUB, MUL, DIV and MOD (00_scope.md R9, 43_arithmetic.md R180 to R190). -/
namespace Sys2Proof.Spec
open Sys2Proof.Machine

/-! ### Truncation -/

/-- The truncated value is the non-negative residue, so that a negative difference wraps (00_scope.md R9). -/
theorem trunc32_toNat (v : Int) : (trunc32 v).toNat = (v % 2 ^ 32).toNat := BitVec.toNat_ofInt v

theorem trunc32_natCast_toNat (n : Nat) : (trunc32 n).toNat = n % 2 ^ 32 := by
  rw [trunc32, BitVec.ofInt_natCast, BitVec.toNat_ofNat]

/-- A natural number that a word bounds is not changed by truncation. -/
theorem trunc32_natCast_toNat_of_le {n : Nat} {w : Word} (h : n ≤ w.toNat) : (trunc32 n).toNat = n := by
  rw [trunc32_natCast_toNat, Nat.mod_eq_of_lt (Nat.lt_of_le_of_lt h w.isLt)]

/-! ### One arithmetic operation -/

section
variable {s : State} {op : Nat → Nat → Nat → Except Fault Int} {rx ry : Sel} {ib : Nat}

/-- An operation that gives a value writes its truncation to `tgt(sx)` alone (43_arithmetic.md R180). -/
theorem setsReg_arithInto {v : Int} (h : op (s.val rx).toNat (s.val ry).toNat ib = .ok v) :
    SetsReg (finish (s.arithInto op rx ry ib)) s (tgt rx) (trunc32 v).toNat := by
  have hwrite : s.arithInto op rx ry ib = .ok (s.setReg (tgt rx) (trunc32 v)) := by simp only [State.arithInto, h]
  rw [(finish_eq_next _ _).mpr hwrite]
  exact setsReg_next_setReg s (tgt rx) (trunc32 v)

/-- An operation that never faults writes for all operands. -/
theorem setsReg_arithInto_total (f : Nat → Nat → Nat → Int) :
    SetsReg (finish (s.arithInto (fun a b c => .ok (f a b c)) rx ry ib)) s (tgt rx)
      (trunc32 (f (s.val rx).toNat (s.val ry).toNat ib)).toNat :=
  setsReg_arithInto rfl

/-- An operation that faults is the fault of the instruction. -/
theorem finish_arithInto_of_error {f : Fault} (h : op (s.val rx).toNat (s.val ry).toNat ib = .error f) :
    finish (s.arithInto op rx ry ib) = .fault f :=
  (finish_eq_fault _ f).mpr (by simp only [State.arithInto, h])

end

/-! ### ADD, SUB and MUL -/

theorem aluAdd_toNat (a b c : Nat) : (trunc32 (aluAdd a b c)).toNat = (a + b + c) % 2 ^ 32 := by
  have hcast : aluAdd a b c = ((a + b + c : Nat) : Int) := by simp [aluAdd]
  rw [hcast, trunc32_natCast_toNat]

theorem aluSub_toNat (a b c : Nat) : (trunc32 (aluSub a b c)).toNat = (((a : Int) - b - c) % 2 ^ 32).toNat :=
  trunc32_toNat _

theorem aluMul_toNat (a b c : Nat) : (trunc32 (aluMul a b c)).toNat = (a * b * c) % 2 ^ 32 := by
  have hcast : aluMul a b c = ((a * b * c : Nat) : Int) := by simp [aluMul]
  rw [hcast, trunc32_natCast_toNat]

/-- Settles O23: none of the three operations faults, and its truncation is the number stated. -/
theorem addSubMulResults : Obligations.AddSubMulResults := fun s rx ry ib => by
  rw [← aluAdd_toNat, ← aluSub_toNat, ← aluMul_toNat]
  exact ⟨setsReg_arithInto_total aluAdd, setsReg_arithInto_total aluSub, setsReg_arithInto_total aluMul⟩

/-! ### DIV and MOD -/

theorem aluDiv_of_ne_zero (a : Nat) {b c : Nat} (hb : b ≠ 0) (hc : c ≠ 0) : aluDiv a b c = .ok ((a / b / c : Nat) : Int) := by
  rw [aluDiv, if_neg hb, if_neg hc]

theorem aluMod_of_ne_zero (a : Nat) {b c : Nat} (hb : b ≠ 0) (hc : c ≠ 0) : aluMod a b c = .ok ((a % b % c : Nat) : Int) := by
  rw [aluMod, if_neg hb, if_neg hc]

/-- Either divisor zero makes both operations fault (43_arithmetic.md R185). -/
theorem aluDiv_aluMod_of_zero (a : Nat) {b c : Nat} (h : b = 0 ∨ c = 0) :
    aluDiv a b c = .error .divisionByZero ∧ aluMod a b c = .error .divisionByZero := by
  rcases h with rfl | rfl
  · exact ⟨if_pos rfl, if_pos rfl⟩
  · simp [aluDiv, aluMod]

theorem div_div_le (a b c : Nat) : a / b / c ≤ a := (Nat.div_le_self _ _).trans (Nat.div_le_self _ _)

theorem mod_mod_le (a b c : Nat) : a % b % c ≤ a := (Nat.mod_le _ _).trans (Nat.mod_le _ _)

/-- Settles O24: neither result exceeds `val(rx)`, so truncation keeps it. -/
theorem divModResults : Obligations.DivModResults := fun s rx ry ib => by
  refine ⟨fun hry hib => ⟨?_, ?_⟩, fun hzero => ?_⟩
  · have h := setsReg_arithInto (aluDiv_of_ne_zero (s.val rx).toNat (BitVec.toNat_ne.mp hry) hib)
    rwa [trunc32_natCast_toNat_of_le (div_div_le _ _ _)] at h
  · have h := setsReg_arithInto (aluMod_of_ne_zero (s.val rx).toNat (BitVec.toNat_ne.mp hry) hib)
    rwa [trunc32_natCast_toNat_of_le (mod_mod_le _ _ _)] at h
  · obtain ⟨hdiv, hmod⟩ := aluDiv_aluMod_of_zero (s.val rx).toNat (hzero.imp_left (congrArg BitVec.toNat))
    exact ⟨finish_arithInto_of_error hdiv, finish_arithInto_of_error hmod⟩

end Sys2Proof.Spec
end

section
/-! PROOFS. Bitwise operations: the number that each operation gives, what an instruction that applies one answers, and with them
SHL, SHR, AND, OR, XOR and NOT (44_bitwise.md R201 to R207). -/
namespace Sys2Proof.Spec
open Sys2Proof.Machine

/-! ### What the operations give -/

/-- A left shift multiplies, the count not reduced, and wraps (44_bitwise.md R202). -/
theorem aluShl_toNat (a : Word) (b : Nat) : (aluShl a b).toNat = (a.toNat * 2 ^ b) % 2 ^ 32 := by
  rw [aluShl, BitVec.toNat_shiftLeft, Nat.shiftLeft_eq]

/-- A right shift is logical: it divides the unsigned value (44_bitwise.md R203). -/
theorem aluShr_toNat (a : Word) (b : Nat) : (aluShr a b).toNat = a.toNat / 2 ^ b := by
  rw [aluShr, BitVec.toNat_ushiftRight, Nat.shiftRight_eq_div_pow]

theorem aluNot_toNat (a : Word) : (aluNot a).toNat = 0xFFFFFFFF - a.toNat := BitVec.toNat_not

/-- Masking with a byte sees the low byte alone (44_bitwise.md R204). -/
theorem and_eq_mod_and_of_lt (a : Nat) {b : Nat} (h : b < 256) : a &&& b = a % 256 &&& b :=
  calc a &&& b
    _ = (a &&& b) % 2 ^ 8 := (Nat.mod_eq_of_lt (Nat.and_lt_two_pow a h)).symm
    _ = a % 2 ^ 8 &&& b % 2 ^ 8 := Nat.and_mod_two_pow
    _ = a % 256 &&& b := by rw [Nat.mod_eq_of_lt h]

section
variable (a : Word) {b : Nat} (h : b < 256)
include h

/-- The immediate byte zero-extended to a word keeps its number (00_scope.md R9). -/
theorem byteWord_toNat : (BitVec.ofNat 32 b).toNat = b :=
  (BitVec.toNat_ofNat b 32).trans (Nat.mod_eq_of_lt (by omega))

theorem aluAnd_toNat : (aluAnd a b).toNat = a.toNat % 256 &&& b := by
  rw [aluAnd, BitVec.toNat_and, byteWord_toNat h, and_eq_mod_and_of_lt _ h]

theorem aluOr_toNat : (aluOr a b).toNat = a.toNat ||| b := by
  rw [aluOr, BitVec.toNat_or, byteWord_toNat h]

theorem aluXor_toNat : (aluXor a b).toNat = a.toNat ^^^ b := by
  rw [aluXor, BitVec.toNat_xor, byteWord_toNat h]

end

/-! ### One bitwise instruction -/

/-- The destination is `ry` if present, else `rx` with the accumulator for an absent `rx` (44_bitwise.md R201). -/
theorem bitwiseTgt_eq_ite (rx ry : Sel) : bitwiseTgt rx ry = if ry.isSome then tgt ry else tgt rx := by
  cases ry with
  | none => rfl
  | some r => rfl

/-- An instruction that applies `op` sets its destination alone, to what `op` gives on `val(rx)` and the immediate. -/
theorem setsReg_bitwiseInto (s : State) (op : Word → Nat → Word) (rx ry : Sel) (ib : Nat) :
    SetsReg (.next (s.bitwiseInto op rx ry ib)) s (if ry.isSome then tgt ry else tgt rx) (op (s.val rx) ib).toNat := by
  rw [← bitwiseTgt_eq_ite]
  exact setsReg_next_setReg s (bitwiseTgt rx ry) (op (s.val rx) ib)

/-! ### SHL, SHR, AND, OR, XOR and NOT -/

/-- Settles O26: each shift writes one register, with the number that its operation gives. -/
theorem shiftResults : Obligations.ShiftResults := fun s rx ry ib => by
  rw [← aluShl_toNat, ← aluShr_toNat]
  exact ⟨setsReg_bitwiseInto s aluShl rx ry ib, setsReg_bitwiseInto s aluShr rx ry ib⟩

/-- Settles O27: the immediate is a byte, so each operation gives the number stated. -/
theorem andOrXorResults : Obligations.AndOrXorResults := fun s rx ry ib hib => by
  rw [← aluAnd_toNat _ hib, ← aluOr_toNat _ hib, ← aluXor_toNat _ hib]
  exact ⟨setsReg_bitwiseInto s aluAnd rx ry ib, setsReg_bitwiseInto s aluOr rx ry ib, setsReg_bitwiseInto s aluXor rx ry ib⟩

/-- Settles O28: the one write is of the complement. -/
theorem notResult : Obligations.NotResult := fun s rx => by
  rw [← aluNot_toNat]
  exact setsReg_next_setReg s (tgt rx) (aluNot (s.val rx))

end Sys2Proof.Spec
end

section
/-! PROOFS. Branches: what a conditional write of `pc` and a call answer, and with them the jumps, the branches on zero and on
equality, and the calls (45_branch.md R215 to R228). -/
namespace Sys2Proof.Spec
open Sys2Proof.Machine

/-! ### The tests and the immediate target -/

theorem isZero_iff (v : Word) : isZero v = true ↔ v = 0 := beq_iff_eq

theorem not_isZero_iff (v : Word) : (!isZero v) = true ↔ v ≠ 0 := bne_iff_ne

theorem sameValue_iff (v w : Word) : sameValue v w = true ↔ v = w := beq_iff_eq

theorem not_sameValue_iff (v w : Word) : (!sameValue v w) = true ↔ v ≠ w := bne_iff_ne

/-- A 24-bit immediate is its own number as a word (30_encoding.md R102). -/
theorem immWord_toNat_of_imm24Fits {imm : Nat} (h : imm24Fits imm) : (immWord imm).toNat = imm := by
  rw [immWord_toNat, Nat.mod_eq_of_lt (h.trans (by decide))]

/-! ### One branch -/

/-- A branch jumps exactly if the condition that its test decides holds; the target is a word read from the state before. -/
theorem jumpsIf_branchIf (s : State) (target : Word) {c : Bool} {p : Prop} (hc : c = true ↔ p) :
    JumpsIf (.next (s.branchIf c target)) s p target.toNat := by
  refine ⟨_, rfl, fun taken => ?_, fun notTaken => ?_,
    (DataFrame.branchIf s c target).onlyRegs (s.branchIf_mem c target) (s.branchIf_devLog c target)⟩
  · obtain rfl : c = true := hc.mpr taken
    exact congrArg BitVec.toNat (s.pc_setPc target)
  · obtain rfl : c = false := Bool.eq_false_iff.mpr (mt hc.mp notTaken)
    rfl

/-- An unconditional jump is the branch whose condition always holds. -/
theorem jumpsIf_setPc (s : State) (target : Word) : JumpsIf (.next (s.setPc target)) s True target.toNat :=
  jumpsIf_branchIf s target (c := true) (eq_self_iff_true true)

/-! ### Jumps and conditional branches -/

/-- Settles O30: the four differ in the test and in the target alone. -/
theorem zeroBranches : Obligations.ZeroBranches := fun s rx ry imm himm => by
  have himmediate {c : Bool} {p : Prop} (hc : c = true ↔ p) : JumpsIf (.next (s.branchIf c (immWord imm))) s p imm := by
    simpa only [immWord_toNat_of_imm24Fits himm] using jumpsIf_branchIf s (immWord imm) hc
  exact ⟨himmediate (isZero_iff s.accumulator), himmediate (not_isZero_iff s.accumulator),
    jumpsIf_branchIf s (s.val rx) (isZero_iff (s.acc ry)), jumpsIf_branchIf s (s.val rx) (not_isZero_iff (s.acc ry))⟩

/-- Settles O31: the target is the word sum of the advanced PC and the immediate, which wraps as the statement says. -/
theorem relativeBranches : Obligations.RelativeBranches := fun s rx ry ib => by
  rw [← toNat_add_immWord]
  exact ⟨jumpsIf_branchIf s (s.pc + immWord ib) (sameValue_iff _ _),
    jumpsIf_branchIf s (s.pc + immWord ib) (not_sameValue_iff _ _)⟩

/-- Settles O29: each of the three is one write of `pc`. -/
theorem unconditionalJumps : Obligations.UnconditionalJumps := fun s rx imm himm => by
  have himmediate := jumpsIf_setPc s (immWord imm)
  rw [immWord_toNat_of_imm24Fits himm] at himmediate
  exact ⟨himmediate, jumpsIf_setPc s (s.val rx), jumpsIf_setPc s s.ret⟩

/-- Settles O32: the target is the wrapped sum of `val(rx)` and the immediate. -/
theorem branchIfRegisterZero : Obligations.BranchIfRegisterZero := fun s rx ry ib => by
  rw [← toNat_add_immWord]
  exact ⟨jumpsIf_branchIf s (s.val rx + immWord ib) (isZero_iff (s.val ry)), rfl⟩

/-! ### Calls -/

/-- The link value wraps (45_branch.md R228). -/
theorem linkValue_toNat (s : State) : s.linkValue.toNat = (s.pc.toNat + s.params.linkOffset) % 2 ^ 32 := by
  rw [State.linkValue, BitVec.toNat_add, BitVec.toNat_ofNat, Nat.add_mod_mod]

theorem callTo_pc (s : State) (target : Word) : (s.callTo target).pc = target := State.pc_setPc _ target

/-- `pc` is written last, so that the link stays only in a return register other than `pc` (10_state.md R23). -/
theorem callTo_ret (s : State) (target : Word) (h : s.params.regPc ≠ s.params.regRet) :
    (s.callTo target).ret = s.linkValue :=
  calc (s.callTo target).ret
    _ = (s.setRet s.linkValue).ret := State.ret_setPc _ target h
    _ = s.linkValue := s.reg_setReg_same s.params.regRet s.linkValue

theorem callTo_ret_toNat (s : State) (target : Word) (h : s.params.regPc ≠ s.params.regRet) :
    (s.callTo target).ret.toNat = (s.pc.toNat + s.params.linkOffset) % 2 ^ 32 := by
  rw [callTo_ret s target h, linkValue_toNat]

theorem callTo_onlyRegs (s : State) (target : Word) :
    OnlyRegs [s.params.regPc, s.params.regRet] s (s.callTo target) :=
  (DataFrame.callTo s target).onlyRegs (s.callTo_mem target) (s.callTo_devLog target)

/-- Settles O33: both are the one call, its target a word of the state before, so that BSR through the return register jumps to
what that register held before the link. -/
theorem callsLinkAndJump : Obligations.CallsLinkAndJump := fun s rx imm himm => by
  constructor
  · have hpc : (s.callTo (immWord imm)).pc.toNat = imm := by rw [callTo_pc, immWord_toNat_of_imm24Fits himm]
    exact ⟨s.callTo (immWord imm), rfl, hpc, callTo_ret_toNat s _, callTo_onlyRegs s _⟩
  · exact ⟨s.callTo (s.val rx), rfl, callTo_pc s _, callTo_ret_toNat s _, callTo_onlyRegs s _⟩

end Sys2Proof.Spec
end

section
/-! PROOFS. Interrupt configuration: IRET, INTVEC, SETI and CLRI, and that no instruction reads the interrupt state
(46_interrupt_config.md R240 to R244). -/
namespace Sys2Proof.Spec
open Sys2Proof.Machine

/-! ### Instructions that touch no control state answer alike on related states -/

/-- The six instructions that `ExecNext` sets apart from those with a data frame. -/
def touchesControl : Instr → Bool
  | .stop | .iret | .intvec .. | .seti | .clri | .mmucfg .. => true
  | _ => false

namespace AccessCongruence

variable {R : State → State → Prop} {s t : State}

/-- Related states differ in their control state alone. -/
theorem exists_eq (hR : AccessCongruence R) (h : R s t) : ∃ mmuEnabled mmuTable ivBase ivEnabled ivQueue run,
    t = { s with mmuEnabled, mmuTable, ivBase, ivEnabled, ivQueue, run } :=
  ⟨t.mmuEnabled, t.mmuTable, t.ivBase, t.ivEnabled, t.ivQueue, t.run,
    State.ext_regs (hR.params h :) (hR.reg h :) rfl rfl rfl rfl rfl rfl (hR.mem h :) (hR.devLog h :)⟩

theorem branchIf (hR : AccessCongruence R) (h : R s t) (c : Bool) (target : Word) :
    R (s.branchIf c target) (t.branchIf c target) := by
  cases c with
  | false => exact h
  | true =>
    simp only [State.branchIf, State.setPc, hR.params h]
    exact hR.setReg h _ target

/-- Such an instruction reads its operands from parameters and registers, in which related states are the same, and then
accesses memory and writes registers. -/
theorem exec_of_not_touchesControl (hR : AccessCongruence R) (h : R s t) {i : Instr} (hi : touchesControl i = false) :
    AnswersAgree R (exec i s) (exec i t) := by
  obtain ⟨_, _, _, _, _, _, rfl⟩ := hR.exists_eq h
  cases i with
  | stop | iret | intvec _ _ _ | seti | clri | mmucfg _ _ _ => exact nomatch hi
  | load8i _ | load16i _ | loadi _ | load8 _ _ _ | load16 _ _ _ | load _ _ _ => exact (hR.loadInto h _ _ _).finish
  | store8i _ | store16i _ | storei _ | store8 _ _ _ | store16 _ _ _ | store _ _ _ => exact (hR.memWrite h _ _ _).finish
  | div _ _ _ | mod _ _ _ => exact (hR.arithInto h _ _ _ _).finish
  | add _ _ _ | sub _ _ _ | mul _ _ _ | mov _ _ _ | movi _ | shl _ _ _ | shr _ _ _ | and _ _ _ | or _ _ _ | xor _ _ _
  | not _ | bi _ | b _ | rts => exact hR.setReg h _ _
  | swap _ _ _ | bsri _ | bsr _ => exact hR.setReg (hR.setReg h _ _) _ _
  | bzi _ | bnzi _ | bz _ _ | bnz _ _ | beq _ _ _ | bne _ _ _ | brz _ _ _ => exact hR.branchIf h _ _
  | push _ _ => exact (hR.pushWord h _ _).finish
  | pop _ _ => exact (hR.popWord h _ _).finish

end AccessCongruence

/-! ### States that differ in the interrupt state alone -/

theorem sameButIv_iff (s t : State) : SameButIv s t ↔
    ∃ ivBase ivEnabled ivQueue, t = { s with ivBase, ivEnabled, ivQueue } := by
  refine ⟨fun h => ⟨_, _, _, h⟩, ?_⟩
  rintro ⟨_, _, _, rfl⟩
  exact rfl

theorem accessCongruence_sameButIv : AccessCongruence SameButIv where
  params h := by obtain ⟨_, _, _, rfl⟩ := (sameButIv_iff _ _).mp h; rfl
  reg h r := by obtain ⟨_, _, _, rfl⟩ := (sameButIv_iff _ _).mp h; rfl
  mem h := by obtain ⟨_, _, _, rfl⟩ := (sameButIv_iff _ _).mp h; rfl
  devLog h := by obtain ⟨_, _, _, rfl⟩ := (sameButIv_iff _ _).mp h; rfl
  translate h va := by obtain ⟨_, _, _, rfl⟩ := (sameButIv_iff _ _).mp h; rfl
  setReg h r v := by obtain ⟨_, _, _, rfl⟩ := (sameButIv_iff _ _).mp h; rfl
  logCalls h calls := by obtain ⟨_, _, _, rfl⟩ := (sameButIv_iff _ _).mp h; rfl
  setMem h m := by obtain ⟨_, _, _, rfl⟩ := (sameButIv_iff _ _).mp h; rfl

/-- The table is expanded from memory and registers alone (20_memory.md R72, 47_mmu_config.md R250). -/
theorem SameButIv.exec_mmucfg {s t : State} (h : SameButIv s t) (rx ry : Sel) (ib : Nat) :
    AnswersAgree SameButIv (exec (.mmucfg rx ry ib) s) (exec (.mmucfg rx ry ib) t) := by
  obtain ⟨ivBase, ivEnabled, ivQueue, rfl⟩ := (sameButIv_iff _ _).mp h
  cases rx with
  | none => exact rfl
  | some r =>
    cases hwalk : expandTable s.params.memSize s.mem tableDepth [] (s.reg r).toNat (s.val ry).toNat ⟨[], 0⟩ with
    | error f =>
      rw [exec_mmucfg_of_error ib hwalk, exec_mmucfg_of_error (s := { s with ivBase, ivEnabled, ivQueue }) ib hwalk]
      exact rfl
    | ok w =>
      rw [exec_mmucfg_of_ok ib hwalk, exec_mmucfg_of_ok (s := { s with ivBase, ivEnabled, ivQueue }) ib hwalk]
      exact rfl

/-- Settles O58: accesses do not see the interrupt state, so instructions that touch no control state agree; MMUCFG reads memory
and registers alone, and the other five write constants or register values. -/
theorem noInstructionReadsInterruptState : Obligations.NoInstructionReadsInterruptState := by
  intro i s t h
  cases i with
  | mmucfg rx ry ib => exact h.exec_mmucfg rx ry ib
  | stop | iret | intvec _ _ _ | seti | clri =>
    obtain ⟨_, _, _, rfl⟩ := (sameButIv_iff _ _).mp h
    exact rfl
  | _ => exact accessCongruence_sameButIv.exec_of_not_touchesControl h rfl

/-! ### Returning and configuring -/

/-- Settles O13: IRET writes `pc` and the enable, so that the return register, another than `pc` (R23), stays. -/
theorem iretReturnsAndEnables : Obligations.IretReturnsAndEnables := fun s =>
  have hregs : RegsSameBut [s.params.regPc] s s.returnFromInterrupt := (DataFrame.setReg s s.ret List.mem_cons_self).regs
  ⟨s.returnFromInterrupt, rfl, s.pc_setPc s.ret, s.returnFromInterrupt_ivEnabled, s.ret_setPc s.ret, hregs, ⟨rfl, rfl⟩,
    fun _ => rfl, rfl, rfl, rfl, rfl, rfl⟩

/-- Bit 0 of the flags with the immediate put in (46_interrupt_config.md R240). -/
theorem intvecEnables_eq_testBit (flags : Word) (ib : Nat) : intvecEnables flags ib = (flags.toNat ||| ib).testBit 0 := by
  simp only [intvecEnables, immWord, BitVec.getLsbD_or, BitVec.getLsbD_ofNat, Nat.testBit_or, BitVec.testBit_toNat,
    Nat.zero_lt_succ, decide_true, Bool.true_and]

/-- Settles O34: the three are updates of the two fields; INTVEC takes its enable from bit 0 of a word. -/
theorem interruptConfiguration : Obligations.InterruptConfiguration := fun s rx ry ib => by
  rw [← intvecEnables_eq_testBit]
  exact ⟨rfl, rfl, rfl⟩

end Sys2Proof.Spec
end


section
/-! PROOFS. MMUCFG's other cases: switching paging alone, a table that reaches itself, and the scan of a table's entries as a loop
(20_memory.md R72, 47_mmu_config.md R250, R251). -/
namespace Sys2Proof.Spec
open Sys2Proof.Machine

/-- Settles O38: without `rx` there is nothing to initialize. -/
theorem mmucfgSwitchesPaging : Obligations.MmucfgSwitchesPaging := fun s _ ib =>
  congrArg Host.Outcome.next (switchPaging_eq s ib)

/-- Settles O42: the loop filters the entries' addresses and reads each, the statement does both at once. -/
theorem tableScanIsTheLoop : Obligations.TableScanIsTheLoop := by
  intro m pos n hm
  rw [presentEntries_eq_looped m hm, loopedAddrs, List.filter_map, List.map_map, ← List.filterMap_eq_map,
    List.filterMap_filter]
  rfl

/-! ### A table that reaches itself -/

theorem expandSubtable_of_mem {memSize : Nat} {m : Memory} {fuel : Nat} {path : List TableKey} {e : Word} {w : Walk}
    (h : tableKey e ∈ path) : expandSubtable memSize m fuel path e w = .error .tableNeverEnds := by
  simp [expandSubtable, h]

theorem walkEntries_subtable_error {sub : Word → Walk → Except Fault Walk} {e : Word} {es : List Word} {w : Walk} {f : Fault}
    (hs : isSubtable e = true) (h : sub e w = .error f) : walkEntries sub (e :: es) w = .error f := by
  simp [walkEntries, hs, h]

/-- A table whose first entry is a present subtable faults as that subtable does, before any later entry is reached. -/
theorem expandTable_of_first_error {memSize : Nat} {m : Memory} (hm : m.wf) {fuel : Nat} {path : List TableKey}
    {pos count : Nat} {w : Walk} {f : Fault} (hcount : 0 < count) (hin : pos + 3 < memSize)
    (hp : isPresent (tableWord m pos) = true) (hs : isSubtable (tableWord m pos) = true)
    (h : expandSubtable memSize m fuel path (tableWord m pos) w = .error f) :
    expandTable memSize m (fuel + 1) path pos count w = .error f := by
  obtain ⟨n, hn⟩ : ∃ n, readableEntries memSize pos count = n + 1 :=
    Nat.exists_eq_succ_of_ne_zero (by unfold readableEntries; omega)
  rw [expandTable_succ, hn, presentEntries_succ m hm, hp, if_pos rfl, walkEntries_subtable_error hs h]
  rfl

theorem subCount_pos (sc : BitVec 2) : 0 < subCount sc := by
  revert sc
  decide

/-- A subtable whose nested table begins with that same entry is met again inside itself (20_memory.md R72). -/
theorem expandSubtable_of_self {memSize : Nat} {m : Memory} (hm : m.wf) {fuel : Nat} {path : List TableKey} {e : Word}
    {w : Walk} (hin : (entryAddr e).toNat + 3 < memSize) (hself : tableWord m (entryAddr e).toNat = e)
    (hp : isPresent e = true) (hs : isSubtable e = true) :
    expandSubtable memSize m (fuel + 1) path e w = .error .tableNeverEnds := by
  by_cases hpath : tableKey e ∈ path
  · exact expandSubtable_of_mem hpath
  · rw [expandSubtable_of_not_mem hpath]
    refine expandTable_of_first_error hm (subCount_pos _) hin (hself.symm ▸ hp) (hself.symm ▸ hs) ?_
    rw [hself]
    exact expandSubtable_of_mem List.mem_cons_self

/-- Settles O41: the table's first entry is stuck in itself, and MMUCFG's fuel lasts for the two levels. -/
theorem selfReachingTableIsStuck : Obligations.SelfReachingTableIsStuck := by
  rintro s r ry ib _ hm hcount hin rfl hin' hself hp hs
  refine exec_mmucfg_of_error ib (expandTable_of_first_error (fuel := 2 ^ 22) hm hcount hin hp hs ?_)
  exact expandSubtable_of_self (fuel := 2 ^ 22 - 1) hm hin' hself hp hs

end Sys2Proof.Spec
end

section
/-! PROOFS. Every fault of an instruction, said once for all instructions, and DivisionByZero among them (60_exceptions.md
R273 to R277). -/
namespace Sys2Proof.Spec
open Sys2Proof.Machine

/-- The faults `exec` can answer from `s`: those of a memory access or table read, and four that one or two instructions raise
each. -/
inductive ExecFault (s : State) : Instr → Fault → Prop where
  | access {i : Instr} {f : Fault} (h : f.OfAccess) : ExecFault s i f
  | div (rx ry : Sel) (ib : Nat) (h : s.val ry = 0 ∨ ib = 0) : ExecFault s (.div rx ry ib) .divisionByZero
  | mod (rx ry : Sel) (ib : Nat) (h : s.val ry = 0 ∨ ib = 0) : ExecFault s (.mod rx ry ib) .divisionByZero
  | overflow (rx ry : Sel) (h : pushOverflows s.params.stackBound (s.reg (s.stackPtr rx)) = true) :
      ExecFault s (.push rx ry) .stackOverflow
  | underflow (rx ry : Sel) (h : popUnderflows s.params.stackBound (s.reg (s.stackPtr rx)) = true) :
      ExecFault s (.pop rx ry) .stackUnderflow
  | neverEnds (rx ry : Sel) (ib : Nat) : ExecFault s (.mmucfg rx ry ib) .tableNeverEnds

/-- An instruction that always answers has no fault. -/
theorem ExecFault.of_next {s u : State} {i : Instr} {f : Fault} (h : Host.Outcome.next u = (.fault f : Result)) :
    ExecFault s i f := nomatch h

/-- An operation that never faults makes no instruction fault. -/
theorem ExecFault.of_total {s : State} {i : Instr} {f : Fault} {op : Nat → Nat → Nat → Int} {rx ry : Sel} {ib : Nat}
    (h : finish (s.arithInto (fun a b c => .ok (op a b c)) rx ry ib) = .fault f) : ExecFault s i f :=
  nomatch s.arithInto_error _ rx ry ib f ((finish_eq_fault _ f).mp h)

/-- A zero divisor as a number is a zero word. -/
theorem zero_divisor {v : Word} {ib : Nat} (h : v.toNat = 0 ∨ ib = 0) : v = 0 ∨ ib = 0 :=
  h.imp_left BitVec.eq_of_toNat_eq

theorem execMmucfg_fault (rx ry : Sel) (ib : Nat) (s : State) (f : Fault) (h : execMmucfg rx ry ib s = .fault f) :
    s.initializeMmu rx ry = .error f := by
  unfold execMmucfg at h
  split at h
  · rename_i g hinit
    rw [hinit, Host.Outcome.fault.inj h]
  · simp at h

/-- THE INVERSION OF `exec` AT A FAULT: the faults of `ExecFault` are all there are. -/
theorem exec_fault (i : Instr) (s : State) (f : Fault) (h : exec i s = .fault f) : ExecFault s i f := by
  cases i with
  | load8i _ | load16i _ | loadi _ | load8 _ _ _ | load16 _ _ _ | load _ _ _ =>
    exact .access (s.loadInto_error _ _ _ f ((finish_eq_fault _ f).mp h))
  | store8i _ | store16i _ | storei _ | store8 _ _ _ | store16 _ _ _ | store _ _ _ =>
    exact .access (s.memWrite_error _ _ _ f ((finish_eq_fault _ f).mp h))
  | add _ _ _ | sub _ _ _ | mul _ _ _ => exact .of_total h
  | div rx ry ib =>
    obtain ⟨rfl, hzero⟩ := aluDiv_error _ _ _ f (s.arithInto_error _ rx ry ib f ((finish_eq_fault _ f).mp h))
    exact .div rx ry ib (zero_divisor hzero)
  | mod rx ry ib =>
    obtain ⟨rfl, hzero⟩ := aluMod_error _ _ _ f (s.arithInto_error _ rx ry ib f ((finish_eq_fault _ f).mp h))
    exact .mod rx ry ib (zero_divisor hzero)
  | push rx ry =>
    rcases s.pushWord_error _ _ f ((finish_eq_fault _ f).mp h) with ⟨hbound, rfl⟩ | ⟨_, haccess⟩
    · exact .overflow rx ry hbound
    · exact .access haccess
  | pop rx ry =>
    rcases s.popWord_error _ _ f ((finish_eq_fault _ f).mp h) with ⟨hbound, rfl⟩ | ⟨_, haccess⟩
    · exact .underflow rx ry hbound
    · exact .access haccess
  | mmucfg rx ry ib =>
    rcases s.initializeMmu_error rx ry f (execMmucfg_fault rx ry ib s f h) with hbeyond | rfl
    · exact .access (.inr hbeyond)
    · exact .neverEnds rx ry ib
  | stop | iret | mov _ _ _ | movi _ | swap _ _ _ | shl _ _ _ | shr _ _ _ | and _ _ _ | or _ _ _ | xor _ _ _ | not _
  | bi _ | b _ | bzi _ | bnzi _ | bz _ _ | bnz _ _ | beq _ _ _ | bne _ _ _ | brz _ _ _ | bsri _ | bsr _ | rts
  | intvec _ _ _ | seti | clri => exact .of_next h

/-- A memory access raises UnmappedPageError or AddressError (60_exceptions.md R270, R273, R274). -/
theorem code_of_ofAccess {f : Fault} (h : f.OfAccess) : f.code = some 5 ∨ f.code = some 1 := by
  rcases h with ⟨va, rfl⟩ | ⟨pa, rfl⟩
  · exact .inl rfl
  · exact .inr rfl

/-- Settles O25, from the faults that there are. -/
theorem onlyDivAndModDivideByZero : Obligations.OnlyDivAndModDivideByZero := by
  intro s i h
  cases exec_fault i s _ h with
  | access haccess => exact absurd (code_of_ofAccess haccess) (by decide)
  | div rx ry ib hzero => exact ⟨rx, ry, ib, .inl rfl, hzero⟩
  | mod rx ry ib hzero => exact ⟨rx, ry, ib, .inr rfl, hzero⟩

end Sys2Proof.Spec
end

section
/-! PROOFS. Raising an interrupt: its masking, and the way from the raise through the delivery to the return (60_exceptions.md
R282, R285 to R287). -/
namespace Sys2Proof.Spec
open Sys2Proof.Machine

theorem raiseInterrupt_of_disabled {s : State} (h : s.ivEnabled = false) (n : Nat) : s.raiseInterrupt n = s := by
  simp [State.raiseInterrupt, h]

theorem raiseInterrupt_of_enabled {s : State} (h : s.ivEnabled = true) (n : Nat) :
    s.raiseInterrupt n = { s with ivEnabled := false, ivQueue := s.ivQueue ++ [n] } := by
  simp [State.raiseInterrupt, h]

/-- While disabled any number of raises is lost. -/
theorem foldl_raiseInterrupt_of_disabled {s : State} (h : s.ivEnabled = false) (later : List Nat) :
    later.foldl State.raiseInterrupt s = s := by
  induction later with
  | nil => rfl
  | cons n later ih => rw [List.foldl_cons, raiseInterrupt_of_disabled h, ih]

/-- Settles O35, by the enable bit. -/
theorem raiseIsMaskedAndQueued : Obligations.RaiseIsMaskedAndQueued := fun _ n =>
  ⟨fun h => raiseInterrupt_of_disabled h n, fun h => raiseInterrupt_of_enabled h n⟩

/-- Settles O36: the raised state has one number queued and is disabled; its delivery and the return are those of O9 and O13. -/
theorem raiseDeliverReturn : Obligations.RaiseDeliverReturn := by
  intro s n hregs hrun henabled hqueue hslots
  rw [raiseInterrupt_of_enabled henabled, hqueue, List.nil_append]
  refine ⟨foldl_raiseInterrupt_of_disabled rfl, ?_⟩
  obtain ⟨t, hstep, hret, hpc, hrest, _, hdisabled, _⟩ :=
    pendingInterruptIsDeliveredFirst.1 { s with ivEnabled := false, ivQueue := [n] } n [] hrun rfl hslots
  have hsaved : t.ret = s.pc := hret hregs
  obtain ⟨u, hiret, hback, hon, _⟩ := iretReturnsAndEnables t
  exact ⟨t, hstep, hsaved, hpc, hdisabled, hrest, u, hiret, hback.trans hsaved, hon⟩

end Sys2Proof.Spec
end

section
/-! PROOFS. The host's reset, and the memory that it is given from an executable container (70_reset_and_hazards.md R320, R323,
R326). -/
namespace Sys2Proof.Spec
open Sys2Proof.Machine

/-! ### Reset -/

theorem hostReset_reg (s : State) (r : RegIdx) :
    s.hostReset.reg r = if s.params.regPc = r then s.params.resetPc else 0 := by
  simp only [State.reg, State.hostReset, resetRegs, Vector.getElem_set, Vector.getElem_replicate, Fin.val_inj]

/-- Settles O52: but for the register file every field is set or kept by the definition. -/
theorem resetValues : Obligations.ResetValues := by
  refine ⟨fun s => ⟨?_, fun r hr => ?_, rfl, rfl, rfl, rfl, rfl, rfl, fun _ => rfl, rfl, rfl⟩, fun p => ⟨rfl, fun _ => rfl⟩⟩
  · exact (hostReset_reg s s.params.regPc).trans (if_pos rfl)
  · exact (hostReset_reg s r).trans (if_neg hr.symm)

/-! ### Placing an image -/

/-- Bytes stored at consecutive addresses leave every other address as it was. -/
theorem read_load_outside (bs : List Byte) (m : Memory) (a x : Nat) (h : x < a ∨ a + bs.length ≤ x) :
    (m.load a bs).read x = m.read x := by
  induction bs generalizing m a with
  | nil => rfl
  | cons b bs ih =>
    rw [List.length_cons] at h
    rw [Memory.load, ih _ (a + 1) (by omega), Memory.read_write_ne m a x b (by omega)]

/-- The byte at place `k` stands `k` addresses on. -/
theorem read_load_inside (bs : List Byte) (m : Memory) (a k : Nat) (hk : k < bs.length) :
    (m.load a bs).read (a + k) = bs[k] := by
  induction bs generalizing m a k with
  | nil => exact absurd hk (Nat.not_lt_zero k)
  | cons b bs ih =>
    rw [Memory.load]
    cases k with
    | zero => exact (read_load_outside bs _ (a + 1) a (by omega)).trans (Memory.read_write_same m a b)
    | succ k =>
      have ha : a + (k + 1) = a + 1 + k := by omega
      rw [ha]
      exact ih _ (a + 1) k (by simpa using hk)

theorem boot_of_fits {s : State} {file : List Byte} {im : Image} (hparse : parseImage file = some im)
    (hfits : im.fits s.params = true) : s.boot file = some { s.hostReset with mem := im.memory s.params } := by
  simp only [State.boot, hparse, hfits, if_true]

/-- Settles O60: the data is loaded over the code, and the code over an empty memory. -/
theorem bootPlacesCodeAndData : Obligations.BootPlacesCodeAndData := by
  intro s file im hparse hcode hdata
  have hwf : (im.memory s.params).wf := Memory.wf_load _ _ _ (Memory.wf_load _ _ _ Memory.wf_nil)
  refine ⟨_, boot_of_fits hparse (by simp [Image.fits, hcode, hdata]), rfl, hwf, fun k hk => ?_, fun k hk hout => ?_,
    fun a hadata hacode => ?_⟩
  · exact read_load_inside im.data _ im.dataBase k hk
  · exact (read_load_outside im.data _ im.dataBase _ hout).trans (read_load_inside im.code [] _ k hk)
  · exact (read_load_outside im.data _ im.dataBase a hadata).trans (read_load_outside im.code [] _ a hacode)

end Sys2Proof.Spec
end

section
/-! PROOFS. The stack: the bound's two checks, what a push and a pop within the bound do, and that what was pushed last is popped
first (48_stack.md R260 to R264). -/
namespace Sys2Proof.Spec
open Sys2Proof.Machine

/-! ### The bound -/

/-- The push check on integers: the decremented pointer lies below the bound (48_stack.md R263). -/
theorem pushOverflows_iff (bound : Option (Nat × Nat)) (pointer : Word) : pushOverflows bound pointer = true ↔
    ∃ base size, bound = some (base, size) ∧ (pointer.toNat : Int) - 4 < (base : Int) - size := by
  cases bound with
  | none => simp [pushOverflows]
  | some b =>
    rw [pushOverflows, decide_eq_true_iff]
    simp [Config.wordSize, Prod.ext_iff]

/-- The pop check: the pointer is at or past the base (48_stack.md R263). -/
theorem popUnderflows_iff (bound : Option (Nat × Nat)) (pointer : Word) : popUnderflows bound pointer = true ↔
    ∃ base size, bound = some (base, size) ∧ base ≤ pointer.toNat := by
  cases bound with
  | none => simp [popUnderflows]
  | some b => simp [popUnderflows, Prod.ext_iff]

theorem pushOverflows_of_admitted {s : State} {rx : Sel} (h : PushAdmitted s rx) :
    pushOverflows s.params.stackBound (s.reg (s.stackPtr rx)) = false := by
  refine Bool.eq_false_iff.mpr fun hover => ?_
  obtain ⟨base, size, hbound, hlt⟩ := (pushOverflows_iff _ _).mp hover
  exact absurd hlt (Int.not_lt.mpr (h base size hbound))

theorem popUnderflows_of_admitted {s : State} {rx : Sel} (h : PopAdmitted s rx) :
    popUnderflows s.params.stackBound (s.reg (s.stackPtr rx)) = false := by
  refine Bool.eq_false_iff.mpr fun hunder => ?_
  obtain ⟨base, size, hbound, hle⟩ := (popUnderflows_iff _ _).mp hunder
  exact absurd hle (Nat.not_le.mpr (h base size hbound))

theorem exec_push_overflow_iff (s : State) (rx ry : Sel) : exec (.push rx ry) s = .fault .stackOverflow ↔
    pushOverflows s.params.stackBound (s.reg (s.stackPtr rx)) = true := by
  refine ⟨fun h => ?_, fun h => (finish_eq_fault _ _).mpr (if_pos h)⟩
  cases exec_fault _ s _ h with
  | access haccess => exact absurd (code_of_ofAccess haccess) (by decide)
  | overflow _ _ hbound => exact hbound

theorem exec_pop_underflow_iff (s : State) (rx ry : Sel) : exec (.pop rx ry) s = .fault .stackUnderflow ↔
    popUnderflows s.params.stackBound (s.reg (s.stackPtr rx)) = true := by
  refine ⟨fun h => ?_, fun h => (finish_eq_fault _ _).mpr (if_pos h)⟩
  cases exec_fault _ s _ h with
  | access haccess => exact absurd (code_of_ofAccess haccess) (by decide)
  | underflow _ _ hbound => exact hbound

/-- Settles O47: PUSH and POP fault so exactly when their check fails, and of all faults only theirs are these two. -/
theorem stackBoundChecks : Obligations.StackBoundChecks := by
  refine ⟨fun s rx ry => (exec_push_overflow_iff s rx ry).trans (pushOverflows_iff _ _),
    fun s rx ry => (exec_pop_underflow_iff s rx ry).trans (popUnderflows_iff _ _), fun s i h => ?_, fun s i h => ?_⟩
  · cases exec_fault i s _ h with
    | access haccess => exact absurd (code_of_ofAccess haccess) (by decide)
    | overflow rx ry _ => exact ⟨rx, ry, rfl⟩
  · cases exec_fault i s _ h with
    | access haccess => exact absurd (code_of_ofAccess haccess) (by decide)
    | underflow rx ry _ => exact ⟨rx, ry, rfl⟩

/-- Settles O49, by the checks on the one bound that is set: `base - 4k - 4 < base - size` says that `size / 4 ≤ k`. -/
theorem boundAdmitsSizeOverWordPushes : Obligations.BoundAdmitsSizeOverWordPushes := by
  intro s rx ry base size k hbound hsize hle hk hpointer
  have hpush : pushOverflows s.params.stackBound (s.reg (s.stackPtr rx)) = true ↔ size / 4 ≤ k := by
    rw [hbound, pushOverflows, hpointer, decide_eq_true_iff, Config.wordSize]
    omega
  refine ⟨(exec_push_overflow_iff s rx ry).trans hpush, fun hzero => ?_⟩
  exact (exec_pop_underflow_iff s rx ry).mpr ((popUnderflows_iff _ _).mpr ⟨base, size, hbound, by omega⟩)

/-! ### One push and one pop -/

/-- Within the bound a push is its store, from the state with the pointer decremented (48_stack.md R261). -/
theorem exec_push_of_admitted {s : State} {rx : Sel} (ry : Sel) (h : PushAdmitted s rx) : exec (.push rx ry) s =
    finish ((s.decrementPtr (s.stackPtr rx)).memWrite (s.reg (s.stackPtr rx) - 4#32).toNat 4 (s.acc ry)) := by
  have hpointer : (s.decrementPtr (s.stackPtr rx)).reg (s.stackPtr rx) = s.reg (s.stackPtr rx) - 4#32 :=
    s.reg_setReg_same _ _
  simp only [exec, execPush, State.pushWord, pushOverflows_of_admitted h, hpointer, Config.wordSize, Bool.false_eq_true,
    if_false]

/-- Within the bound a pop whose load answers increments the pointer and then writes the value (48_stack.md R262). -/
theorem popWord_of_memRead_ok {s s' : State} {rx : Sel} {v : Word} (d : RegIdx) (h : PopAdmitted s rx)
    (hread : s.memRead (s.reg (s.stackPtr rx)).toNat 4 = .ok (v, s')) : s.popWord (s.stackPtr rx) d =
      .ok ((s'.setReg (s.stackPtr rx) (s.reg (s.stackPtr rx) + 4#32)).setReg d v) := by
  simp only [State.popWord, popUnderflows_of_admitted h, Config.wordSize, Bool.false_eq_true, if_false, hread, wordStep]

/-- Within the bound a pop faults as its load does. -/
theorem popWord_of_memRead_error {s : State} {rx : Sel} {f : Fault} (d : RegIdx) (h : PopAdmitted s rx)
    (hread : s.memRead (s.reg (s.stackPtr rx)).toNat 4 = .error f) : s.popWord (s.stackPtr rx) d = .error f := by
  simp only [State.popWord, popUnderflows_of_admitted h, Config.wordSize, Bool.false_eq_true, if_false, hread]

/-- The pointer takes no part in translation. -/
theorem sameAccess_decrementPtr (s : State) (p : RegIdx) : SameAccess s (s.decrementPtr p) := ⟨fun _ => rfl, rfl⟩

/-- Settles O46: within the bound only the access can fault, and it does so at its lowest failing byte. -/
theorem stackAccessFaultsAtLowestByte : Obligations.StackAccessFaultsAtLowestByte := by
  intro s rx ry f
  refine ⟨fun hadmit hfault => ?_, fun hadmit hfault => (finish_eq_fault _ f).mpr ?_⟩
  · rw [exec_push_of_admitted ry hadmit, finish_eq_fault]
    exact memWrite_of_firstFault _ _ 4 _ f ((sameAccess_decrementPtr s _).firstFault hfault)
  · exact popWord_of_memRead_error _ hadmit (memRead_of_firstFault s _ 4 f hfault)

/-- Settles O44: the store is one from the state with the pointer decremented, which has the memory, the devices and the
translation of the state before. -/
theorem pushStoresBelowThePointer : Obligations.PushStoresBelowThePointer := by
  intro s rx ry hadmit hacc
  obtain ⟨t, hstore, hstored, hregs, _⟩ :=
    storesAt_of_accessible (s.acc ry) ((sameAccess_decrementPtr s (s.stackPtr rx)).accessible hacc)
  have hexec : exec (.push rx ry) s = .next t := (exec_push_of_admitted ry hadmit).trans hstore
  have frame : DataFrame [s.stackPtr rx] s t := .pushWord ((finish_eq_next _ t).mp hexec)
  have hpointer : t.reg (s.stackPtr rx) = s.reg (s.stackPtr rx) - 4#32 :=
    (hregs _ List.not_mem_nil).trans (s.reg_setReg_same _ _)
  exact ⟨t, hexec, hpointer, hstored, frame.regs, frame.control, rfl, fun _ => rfl⟩

/-- Settles O45: the load logs its device calls alone, and the value is the last of the two registers written. -/
theorem popLoadsAtThePointer : Obligations.PopLoadsAtThePointer := by
  intro s rx ry hadmit hacc
  obtain ⟨v, s', hread⟩ := memRead_of_accessible s _ 4 hacc
  have hpop := popWord_of_memRead_ok (tgt ry) hadmit hread
  have frame : DataFrame [s.stackPtr rx, tgt ry] s _ := .popWord hpop
  obtain rfl := memRead_getCalls s s' _ 4 v hread
  refine ⟨_, (finish_eq_next _ _).mpr hpop, ?_, fun hne => ?_, frame.regs, frame.control, fun _ => rfl, rfl⟩
  · rw [State.reg_setReg_same]
    exact memRead_readsAs (Nat.le_refl 4) hread
  · rw [State.reg_setReg_ne _ _ _ _ hne, State.reg_setReg_same]

/-! ### A word on the stack -/

/-- The four bytes of the access exist, no device stands there, and no two of them are one physical byte. -/
structure OrdinaryWord (s : State) (va : Nat) : Prop where
  accessible : Accessible s va 4
  noDevice : NoDevice s va 4
  distinct : Distinct s va 4

/-- Each word inside a longer access to ordinary bytes is ordinary. -/
theorem ordinaryWord_of_part {s : State} {va n : Nat} (j : Nat) (hj : j + 4 ≤ n) (hacc : Accessible s va n)
    (hdev : NoDevice s va n) (hdist : Distinct s va n) : OrdinaryWord s (va + j) where
  accessible k hk := Nat.add_assoc va j k ▸ hacc (j + k) (by omega)
  noDevice k hk := Nat.add_assoc va j k ▸ hdev (j + k) (by omega)
  distinct i k hik hk := by
    rw [Nat.add_assoc, Nat.add_assoc]
    exact hdist (j + i) (j + k) (by omega) (by omega)

theorem SameAccess.ordinaryWord {s t : State} (h : SameAccess s t) {va : Nat} (hword : OrdinaryWord s va) :
    OrdinaryWord t va :=
  ⟨h.accessible hword.accessible, h.noDevice hword.noDevice, h.distinct hword.distinct⟩

theorem SameAccess.trans {s t u : State} (h : SameAccess s t) (h' : SameAccess t u) : SameAccess s u :=
  ⟨fun va => (h'.translate va).trans (h.translate va), h'.params.trans h.params⟩

theorem ControlSame.sameAccess {s t : State} (h : ControlSame s t) : SameAccess s t :=
  ⟨State.translate_congr h.mmuEnabled h.mmuTable, h.params⟩

/-- The word's bytes stand in memory at the access's addresses. -/
def HoldsWord (s : State) (va : Nat) (v : Word) : Prop :=
  ∀ k, k < 4 → ∀ pa, s.translate (va + k) = .ok pa → s.mem.read pa = byteOf v k

/-- A word stored at ordinary bytes stands there. -/
theorem holdsWord_of_stored {s t : State} {va : Nat} {v : Word} (h : Stored s t va 4 v) (hsame : SameAccess s t)
    (hslot : OrdinaryWord s va) : HoldsWord t va v := by
  obtain ⟨hbytes, _, _⟩ := h
  intro k hk pa htr
  have htr' : s.translate (va + k) = .ok pa := hsame.translate _ ▸ htr
  exact hbytes k hk pa htr' (hslot.noDevice k hk pa htr') fun j hkj hj => hslot.distinct k j hkj hj pa htr'

/-- A store elsewhere leaves a word where it stands. -/
theorem HoldsWord.of_stored {s t : State} {va ea n : Nat} {v w : Word} (h : HoldsWord s va v) (hstored : Stored s t ea n w)
    (hsame : SameAccess s t)
    (hother : ∀ k, k < 4 → ∀ j, j < n → ∀ pa, s.translate (ea + j) = .ok pa → s.translate (va + k) ≠ .ok pa) :
    HoldsWord t va v := by
  obtain ⟨_, hothers, _⟩ := hstored
  intro k hk pa htr
  have htr' : s.translate (va + k) = .ok pa := hsame.translate _ ▸ htr
  exact (hothers pa fun j hj htrj => absurd htr' (hother k hk j hj pa htrj)).trans (h k hk pa htr')

theorem HoldsWord.of_memSame {s t : State} {va : Nat} {v : Word} (h : HoldsWord s va v) (hmem : MemSame s t)
    (hsame : SameAccess s t) : HoldsWord t va v :=
  fun k hk pa htr => (hmem pa).trans (h k hk pa (hsame.translate _ ▸ htr))

/-- Words with the same four bytes are the same. -/
theorem eq_of_byteOf_eq {v w : Word} (h : ∀ k, k < 4 → byteOf v k = byteOf w k) : v = w := by
  refine BitVec.eq_of_getLsbD_eq fun i hi => ?_
  have hbit := congrArg (·.getLsbD (i % 8)) (h (i / 8) (by omega))
  have hback : 8 * (i / 8) + i % 8 = i := Nat.div_add_mod i 8
  have hlt : i % 8 < 8 := Nat.mod_lt i (by decide)
  simpa [byteOf, hback, hlt] using hbit

/-- A read of ordinary bytes gives the word that stands there. -/
theorem HoldsWord.eq_of_readsAs {s : State} {va : Nat} {v w : Word} (h : HoldsWord s va v) (hslot : OrdinaryWord s va)
    (hread : ReadsAs s va 4 w) : w = v := by
  obtain ⟨hbytes, _⟩ := hread
  refine eq_of_byteOf_eq fun k hk => ?_
  obtain ⟨pa, htr, _⟩ := hslot.accessible k hk
  exact (hbytes k hk pa htr (hslot.noDevice k hk pa htr)).trans (h k hk pa htr)

/-! ### Last in, first out -/

/-- An admitted push to the ordinary slot `q` puts the register's word there and the pointer to it. -/
theorem push_slot {s : State} {p a : RegIdx} {q : Nat} (hq : (s.reg p - 4#32).toNat = q) (hslot : OrdinaryWord s q)
    (hadmit : PushAdmitted s (some p)) : ∃ t, exec (.push (some p) (some a)) s = .next t ∧ t.reg p = s.reg p - 4#32 ∧
      HoldsWord t q (s.reg a) ∧ Stored s t q 4 (s.reg a) ∧ RegsSameBut [p] s t ∧ SameAccess s t := by
  subst hq
  obtain ⟨t, hexec, hpointer, hstored, hregs, hcontrol, _⟩ :=
    pushStoresBelowThePointer s (some p) (some a) hadmit hslot.accessible
  have hsame : SameAccess s t := ControlSame.sameAccess hcontrol
  exact ⟨t, hexec, hpointer, holdsWord_of_stored hstored hsame hslot, hstored, hregs, hsame⟩

/-- An admitted pop from the ordinary slot `q` gives the word there, and the pointer is past it. -/
theorem pop_slot {s : State} {p c : RegIdx} {q : Nat} {v : Word} (hcp : c ≠ p) (hq : (s.reg p).toNat = q)
    (hslot : OrdinaryWord s q) (hword : HoldsWord s q v) (hadmit : PopAdmitted s (some p)) :
    ∃ t, exec (.pop (some p) (some c)) s = .next t ∧ t.reg c = v ∧ t.reg p = s.reg p + 4#32 ∧ RegsSameBut [p, c] s t ∧
      MemSame s t ∧ SameAccess s t := by
  subst hq
  obtain ⟨t, hexec, hvalue, hpointer, hregs, hcontrol, hmem, _⟩ :=
    popLoadsAtThePointer s (some p) (some c) hadmit hslot.accessible
  exact ⟨t, hexec, hword.eq_of_readsAs hslot hvalue, hpointer hcp.symm, hregs, hmem, ControlSame.sameAccess hcontrol⟩

/-- Settles O48: the second push leaves the word in the first slot, and each pop gives the word that its slot holds. -/
theorem stackIsLastInFirstOut : Obligations.StackIsLastInFirstOut := by
  intro s p a b c d hcp hdp hcd hbp hbound hroom hacc hdev hdist
  obtain ⟨low, hlow⟩ : ∃ low, (s.reg p).toNat = low + 8 := Nat.exists_eq_add_of_le' hroom
  rw [hlow, Nat.add_sub_cancel] at hacc hdev hdist
  rw [hlow] at hbound
  have hslotB : OrdinaryWord s low := ordinaryWord_of_part 0 (by decide) hacc hdev hdist
  have hslotA : OrdinaryWord s (low + 4) := ordinaryWord_of_part 4 (by decide) hacc hdev hdist
  have hq1 : (s.reg p - 4#32).toNat = low + 4 := by bv_omega
  have hq2 : (s.reg p - 4#32 - 4#32).toNat = low := by bv_omega
  -- the two pushes
  have hadmit1 : PushAdmitted s (some p) := fun base size hb => by
    obtain ⟨hroomBound, _⟩ := hbound base size hb
    rw [State.stackPtr_some]
    omega
  obtain ⟨t1, hpush1, hp1, hwordA1, _, hregs1, hsame1⟩ := push_slot (a := a) hq1 hslotA hadmit1
  have hadmit2 : PushAdmitted t1 (some p) := fun base size hb => by
    obtain ⟨hroomBound, _⟩ := hbound base size (hsame1.params ▸ hb)
    rw [State.stackPtr_some, hp1, hq1]
    omega
  obtain ⟨t2, hpush2, hp2, hwordB2, hstored2, _, hsame12⟩ :=
    push_slot (a := b) (hp1 ▸ hq2) (hsame1.ordinaryWord hslotB) hadmit2
  have hsame2 : SameAccess s t2 := hsame1.trans hsame12
  have hwordA2 : HoldsWord t2 (low + 4) (s.reg a) := hwordA1.of_stored hstored2 hsame12 fun k hk j hj pa htr => by
    rw [hsame1.translate] at htr ⊢
    rw [Nat.add_assoc]
    exact hdist j (4 + k) (by omega) (by omega) pa htr
  rw [hp1] at hp2
  -- the two pops
  have hadmit3 : PopAdmitted t2 (some p) := fun base size hb => by
    obtain ⟨_, hbase⟩ := hbound base size (hsame2.params ▸ hb)
    rw [State.stackPtr_some, hp2, hq2]
    omega
  obtain ⟨t3, hpop1, hc3, hp3, _, hmem3, hsame23⟩ := pop_slot hcp (hp2 ▸ hq2) (hsame2.ordinaryWord hslotB) hwordB2 hadmit3
  rw [hp2, BitVec.sub_add_cancel] at hp3
  have hsame3 : SameAccess s t3 := hsame2.trans hsame23
  have hadmit4 : PopAdmitted t3 (some p) := fun base size hb => by
    obtain ⟨_, hbase⟩ := hbound base size (hsame3.params ▸ hb)
    rw [State.stackPtr_some, hp3, hq1]
    omega
  obtain ⟨t4, hpop2, hd4, hp4, hregs4, _, _⟩ :=
    pop_slot hdp (hp3 ▸ hq1) (hsame3.ordinaryWord hslotA) (hwordA2.of_memSame hmem3 hsame23) hadmit4
  have hc4 : t4.reg c = s.reg b := by
    rw [hregs4 c (by simp [hcp, hcd]), hc3]
    exact hregs1 b (by simp [hbp])
  exact ⟨t1, t2, t3, t4, hpush1, hpush2, hpop1, hpop2, hc4, hd4, by rw [hp4, hp3, BitVec.sub_add_cancel]⟩

end Sys2Proof.Spec
end
